-- ==== Sys2Proof/Word.lean ====
section
/-!
DEFINITION. The two word types of the 6500 family: a byte of 8 bits and an address of 16 bits
(spec/00_scope.md section 6, "Widths"; R41, R42). Nothing else stands here.
-/

namespace Sys2Proof

/-- A byte: every register but PC, and every datum on the bus (R11, R42). -/
abbrev Byte := BitVec 8

/-- A 16-bit address as the core forms it (R41). -/
abbrev Word := BitVec 16

end Sys2Proof
end

