-- ==== Sys2Proof/Config.lean ====
section
/-!
DEFINITION. What an implementation or a platform fixes (spec/00_scope.md R3 and section 5), and the free values:
constants without a body, for every value the spec leaves open (spec/93_implementation_defined.md Part 1).
-/

namespace Sys2Proof

/-- The ten members of the family (R1, R3). -/
inductive Member where
  | m6502 | m6503 | m6504 | m6505 | m6506 | m6507
  | m6512 | m6513 | m6514 | m6515
deriving DecidableEq, Repr, Inhabited

/-- ADDR_PINS, the address lines brought out (R3, R44). -/
def Member.addrPins : Member → Nat
  | .m6502 | .m6512 => 16
  | .m6504 | .m6507 | .m6514 => 13
  | .m6503 | .m6505 | .m6506 | .m6513 | .m6515 => 12

/-- HAS_IRQ: every member but the 6507 (R3). -/
def Member.hasIrq : Member → Bool
  | .m6507 => false
  | .m6502 | .m6503 | .m6504 | .m6505 | .m6506 | .m6512 | .m6513 | .m6514 | .m6515 => true

/-- HAS_NMI (R3, R232). -/
def Member.hasNmi : Member → Bool
  | .m6502 | .m6503 | .m6512 | .m6513 => true
  | .m6504 | .m6505 | .m6506 | .m6507 | .m6514 | .m6515 => false

/-- HAS_RDY (R3). -/
def Member.hasRdy : Member → Bool
  | .m6502 | .m6505 | .m6507 | .m6512 | .m6515 => true
  | .m6503 | .m6504 | .m6506 | .m6513 | .m6514 => false

/-- HAS_SYNC (R3). -/
def Member.hasSync : Member → Bool
  | .m6502 | .m6512 => true
  | .m6503 | .m6504 | .m6505 | .m6506 | .m6507 | .m6513 | .m6514 | .m6515 => false

/-- HAS_SO (R3, R27). -/
def Member.hasSo : Member → Bool
  | .m6502 | .m6512 => true
  | .m6503 | .m6504 | .m6505 | .m6506 | .m6507 | .m6513 | .m6514 | .m6515 => false

/-- HAS_DBE: the 6512 only (R3, R60). -/
def Member.hasDbe : Member → Bool
  | .m6512 => true
  | .m6502 | .m6503 | .m6504 | .m6505 | .m6506 | .m6507 | .m6513 | .m6514 | .m6515 => false

/-- What answers a bus address (R52). -/
inductive RegionKind where
  | ram | rom | device | unmapped
deriving DecidableEq, Repr, Inhabited

/-- One region of the platform's memory map: the bus addresses `first` to `last`, both included. -/
structure Region where
  first : Nat
  last : Nat
  kind : RegionKind
deriving DecidableEq, Repr, Inhabited

/-- JMP_IND_WRAP (R181, D7). -/
inductive JmpIndWrap where
  | pageWrap | carry | refuse
deriving DecidableEq, Repr, Inhabited

/-- DECIMAL_FLAGS (R122, R125, D8). -/
inductive DecimalFlags where
  | draw | nmosExact
deriving DecidableEq, Repr, Inhabited

/-- IRQ_POLL_I (R238, D11). -/
inductive IrqPollI where
  | either | old | new
deriving DecidableEq, Repr, Inhabited

/-- Where the platform lets another bus master write between two cycles of the core (R47, R54, R262): while RDY halts
the core, "the one mechanism the source gives for sharing the bus", or, by a scheme of its own that "is the platform's
business", before any cycle. The spec leaves the scheme to the platform and names no parameter for it (DESIGN CHOICE,
safe: a statement over all states covers both; log 19). -/
inductive BusSharing where
  | rdyHalts | everyCycle
deriving DecidableEq, Repr, Inhabited

/-- The parameters of 00_scope.md section 5 that vary by member or platform, and `sharing`. `map` is MEMORY_MAP
(R52, D15): the first region that holds an address gives its kind, and an address in no region is unmapped
(DESIGN CHOICE, unsafe only if a platform is described by a map that does not mean that; log 22). -/
structure Config where
  member : Member
  soActive : Bool
  map : List Region
  jmpIndWrap : JmpIndWrap
  decimalFlags : DecimalFlags
  irqPollI : IrqPollI
  busExact : Bool
  sharing : BusSharing
deriving DecidableEq, Repr, Inhabited

/-- The 6502 with every spec default (00_scope.md section 5) and, for the OPEN parameter MEMORY_MAP, one region
of ram over the whole space, as spec/95_test_vectors.md assumes (DESIGN CHOICE, unsafe; log 4). -/
def Config.default6502 : Config where
  member := .m6502
  soActive := false
  map := [⟨0, 0xFFFF, .ram⟩]
  jmpIndWrap := .pageWrap
  decimalFlags := .draw
  irqPollI := .either
  busExact := false
  sharing := .rdyHalts

/-- The kind of a bus address under MEMORY_MAP (R52). -/
def Config.kindAt (cfg : Config) (a : Nat) : RegionKind :=
  match cfg.map.find? (fun r => decide (r.first ≤ a) && decide (a ≤ r.last)) with
  | some r => r.kind
  | none => .unmapped

/-- BusAddr (R44): the internal address truncated to the pins the member brings out. -/
def Config.busAddr (cfg : Config) (a : Word) : Nat :=
  a.toNat % 2 ^ cfg.member.addrPins

/-- The registers and flags a reset sequence leaves unspecified (R31, D9). -/
structure ResetDraw where
  a : Byte
  x : Byte
  y : Byte
  sp : Byte
  n : Bool
  v : Bool
  d : Bool
  z : Bool
  c : Bool
deriving DecidableEq, Repr, Inhabited

/-! ## Free values

None has a body, so nothing can be proved of what it is. The first argument is the clock cycle of the state it is
drawn in, so that a later draw is a fresh one; the other arguments are what the value may depend on (log 7). -/

/-- The byte a device drives in a read cycle at a bus address (R45, R52: "a value supplied by the environment"). -/
opaque Config.deviceByte : Nat → Nat → Byte

/-- The byte read at an unmapped bus address (R52, U6: any value, drawn afresh at every read). -/
opaque Config.openBusByte : Nat → Nat → Byte

/-- N after a decimal ADC or SBC of A, M and C under DECIMAL_FLAGS = draw (R122, R125, U2). -/
opaque Config.decimalN : Nat → Byte → Byte → Bool → Bool

/-- V after a decimal ADC or SBC under DECIMAL_FLAGS = draw (U2). -/
opaque Config.decimalV : Nat → Byte → Byte → Bool → Bool

/-- Z after a decimal ADC or SBC under DECIMAL_FLAGS = draw (U2). -/
opaque Config.decimalZ : Nat → Byte → Byte → Bool → Bool

/-- A after a decimal ADC or SBC of operands that are not valid BCD, under DECIMAL_FLAGS = draw (U3). -/
opaque Config.decimalA : Nat → Byte → Byte → Bool → Byte

/-- C after a decimal ADC or SBC of operands that are not valid BCD, under DECIMAL_FLAGS = draw (U3). -/
opaque Config.decimalC : Nat → Byte → Byte → Bool → Bool

/-- Whether the IRQ test after CLI, SEI or PLP uses the old I, under IRQ_POLL_I = either (R238, U7). -/
opaque Config.pollsOldI : Nat → Bool

/-- Whether an NMI edge inside a BRK or an IRQ entry diverts it to the NMI vector (R246, U8). -/
opaque Config.nmiDiverts : Nat → Bool

/-- Whether an S.O. edge inside an instruction that writes V leaves V = 1 (R27, U11). -/
opaque Config.soEdgeWins : Nat → Bool

/-- The unspecified registers after a reset sequence (R31, U5). -/
opaque Config.resetDraw : Nat → ResetDraw

/-- Whether an NMI edge that falls inside the cycles of a reset sequence leaves the latch set: R25 sets it, R31 and D9
give 0 after reset, and neither speaks of such an edge (log 31). -/
opaque Config.resetHearsNmi : Nat → Bool

/-- Whether a write cycle at a bus address, in a step inside which RES falls, came before the fall and so is carried out
(R29, R273, U13). -/
opaque Config.abandonedWriteLands : Nat → Nat → Bool

end Sys2Proof
end

