-- ==== Sys2Proof/Syntax.lean ====
section
/-!
DEFINITION. The instructions: one constructor for each of the 151 rows of spec/opcode_table.json, in the order of the
opcode byte (R87, R88). The suffix names the addressing mode: Imm immediate, Zp zero page, Zpx / Zpy zero page,X / ,Y,
Abs absolute, Abx / Aby absolute,X / ,Y, Inx (indirect,X), Iny (indirect),Y, Ind absolute indirect, Acc accumulator;
implied and relative forms, and JSR, carry none. Operands are the operand bytes: a byte, or the 16-bit address
assembled low byte first (R72); `off` is the branch offset as its raw byte.
-/

namespace Sys2Proof

inductive Instr where
  /-- BRK implied, opcode $00 (R212). -/
  | brk
  /-- ORA (indirect,X), opcode $01 (R154). -/
  | oraInx (zp : Byte)
  /-- ORA zero page, opcode $05 (R154). -/
  | oraZp (zp : Byte)
  /-- ASL zero page, opcode $06 (R155). -/
  | aslZp (zp : Byte)
  /-- PHP implied, opcode $08 (R201). -/
  | php
  /-- ORA immediate, opcode $09 (R154). -/
  | oraImm (v : Byte)
  /-- ASL accumulator, opcode $0A (R155). -/
  | aslAcc
  /-- ORA absolute, opcode $0D (R154). -/
  | oraAbs (addr : Word)
  /-- ASL absolute, opcode $0E (R155). -/
  | aslAbs (addr : Word)
  /-- BPL relative, opcode $10 (R176). -/
  | bpl (off : Byte)
  /-- ORA (indirect),Y, opcode $11 (R154). -/
  | oraIny (zp : Byte)
  /-- ORA zero page,X, opcode $15 (R154). -/
  | oraZpx (zp : Byte)
  /-- ASL zero page,X, opcode $16 (R155). -/
  | aslZpx (zp : Byte)
  /-- CLC implied, opcode $18 (R204). -/
  | clc
  /-- ORA absolute,Y, opcode $19 (R154). -/
  | oraAby (base : Word)
  /-- ORA absolute,X, opcode $1D (R154). -/
  | oraAbx (base : Word)
  /-- ASL absolute,X, opcode $1E (R155). -/
  | aslAbx (base : Word)
  /-- JSR absolute, opcode $20 (R183). -/
  | jsr (addr : Word)
  /-- AND (indirect,X), opcode $21 (R151). -/
  | andInx (zp : Byte)
  /-- BIT zero page, opcode $24 (R152). -/
  | bitZp (zp : Byte)
  /-- AND zero page, opcode $25 (R151). -/
  | andZp (zp : Byte)
  /-- ROL zero page, opcode $26 (R157). -/
  | rolZp (zp : Byte)
  /-- PLP implied, opcode $28 (R203). -/
  | plp
  /-- AND immediate, opcode $29 (R151). -/
  | andImm (v : Byte)
  /-- ROL accumulator, opcode $2A (R157). -/
  | rolAcc
  /-- BIT absolute, opcode $2C (R152). -/
  | bitAbs (addr : Word)
  /-- AND absolute, opcode $2D (R151). -/
  | andAbs (addr : Word)
  /-- ROL absolute, opcode $2E (R157). -/
  | rolAbs (addr : Word)
  /-- BMI relative, opcode $30 (R174). -/
  | bmi (off : Byte)
  /-- AND (indirect),Y, opcode $31 (R151). -/
  | andIny (zp : Byte)
  /-- AND zero page,X, opcode $35 (R151). -/
  | andZpx (zp : Byte)
  /-- ROL zero page,X, opcode $36 (R157). -/
  | rolZpx (zp : Byte)
  /-- SEC implied, opcode $38 (R208). -/
  | sec
  /-- AND absolute,Y, opcode $39 (R151). -/
  | andAby (base : Word)
  /-- AND absolute,X, opcode $3D (R151). -/
  | andAbx (base : Word)
  /-- ROL absolute,X, opcode $3E (R157). -/
  | rolAbx (base : Word)
  /-- RTI implied, opcode $40 (R213). -/
  | rti
  /-- EOR (indirect,X), opcode $41 (R153). -/
  | eorInx (zp : Byte)
  /-- EOR zero page, opcode $45 (R153). -/
  | eorZp (zp : Byte)
  /-- LSR zero page, opcode $46 (R156). -/
  | lsrZp (zp : Byte)
  /-- PHA implied, opcode $48 (R200). -/
  | pha
  /-- EOR immediate, opcode $49 (R153). -/
  | eorImm (v : Byte)
  /-- LSR accumulator, opcode $4A (R156). -/
  | lsrAcc
  /-- JMP absolute, opcode $4C (R180). -/
  | jmpAbs (addr : Word)
  /-- EOR absolute, opcode $4D (R153). -/
  | eorAbs (addr : Word)
  /-- LSR absolute, opcode $4E (R156). -/
  | lsrAbs (addr : Word)
  /-- BVC relative, opcode $50 (R177). -/
  | bvc (off : Byte)
  /-- EOR (indirect),Y, opcode $51 (R153). -/
  | eorIny (zp : Byte)
  /-- EOR zero page,X, opcode $55 (R153). -/
  | eorZpx (zp : Byte)
  /-- LSR zero page,X, opcode $56 (R156). -/
  | lsrZpx (zp : Byte)
  /-- CLI implied, opcode $58 (R206). -/
  | cli
  /-- EOR absolute,Y, opcode $59 (R153). -/
  | eorAby (base : Word)
  /-- EOR absolute,X, opcode $5D (R153). -/
  | eorAbx (base : Word)
  /-- LSR absolute,X, opcode $5E (R156). -/
  | lsrAbx (base : Word)
  /-- RTS implied, opcode $60 (R184). -/
  | rts
  /-- ADC (indirect,X), opcode $61 (R121). -/
  | adcInx (zp : Byte)
  /-- ADC zero page, opcode $65 (R121). -/
  | adcZp (zp : Byte)
  /-- ROR zero page, opcode $66 (R158). -/
  | rorZp (zp : Byte)
  /-- PLA implied, opcode $68 (R202). -/
  | pla
  /-- ADC immediate, opcode $69 (R121). -/
  | adcImm (v : Byte)
  /-- ROR accumulator, opcode $6A (R158). -/
  | rorAcc
  /-- JMP absolute indirect, opcode $6C (R180). -/
  | jmpInd (ptr : Word)
  /-- ADC absolute, opcode $6D (R121). -/
  | adcAbs (addr : Word)
  /-- ROR absolute, opcode $6E (R158). -/
  | rorAbs (addr : Word)
  /-- BVS relative, opcode $70 (R178). -/
  | bvs (off : Byte)
  /-- ADC (indirect),Y, opcode $71 (R121). -/
  | adcIny (zp : Byte)
  /-- ADC zero page,X, opcode $75 (R121). -/
  | adcZpx (zp : Byte)
  /-- ROR zero page,X, opcode $76 (R158). -/
  | rorZpx (zp : Byte)
  /-- SEI implied, opcode $78 (R210). -/
  | sei
  /-- ADC absolute,Y, opcode $79 (R121). -/
  | adcAby (base : Word)
  /-- ADC absolute,X, opcode $7D (R121). -/
  | adcAbx (base : Word)
  /-- ROR absolute,X, opcode $7E (R158). -/
  | rorAbx (base : Word)
  /-- STA (indirect,X), opcode $81 (R104). -/
  | staInx (zp : Byte)
  /-- STY zero page, opcode $84 (R106). -/
  | styZp (zp : Byte)
  /-- STA zero page, opcode $85 (R104). -/
  | staZp (zp : Byte)
  /-- STX zero page, opcode $86 (R105). -/
  | stxZp (zp : Byte)
  /-- DEY implied, opcode $88 (R132). -/
  | dey
  /-- TXA implied, opcode $8A (R110). -/
  | txa
  /-- STY absolute, opcode $8C (R106). -/
  | styAbs (addr : Word)
  /-- STA absolute, opcode $8D (R104). -/
  | staAbs (addr : Word)
  /-- STX absolute, opcode $8E (R105). -/
  | stxAbs (addr : Word)
  /-- BCC relative, opcode $90 (R171). -/
  | bcc (off : Byte)
  /-- STA (indirect),Y, opcode $91 (R104). -/
  | staIny (zp : Byte)
  /-- STY zero page,X, opcode $94 (R106). -/
  | styZpx (zp : Byte)
  /-- STA zero page,X, opcode $95 (R104). -/
  | staZpx (zp : Byte)
  /-- STX zero page,Y, opcode $96 (R105). -/
  | stxZpy (zp : Byte)
  /-- TYA implied, opcode $98 (R112). -/
  | tya
  /-- STA absolute,Y, opcode $99 (R104). -/
  | staAby (base : Word)
  /-- TXS implied, opcode $9A (R111). -/
  | txs
  /-- STA absolute,X, opcode $9D (R104). -/
  | staAbx (base : Word)
  /-- LDY immediate, opcode $A0 (R103). -/
  | ldyImm (v : Byte)
  /-- LDA (indirect,X), opcode $A1 (R101). -/
  | ldaInx (zp : Byte)
  /-- LDX immediate, opcode $A2 (R102). -/
  | ldxImm (v : Byte)
  /-- LDY zero page, opcode $A4 (R103). -/
  | ldyZp (zp : Byte)
  /-- LDA zero page, opcode $A5 (R101). -/
  | ldaZp (zp : Byte)
  /-- LDX zero page, opcode $A6 (R102). -/
  | ldxZp (zp : Byte)
  /-- TAY implied, opcode $A8 (R108). -/
  | tay
  /-- LDA immediate, opcode $A9 (R101). -/
  | ldaImm (v : Byte)
  /-- TAX implied, opcode $AA (R107). -/
  | tax
  /-- LDY absolute, opcode $AC (R103). -/
  | ldyAbs (addr : Word)
  /-- LDA absolute, opcode $AD (R101). -/
  | ldaAbs (addr : Word)
  /-- LDX absolute, opcode $AE (R102). -/
  | ldxAbs (addr : Word)
  /-- BCS relative, opcode $B0 (R172). -/
  | bcs (off : Byte)
  /-- LDA (indirect),Y, opcode $B1 (R101). -/
  | ldaIny (zp : Byte)
  /-- LDY zero page,X, opcode $B4 (R103). -/
  | ldyZpx (zp : Byte)
  /-- LDA zero page,X, opcode $B5 (R101). -/
  | ldaZpx (zp : Byte)
  /-- LDX zero page,Y, opcode $B6 (R102). -/
  | ldxZpy (zp : Byte)
  /-- CLV implied, opcode $B8 (R207). -/
  | clv
  /-- LDA absolute,Y, opcode $B9 (R101). -/
  | ldaAby (base : Word)
  /-- TSX implied, opcode $BA (R109). -/
  | tsx
  /-- LDY absolute,X, opcode $BC (R103). -/
  | ldyAbx (base : Word)
  /-- LDA absolute,X, opcode $BD (R101). -/
  | ldaAbx (base : Word)
  /-- LDX absolute,Y, opcode $BE (R102). -/
  | ldxAby (base : Word)
  /-- CPY immediate, opcode $C0 (R128). -/
  | cpyImm (v : Byte)
  /-- CMP (indirect,X), opcode $C1 (R126). -/
  | cmpInx (zp : Byte)
  /-- CPY zero page, opcode $C4 (R128). -/
  | cpyZp (zp : Byte)
  /-- CMP zero page, opcode $C5 (R126). -/
  | cmpZp (zp : Byte)
  /-- DEC zero page, opcode $C6 (R130). -/
  | decZp (zp : Byte)
  /-- INY implied, opcode $C8 (R135). -/
  | iny
  /-- CMP immediate, opcode $C9 (R126). -/
  | cmpImm (v : Byte)
  /-- DEX implied, opcode $CA (R131). -/
  | dex
  /-- CPY absolute, opcode $CC (R128). -/
  | cpyAbs (addr : Word)
  /-- CMP absolute, opcode $CD (R126). -/
  | cmpAbs (addr : Word)
  /-- DEC absolute, opcode $CE (R130). -/
  | decAbs (addr : Word)
  /-- BNE relative, opcode $D0 (R175). -/
  | bne (off : Byte)
  /-- CMP (indirect),Y, opcode $D1 (R126). -/
  | cmpIny (zp : Byte)
  /-- CMP zero page,X, opcode $D5 (R126). -/
  | cmpZpx (zp : Byte)
  /-- DEC zero page,X, opcode $D6 (R130). -/
  | decZpx (zp : Byte)
  /-- CLD implied, opcode $D8 (R205). -/
  | cld
  /-- CMP absolute,Y, opcode $D9 (R126). -/
  | cmpAby (base : Word)
  /-- CMP absolute,X, opcode $DD (R126). -/
  | cmpAbx (base : Word)
  /-- DEC absolute,X, opcode $DE (R130). -/
  | decAbx (base : Word)
  /-- CPX immediate, opcode $E0 (R127). -/
  | cpxImm (v : Byte)
  /-- SBC (indirect,X), opcode $E1 (R124). -/
  | sbcInx (zp : Byte)
  /-- CPX zero page, opcode $E4 (R127). -/
  | cpxZp (zp : Byte)
  /-- SBC zero page, opcode $E5 (R124). -/
  | sbcZp (zp : Byte)
  /-- INC zero page, opcode $E6 (R133). -/
  | incZp (zp : Byte)
  /-- INX implied, opcode $E8 (R134). -/
  | inx
  /-- SBC immediate, opcode $E9 (R124). -/
  | sbcImm (v : Byte)
  /-- NOP implied, opcode $EA (R211). -/
  | nop
  /-- CPX absolute, opcode $EC (R127). -/
  | cpxAbs (addr : Word)
  /-- SBC absolute, opcode $ED (R124). -/
  | sbcAbs (addr : Word)
  /-- INC absolute, opcode $EE (R133). -/
  | incAbs (addr : Word)
  /-- BEQ relative, opcode $F0 (R173). -/
  | beq (off : Byte)
  /-- SBC (indirect),Y, opcode $F1 (R124). -/
  | sbcIny (zp : Byte)
  /-- SBC zero page,X, opcode $F5 (R124). -/
  | sbcZpx (zp : Byte)
  /-- INC zero page,X, opcode $F6 (R133). -/
  | incZpx (zp : Byte)
  /-- SED implied, opcode $F8 (R209). -/
  | sed
  /-- SBC absolute,Y, opcode $F9 (R124). -/
  | sbcAby (base : Word)
  /-- SBC absolute,X, opcode $FD (R124). -/
  | sbcAbx (base : Word)
  /-- INC absolute,X, opcode $FE (R133). -/
  | incAbx (base : Word)
deriving DecidableEq, Repr

end Sys2Proof
end

