-- ==== Sys2Proof/WellFormed.lean ====
section
/-!
DEFINITION. Well-formedness: of an instruction (nothing to check: R90) and of a configuration.
-/

namespace Sys2Proof

/-- "Every bit pattern of the operand bytes is legal: any byte is a valid immediate, zero-page address, address half
or offset" (R90): the operand types hold exactly the bits of the encoding, so every instruction is well formed. -/
def Instr.wellFormed (_ : Instr) : Bool := true

/-- A region runs upwards and lies in the bus address space of the member (R44, R52). -/
def Region.fits (r : Region) (m : Member) : Bool :=
  decide (r.first ≤ r.last) && decide (r.last < 2 ^ m.addrPins)

/-- Two regions share no address. -/
def Region.apart (r q : Region) : Bool :=
  decide (r.last < q.first) || decide (q.last < r.first)

/-- Each address lies in at most one region. -/
def regionsApart : List Region → Bool
  | [] => true
  | r :: rest => rest.all (Region.apart r) && regionsApart rest

/-- A configuration is well formed when its regions fit the member and are apart, and S.O. is driven only on a
member that has the pin (R3, R27). -/
def Config.wellFormed (cfg : Config) : Bool :=
  cfg.map.all (fun r => r.fits cfg.member) && regionsApart cfg.map && (!cfg.soActive || cfg.member.hasSo)

end Sys2Proof
end

