-- ==== Sys2Proof/Decode.lean ====
section
/-!
DEFINITION. Encodings (spec/30_encoding.md): operand assembly (R72), the operand forms of the thirteen addressing
modes (R70, R71), the decoder from the opcode matrix of R87, total on any bytes and rejecting by name, and after it
the encoder from the list of R88.
-/

namespace Sys2Proof

/-- word(hi, lo) = hi * 256 + lo (00_scope.md section 6, R72). -/
def word (hi lo : Byte) : Word := BitVec.ofNat 16 (hi.toNat * 256 + lo.toNat)

/-- Bits 15..8 of an address. -/
def hiByte (w : Word) : Byte := BitVec.ofNat 8 (w.toNat / 256)

/-- Bits 7..0 of an address. -/
def loByte (w : Word) : Byte := BitVec.ofNat 8 w.toNat

/-- The 56 mnemonics (R2, R88). -/
inductive Mnemonic where
  | adc | and | asl | bcc | bcs | beq | bit | bmi
  | bne | bpl | brk | bvc | bvs | clc | cld | cli
  | clv | cmp | cpx | cpy | dec | dex | dey | eor
  | inc | inx | iny | jmp | jsr | lda | ldx | ldy
  | lsr | nop | ora | pha | php | pla | plp | rol
  | ror | rti | rts | sbc | sec | sed | sei | sta
  | stx | sty | tax | tay | tsx | txa | txs | tya
deriving DecidableEq, Repr

/-- The eight addressing modes that form the address of a memory operand, each with its operand bytes
(R76 to R82). -/
inductive Addr where
  | zeroPage (zp : Byte)
  | zeroPageX (zp : Byte)
  | zeroPageY (zp : Byte)
  | absolute (addr : Word)
  | absoluteX (base : Word)
  | absoluteY (base : Word)
  | indirectX (zp : Byte)
  | indirectY (zp : Byte)
deriving DecidableEq, Repr

/-- The operand of an instruction: the thirteen addressing modes with their operand bytes (R73 to R85). The address
of JMP absolute and of JSR is the form `memory (.absolute _)` (R76). -/
inductive Operand where
  | implied
  | accumulator
  | immediate (v : Byte)
  | memory (m : Addr)
  | relative (off : Byte)
  | absoluteIndirect (ptr : Word)
deriving DecidableEq, Repr

/-- The bytes after the opcode byte: formats F2 and F3 (R71, R72), an address low byte first (R40). -/
def Addr.bytes : Addr → List Byte
  | .zeroPage z | .zeroPageX z | .zeroPageY z | .indirectX z | .indirectY z => [z]
  | .absolute w | .absoluteX w | .absoluteY w => [loByte w, hiByte w]

/-- The bytes after the opcode byte (R71). -/
def Operand.bytes : Operand → List Byte
  | .implied | .accumulator => []
  | .immediate v => [v]
  | .memory m => m.bytes
  | .relative off => [off]
  | .absoluteIndirect ptr => [loByte ptr, hiByte ptr]

/-- The length in bytes of an instruction with this operand (R70). -/
def Operand.length : Operand → Nat
  | .implied | .accumulator => 1
  | .immediate _ | .relative _ => 2
  | .absoluteIndirect _ => 3
  | .memory (.zeroPage _) | .memory (.zeroPageX _) | .memory (.zeroPageY _) => 2
  | .memory (.indirectX _) | .memory (.indirectY _) => 2
  | .memory (.absolute _) | .memory (.absoluteX _) | .memory (.absoluteY _) => 3

/-- The mnemonic of each row of the opcode table (R88). -/
def Instr.mnemonic : Instr → Mnemonic
  | .adcInx _ | .adcZp _ | .adcImm _ | .adcAbs _ | .adcIny _ | .adcZpx _
  | .adcAby _ | .adcAbx _ => .adc
  | .andInx _ | .andZp _ | .andImm _ | .andAbs _ | .andIny _ | .andZpx _
  | .andAby _ | .andAbx _ => .and
  | .aslZp _ | .aslAcc | .aslAbs _ | .aslZpx _ | .aslAbx _ => .asl
  | .bcc _ => .bcc
  | .bcs _ => .bcs
  | .beq _ => .beq
  | .bitZp _ | .bitAbs _ => .bit
  | .bmi _ => .bmi
  | .bne _ => .bne
  | .bpl _ => .bpl
  | .brk => .brk
  | .bvc _ => .bvc
  | .bvs _ => .bvs
  | .clc => .clc
  | .cld => .cld
  | .cli => .cli
  | .clv => .clv
  | .cmpInx _ | .cmpZp _ | .cmpImm _ | .cmpAbs _ | .cmpIny _ | .cmpZpx _
  | .cmpAby _ | .cmpAbx _ => .cmp
  | .cpxImm _ | .cpxZp _ | .cpxAbs _ => .cpx
  | .cpyImm _ | .cpyZp _ | .cpyAbs _ => .cpy
  | .decZp _ | .decAbs _ | .decZpx _ | .decAbx _ => .dec
  | .dex => .dex
  | .dey => .dey
  | .eorInx _ | .eorZp _ | .eorImm _ | .eorAbs _ | .eorIny _ | .eorZpx _
  | .eorAby _ | .eorAbx _ => .eor
  | .incZp _ | .incAbs _ | .incZpx _ | .incAbx _ => .inc
  | .inx => .inx
  | .iny => .iny
  | .jmpAbs _ | .jmpInd _ => .jmp
  | .jsr _ => .jsr
  | .ldaInx _ | .ldaZp _ | .ldaImm _ | .ldaAbs _ | .ldaIny _ | .ldaZpx _
  | .ldaAby _ | .ldaAbx _ => .lda
  | .ldxImm _ | .ldxZp _ | .ldxAbs _ | .ldxZpy _ | .ldxAby _ => .ldx
  | .ldyImm _ | .ldyZp _ | .ldyAbs _ | .ldyZpx _ | .ldyAbx _ => .ldy
  | .lsrZp _ | .lsrAcc | .lsrAbs _ | .lsrZpx _ | .lsrAbx _ => .lsr
  | .nop => .nop
  | .oraInx _ | .oraZp _ | .oraImm _ | .oraAbs _ | .oraIny _ | .oraZpx _
  | .oraAby _ | .oraAbx _ => .ora
  | .pha => .pha
  | .php => .php
  | .pla => .pla
  | .plp => .plp
  | .rolZp _ | .rolAcc | .rolAbs _ | .rolZpx _ | .rolAbx _ => .rol
  | .rorZp _ | .rorAcc | .rorAbs _ | .rorZpx _ | .rorAbx _ => .ror
  | .rti => .rti
  | .rts => .rts
  | .sbcInx _ | .sbcZp _ | .sbcImm _ | .sbcAbs _ | .sbcIny _ | .sbcZpx _
  | .sbcAby _ | .sbcAbx _ => .sbc
  | .sec => .sec
  | .sed => .sed
  | .sei => .sei
  | .staInx _ | .staZp _ | .staAbs _ | .staIny _ | .staZpx _ | .staAby _
  | .staAbx _ => .sta
  | .stxZp _ | .stxAbs _ | .stxZpy _ => .stx
  | .styZp _ | .styAbs _ | .styZpx _ => .sty
  | .tax => .tax
  | .tay => .tay
  | .tsx => .tsx
  | .txa => .txa
  | .txs => .txs
  | .tya => .tya

/-- The operand of each row of the opcode table, by its addressing mode (R88). -/
def Instr.operand : Instr → Operand
  | .brk | .php | .clc | .plp | .sec | .rti | .pha | .cli | .rts | .pla
  | .sei | .dey | .txa | .tya | .txs | .tay | .tax | .clv | .tsx | .iny
  | .dex | .cld | .inx | .nop | .sed => .implied
  | .aslAcc | .rolAcc | .lsrAcc | .rorAcc => .accumulator
  | .oraInx zp | .andInx zp | .eorInx zp | .adcInx zp | .staInx zp | .ldaInx zp | .cmpInx zp
  | .sbcInx zp => .memory (.indirectX zp)
  | .oraZp zp | .aslZp zp | .bitZp zp | .andZp zp | .rolZp zp | .eorZp zp | .lsrZp zp
  | .adcZp zp | .rorZp zp | .styZp zp | .staZp zp | .stxZp zp | .ldyZp zp | .ldaZp zp
  | .ldxZp zp | .cpyZp zp | .cmpZp zp | .decZp zp | .cpxZp zp | .sbcZp zp | .incZp zp => .memory (.zeroPage zp)
  | .oraImm v | .andImm v | .eorImm v | .adcImm v | .ldyImm v | .ldxImm v | .ldaImm v
  | .cpyImm v | .cmpImm v | .cpxImm v | .sbcImm v => .immediate v
  | .oraAbs addr | .aslAbs addr | .jsr addr | .bitAbs addr | .andAbs addr | .rolAbs addr | .jmpAbs addr
  | .eorAbs addr | .lsrAbs addr | .adcAbs addr | .rorAbs addr | .styAbs addr | .staAbs addr | .stxAbs addr
  | .ldyAbs addr | .ldaAbs addr | .ldxAbs addr | .cpyAbs addr | .cmpAbs addr | .decAbs addr | .cpxAbs addr
  | .sbcAbs addr | .incAbs addr => .memory (.absolute addr)
  | .bpl off | .bmi off | .bvc off | .bvs off | .bcc off | .bcs off | .bne off
  | .beq off => .relative off
  | .oraIny zp | .andIny zp | .eorIny zp | .adcIny zp | .staIny zp | .ldaIny zp | .cmpIny zp
  | .sbcIny zp => .memory (.indirectY zp)
  | .oraZpx zp | .aslZpx zp | .andZpx zp | .rolZpx zp | .eorZpx zp | .lsrZpx zp | .adcZpx zp
  | .rorZpx zp | .styZpx zp | .staZpx zp | .ldyZpx zp | .ldaZpx zp | .cmpZpx zp | .decZpx zp
  | .sbcZpx zp | .incZpx zp => .memory (.zeroPageX zp)
  | .oraAby base | .andAby base | .eorAby base | .adcAby base | .staAby base | .ldaAby base | .ldxAby base
  | .cmpAby base | .sbcAby base => .memory (.absoluteY base)
  | .oraAbx base | .aslAbx base | .andAbx base | .rolAbx base | .eorAbx base | .lsrAbx base | .adcAbx base
  | .rorAbx base | .staAbx base | .ldyAbx base | .ldaAbx base | .cmpAbx base | .decAbx base | .sbcAbx base
  | .incAbx base => .memory (.absoluteX base)
  | .jmpInd ptr => .absoluteIndirect ptr
  | .stxZpy zp | .ldxZpy zp => .memory (.zeroPageY zp)

/-- The length of an instruction in bytes (R70). -/
def Instr.length (i : Instr) : Nat := i.operand.length

/-! ## The decoder -/

/-- What follows an opcode byte: nothing, one byte, or an address (formats F1, F2, F3 of R71). -/
inductive Form where
  | bare (i : Instr)
  | byte (f : Byte → Instr)
  | addr (f : Word → Instr)

/-- How many operand bytes follow the opcode byte (R71). -/
def Form.operandBytes : Form → Nat
  | .bare _ => 0
  | .byte _ => 1
  | .addr _ => 2

/-- Row $0x of the opcode matrix (R87). -/
def opcodeRow0 : List (Nat × Form) :=
  [(0x00, .bare .brk), (0x01, .byte .oraInx), (0x05, .byte .oraZp), (0x06, .byte .aslZp),
   (0x08, .bare .php), (0x09, .byte .oraImm), (0x0A, .bare .aslAcc), (0x0D, .addr .oraAbs),
   (0x0E, .addr .aslAbs)]

/-- Row $1x of the opcode matrix (R87). -/
def opcodeRow1 : List (Nat × Form) :=
  [(0x10, .byte .bpl), (0x11, .byte .oraIny), (0x15, .byte .oraZpx), (0x16, .byte .aslZpx),
   (0x18, .bare .clc), (0x19, .addr .oraAby), (0x1D, .addr .oraAbx), (0x1E, .addr .aslAbx)]

/-- Row $2x of the opcode matrix (R87). -/
def opcodeRow2 : List (Nat × Form) :=
  [(0x20, .addr .jsr), (0x21, .byte .andInx), (0x24, .byte .bitZp), (0x25, .byte .andZp),
   (0x26, .byte .rolZp), (0x28, .bare .plp), (0x29, .byte .andImm), (0x2A, .bare .rolAcc),
   (0x2C, .addr .bitAbs), (0x2D, .addr .andAbs), (0x2E, .addr .rolAbs)]

/-- Row $3x of the opcode matrix (R87). -/
def opcodeRow3 : List (Nat × Form) :=
  [(0x30, .byte .bmi), (0x31, .byte .andIny), (0x35, .byte .andZpx), (0x36, .byte .rolZpx),
   (0x38, .bare .sec), (0x39, .addr .andAby), (0x3D, .addr .andAbx), (0x3E, .addr .rolAbx)]

/-- Row $4x of the opcode matrix (R87). -/
def opcodeRow4 : List (Nat × Form) :=
  [(0x40, .bare .rti), (0x41, .byte .eorInx), (0x45, .byte .eorZp), (0x46, .byte .lsrZp),
   (0x48, .bare .pha), (0x49, .byte .eorImm), (0x4A, .bare .lsrAcc), (0x4C, .addr .jmpAbs),
   (0x4D, .addr .eorAbs), (0x4E, .addr .lsrAbs)]

/-- Row $5x of the opcode matrix (R87). -/
def opcodeRow5 : List (Nat × Form) :=
  [(0x50, .byte .bvc), (0x51, .byte .eorIny), (0x55, .byte .eorZpx), (0x56, .byte .lsrZpx),
   (0x58, .bare .cli), (0x59, .addr .eorAby), (0x5D, .addr .eorAbx), (0x5E, .addr .lsrAbx)]

/-- Row $6x of the opcode matrix (R87). -/
def opcodeRow6 : List (Nat × Form) :=
  [(0x60, .bare .rts), (0x61, .byte .adcInx), (0x65, .byte .adcZp), (0x66, .byte .rorZp),
   (0x68, .bare .pla), (0x69, .byte .adcImm), (0x6A, .bare .rorAcc), (0x6C, .addr .jmpInd),
   (0x6D, .addr .adcAbs), (0x6E, .addr .rorAbs)]

/-- Row $7x of the opcode matrix (R87). -/
def opcodeRow7 : List (Nat × Form) :=
  [(0x70, .byte .bvs), (0x71, .byte .adcIny), (0x75, .byte .adcZpx), (0x76, .byte .rorZpx),
   (0x78, .bare .sei), (0x79, .addr .adcAby), (0x7D, .addr .adcAbx), (0x7E, .addr .rorAbx)]

/-- Row $8x of the opcode matrix (R87). -/
def opcodeRow8 : List (Nat × Form) :=
  [(0x81, .byte .staInx), (0x84, .byte .styZp), (0x85, .byte .staZp), (0x86, .byte .stxZp),
   (0x88, .bare .dey), (0x8A, .bare .txa), (0x8C, .addr .styAbs), (0x8D, .addr .staAbs),
   (0x8E, .addr .stxAbs)]

/-- Row $9x of the opcode matrix (R87). -/
def opcodeRow9 : List (Nat × Form) :=
  [(0x90, .byte .bcc), (0x91, .byte .staIny), (0x94, .byte .styZpx), (0x95, .byte .staZpx),
   (0x96, .byte .stxZpy), (0x98, .bare .tya), (0x99, .addr .staAby), (0x9A, .bare .txs),
   (0x9D, .addr .staAbx)]

/-- Row $Ax of the opcode matrix (R87). -/
def opcodeRowA : List (Nat × Form) :=
  [(0xA0, .byte .ldyImm), (0xA1, .byte .ldaInx), (0xA2, .byte .ldxImm), (0xA4, .byte .ldyZp),
   (0xA5, .byte .ldaZp), (0xA6, .byte .ldxZp), (0xA8, .bare .tay), (0xA9, .byte .ldaImm),
   (0xAA, .bare .tax), (0xAC, .addr .ldyAbs), (0xAD, .addr .ldaAbs), (0xAE, .addr .ldxAbs)]

/-- Row $Bx of the opcode matrix (R87). -/
def opcodeRowB : List (Nat × Form) :=
  [(0xB0, .byte .bcs), (0xB1, .byte .ldaIny), (0xB4, .byte .ldyZpx), (0xB5, .byte .ldaZpx),
   (0xB6, .byte .ldxZpy), (0xB8, .bare .clv), (0xB9, .addr .ldaAby), (0xBA, .bare .tsx),
   (0xBC, .addr .ldyAbx), (0xBD, .addr .ldaAbx), (0xBE, .addr .ldxAby)]

/-- Row $Cx of the opcode matrix (R87). -/
def opcodeRowC : List (Nat × Form) :=
  [(0xC0, .byte .cpyImm), (0xC1, .byte .cmpInx), (0xC4, .byte .cpyZp), (0xC5, .byte .cmpZp),
   (0xC6, .byte .decZp), (0xC8, .bare .iny), (0xC9, .byte .cmpImm), (0xCA, .bare .dex),
   (0xCC, .addr .cpyAbs), (0xCD, .addr .cmpAbs), (0xCE, .addr .decAbs)]

/-- Row $Dx of the opcode matrix (R87). -/
def opcodeRowD : List (Nat × Form) :=
  [(0xD0, .byte .bne), (0xD1, .byte .cmpIny), (0xD5, .byte .cmpZpx), (0xD6, .byte .decZpx),
   (0xD8, .bare .cld), (0xD9, .addr .cmpAby), (0xDD, .addr .cmpAbx), (0xDE, .addr .decAbx)]

/-- Row $Ex of the opcode matrix (R87). -/
def opcodeRowE : List (Nat × Form) :=
  [(0xE0, .byte .cpxImm), (0xE1, .byte .sbcInx), (0xE4, .byte .cpxZp), (0xE5, .byte .sbcZp),
   (0xE6, .byte .incZp), (0xE8, .bare .inx), (0xE9, .byte .sbcImm), (0xEA, .bare .nop),
   (0xEC, .addr .cpxAbs), (0xED, .addr .sbcAbs), (0xEE, .addr .incAbs)]

/-- Row $Fx of the opcode matrix (R87). -/
def opcodeRowF : List (Nat × Form) :=
  [(0xF0, .byte .beq), (0xF1, .byte .sbcIny), (0xF5, .byte .sbcZpx), (0xF6, .byte .incZpx),
   (0xF8, .bare .sed), (0xF9, .addr .sbcAby), (0xFD, .addr .sbcAbx), (0xFE, .addr .incAbx)]

/-- The opcode matrix: the 151 defined opcode bytes (R87). -/
def opcodeMatrix : List (Nat × Form) :=
  opcodeRow0 ++ opcodeRow1 ++ opcodeRow2 ++ opcodeRow3 ++ opcodeRow4 ++ opcodeRow5 ++ opcodeRow6 ++ opcodeRow7 ++
  opcodeRow8 ++ opcodeRow9 ++ opcodeRowA ++ opcodeRowB ++ opcodeRowC ++ opcodeRowD ++ opcodeRowE ++ opcodeRowF

/-- The form an opcode byte has, none for the 105 undefined ones (R87, R89). "The opcode byte alone determines the
instruction, its addressing mode and therefore its length" (R70). -/
def formOf (op : Byte) : Option Form := opcodeMatrix.lookup op.toNat

/-- Why a byte string is no instruction. -/
inductive DecodeError where
  /-- The first byte is one of the 105 undefined opcode bytes (R89). -/
  | undefinedOpcode (op : Byte)
  /-- The bytes end before the instruction does. -/
  | truncated
deriving DecidableEq, Repr

/-- The first instruction of a byte string and the bytes after it (R70 to R72). Total on any bytes. -/
def decode : List Byte → Except DecodeError (Instr × List Byte)
  | [] => .error .truncated
  | op :: rest =>
    match formOf op, rest with
    | none, _ => .error (.undefinedOpcode op)
    | some (.bare i), _ => .ok (i, rest)
    | some (.byte f), b1 :: rest' => .ok (f b1, rest')
    | some (.addr f), b1 :: b2 :: rest' => .ok (f (word b2 b1), rest')
    | some (.byte _), [] => .error .truncated
    | some (.addr _), [] => .error .truncated
    | some (.addr _), [_] => .error .truncated

/-- The instruction read from the low `nbits` bits of `w`, byte 0 in bits 7..0, byte 1 in bits 15..8, byte 2 in
bits 23..16 (the numbering of spec/opcode_table.json); bits above `nbits` are 0. -/
def tableBytes (nbits w : Nat) : List Byte :=
  let v := w % 2 ^ nbits
  [BitVec.ofNat 8 v, BitVec.ofNat 8 (v / 256), BitVec.ofNat 8 (v / 65536)]

/-- The instruction the decoder reads from a table word. -/
def decodeTableWord (nbits w : Nat) : Option Instr :=
  match decode (tableBytes nbits w) with
  | .ok (i, _) => some i
  | .error _ => none

/-! ## The encoder -/

/-- The opcode byte of each instruction (R88). -/
def Instr.opcode : Instr → Byte
  | .adcInx _ => 0x61 | .adcZp _ => 0x65 | .adcImm _ => 0x69 | .adcAbs _ => 0x6D | .adcIny _ => 0x71
  | .adcZpx _ => 0x75 | .adcAby _ => 0x79 | .adcAbx _ => 0x7D
  | .andInx _ => 0x21 | .andZp _ => 0x25 | .andImm _ => 0x29 | .andAbs _ => 0x2D | .andIny _ => 0x31
  | .andZpx _ => 0x35 | .andAby _ => 0x39 | .andAbx _ => 0x3D
  | .aslZp _ => 0x06 | .aslAcc => 0x0A | .aslAbs _ => 0x0E | .aslZpx _ => 0x16 | .aslAbx _ => 0x1E
  | .bcc _ => 0x90
  | .bcs _ => 0xB0
  | .beq _ => 0xF0
  | .bitZp _ => 0x24 | .bitAbs _ => 0x2C
  | .bmi _ => 0x30
  | .bne _ => 0xD0
  | .bpl _ => 0x10
  | .brk => 0x00
  | .bvc _ => 0x50
  | .bvs _ => 0x70
  | .clc => 0x18
  | .cld => 0xD8
  | .cli => 0x58
  | .clv => 0xB8
  | .cmpInx _ => 0xC1 | .cmpZp _ => 0xC5 | .cmpImm _ => 0xC9 | .cmpAbs _ => 0xCD | .cmpIny _ => 0xD1
  | .cmpZpx _ => 0xD5 | .cmpAby _ => 0xD9 | .cmpAbx _ => 0xDD
  | .cpxImm _ => 0xE0 | .cpxZp _ => 0xE4 | .cpxAbs _ => 0xEC
  | .cpyImm _ => 0xC0 | .cpyZp _ => 0xC4 | .cpyAbs _ => 0xCC
  | .decZp _ => 0xC6 | .decAbs _ => 0xCE | .decZpx _ => 0xD6 | .decAbx _ => 0xDE
  | .dex => 0xCA
  | .dey => 0x88
  | .eorInx _ => 0x41 | .eorZp _ => 0x45 | .eorImm _ => 0x49 | .eorAbs _ => 0x4D | .eorIny _ => 0x51
  | .eorZpx _ => 0x55 | .eorAby _ => 0x59 | .eorAbx _ => 0x5D
  | .incZp _ => 0xE6 | .incAbs _ => 0xEE | .incZpx _ => 0xF6 | .incAbx _ => 0xFE
  | .inx => 0xE8
  | .iny => 0xC8
  | .jmpAbs _ => 0x4C | .jmpInd _ => 0x6C
  | .jsr _ => 0x20
  | .ldaInx _ => 0xA1 | .ldaZp _ => 0xA5 | .ldaImm _ => 0xA9 | .ldaAbs _ => 0xAD | .ldaIny _ => 0xB1
  | .ldaZpx _ => 0xB5 | .ldaAby _ => 0xB9 | .ldaAbx _ => 0xBD
  | .ldxImm _ => 0xA2 | .ldxZp _ => 0xA6 | .ldxAbs _ => 0xAE | .ldxZpy _ => 0xB6 | .ldxAby _ => 0xBE
  | .ldyImm _ => 0xA0 | .ldyZp _ => 0xA4 | .ldyAbs _ => 0xAC | .ldyZpx _ => 0xB4 | .ldyAbx _ => 0xBC
  | .lsrZp _ => 0x46 | .lsrAcc => 0x4A | .lsrAbs _ => 0x4E | .lsrZpx _ => 0x56 | .lsrAbx _ => 0x5E
  | .nop => 0xEA
  | .oraInx _ => 0x01 | .oraZp _ => 0x05 | .oraImm _ => 0x09 | .oraAbs _ => 0x0D | .oraIny _ => 0x11
  | .oraZpx _ => 0x15 | .oraAby _ => 0x19 | .oraAbx _ => 0x1D
  | .pha => 0x48
  | .php => 0x08
  | .pla => 0x68
  | .plp => 0x28
  | .rolZp _ => 0x26 | .rolAcc => 0x2A | .rolAbs _ => 0x2E | .rolZpx _ => 0x36 | .rolAbx _ => 0x3E
  | .rorZp _ => 0x66 | .rorAcc => 0x6A | .rorAbs _ => 0x6E | .rorZpx _ => 0x76 | .rorAbx _ => 0x7E
  | .rti => 0x40
  | .rts => 0x60
  | .sbcInx _ => 0xE1 | .sbcZp _ => 0xE5 | .sbcImm _ => 0xE9 | .sbcAbs _ => 0xED | .sbcIny _ => 0xF1
  | .sbcZpx _ => 0xF5 | .sbcAby _ => 0xF9 | .sbcAbx _ => 0xFD
  | .sec => 0x38
  | .sed => 0xF8
  | .sei => 0x78
  | .staInx _ => 0x81 | .staZp _ => 0x85 | .staAbs _ => 0x8D | .staIny _ => 0x91 | .staZpx _ => 0x95
  | .staAby _ => 0x99 | .staAbx _ => 0x9D
  | .stxZp _ => 0x86 | .stxAbs _ => 0x8E | .stxZpy _ => 0x96
  | .styZp _ => 0x84 | .styAbs _ => 0x8C | .styZpx _ => 0x94
  | .tax => 0xAA
  | .tay => 0xA8
  | .tsx => 0xBA
  | .txa => 0x8A
  | .txs => 0x9A
  | .tya => 0x98

/-- The bytes of an instruction: the opcode byte, then the operand bytes (R71, R88). -/
def encode (i : Instr) : List Byte := i.opcode :: i.operand.bytes

end Sys2Proof
end

