-- ==== Sys2Proof/Machine/State.lean ====
section
/-!
DEFINITION. The state of the machine as plain data (spec/10_state.md), the reasons a step can stop, and the state
after reset. INVENTORY.md's '## State' lists every field with its rule and its reset value.
-/

namespace Sys2Proof.Machine

/-- The six stored flags of P (R16, R17). Bits 5 and 4 of the status byte are not state (R18). -/
structure Flags where
  n : Bool
  v : Bool
  d : Bool
  i : Bool
  z : Bool
  c : Bool
deriving DecidableEq, Repr

/-- The levels of the input pins (R25 to R29, R60). Every pin is active low, so the fields say "is low". -/
structure Pins where
  irqLow : Bool
  nmiLow : Bool
  soLow : Bool
  rdyLow : Bool
  resLow : Bool
  dbeLow : Bool
deriving DecidableEq, Repr

/-- Every line at its inactive level. -/
def Pins.inactive : Pins := ⟨false, false, false, false, false, false⟩

/-- The edges inside the present step: a negative edge on NMI (R246), on S.O. (R27), on RES (R273). -/
structure Edges where
  nmi : Bool
  so : Bool
  res : Bool
deriving DecidableEq, Repr

/-- No edge inside the step. -/
def Edges.quiet : Edges := ⟨false, false, false⟩

/-- What happens just before one bus cycle of the core, inside a step: RDY is low for `waits` clock cycles, in which the
core repeats that read cycle (R57, R294), and another bus master writes the bytes `dma` (R47, R54, R59). -/
structure Gap where
  waits : Nat
  dma : List Host.Cell
deriving DecidableEq, Repr

/-- What the environment does at one step: the levels the pins take before it, the bytes another bus master has written
just before it (R54, R59), the edges that fall inside it, and the gaps between its bus cycles, the first cycle first. -/
structure Inputs where
  pins : Pins
  edges : Edges
  dma : List Host.Cell
  gaps : List Gap
deriving DecidableEq, Repr

/-- What a bus cycle is for (R61, R62, R293). `plain` marks the operand access of a plain load or store: zero page
or absolute mode, not read-modify-write (R61). -/
inductive CycleKind where
  /-- The fetch of an opcode byte; SYNC is high (R30). -/
  | opcode
  /-- The fetch of a second or third byte. -/
  | operand
  /-- A byte of a pointer in memory. -/
  | pointer
  /-- The read of an operand. -/
  | read (plain : Bool)
  /-- The write of a result or of a register. -/
  | write (plain : Bool)
  /-- A read whose byte is discarded: the extra cycles of R293. -/
  | discard
  /-- A pull. -/
  | pull
  /-- A push. -/
  | push
  /-- A byte of a vector. -/
  | vector
  /-- The opcode fetch the core repeats while RDY holds it between two instructions (R57, R59). -/
  | held
  /-- A write cycle that comes after RES fell and is inhibited (R29, R273); `plain` as for the write it would be. -/
  | inhibited (plain : Bool)
deriving DecidableEq, Repr

/-- One clock cycle on the bus (R42): what it is for, the bus address, and the byte: in a read cycle the one on the data
lines, in a write cycle the one the core writes. Where the core does not drive the lines in a write cycle, a 6512 with DBE
low (R60) or a write that RES inhibits (R29), the spec does not say what they show, and the entry keeps the core's byte
(DESIGN CHOICE, unsafe for a claim about the data lines in such a cycle; log 36). -/
structure BusCycle where
  kind : CycleKind
  addr : Nat
  byte : Byte
deriving DecidableEq, Repr

/-- Memory: the bytes that differ from what an unlisted address reads as, by rising bus address. -/
abbrev Memory := List Host.Cell

/-- The machine. `a x y sp pc p nmiPending heldI mem` are the core's and memory's (R10, R238, R45); `resetDue` says that
RES has been low and the reset sequence has not run yet (R270); `pins edges gaps script` are the environment's inputs
(R25 to R29, R47, R57); `cfg` is the configuration, which no step writes; `clock` and `bus` are the model's own: the
clock cycles since reset, and the bus cycles of the present step, newest first. -/
structure State where
  a : Byte
  x : Byte
  y : Byte
  sp : Byte
  pc : Word
  p : Flags
  nmiPending : Bool
  heldI : Option Bool
  resetDue : Bool
  mem : Memory
  pins : Pins
  edges : Edges
  gaps : List Gap
  script : List Inputs
  cfg : Config
  clock : Nat
  bus : List BusCycle
deriving DecidableEq, Repr

/-- Why a step stops with a fault: never. "No instruction raises a synchronous exception" (R247): there is no
illegal-instruction, address, alignment, bus, protection, arithmetic or stack fault, so the type has no constructor
(safe: nothing can end in one). -/
inductive Fault where
deriving DecidableEq, Repr

/-- Why a step is refused. Each is the model's own stop, not an event of the hardware. -/
inductive Refusal where
  /-- Raised by `exec` for an instruction that has no meaning in this model (none is left); safe. -/
  | notModelled (mnemonic : String)
  /-- Raised by the fetch for one of the 105 undefined opcode bytes (R89, D2: refuse); safe. -/
  | undefinedOpcode (op : Byte)
  /-- Raised by JMP (indirect) when the pointer's low byte is $FF and JMP_IND_WRAP = refuse (R181, D7); safe. -/
  | jumpPointerAtPageEnd (ptr : Word)
  /-- Raised at the end of an instruction or sequence that touched a device other than by a plain load or store
  while BUS_EXACT = false (R61, D20: "must refuse"); safe. -/
  | deviceNeedsBusExact
deriving DecidableEq, Repr

/-- The state at the moment the first instruction after reset is about to be fetched (R31). I = 1, nmi_pending = 0
and PC from the reset vector are the spec's; the vector bytes of a memory that lists nothing are $00. A, X, Y = $00,
S = $FD and the other flags = 0 are DESIGN CHOICE, unsafe: the spec leaves them unspecified (log 2). The lines are
inactive, the configuration is the 6502's with the spec's defaults (log 4, log 6). -/
def State.reset : State where
  a := 0x00
  x := 0x00
  y := 0x00
  sp := 0xFD
  pc := 0x0000
  p := ⟨false, false, false, true, false, false⟩
  nmiPending := false
  heldI := none
  resetDue := false
  mem := []
  pins := .inactive
  edges := .quiet
  gaps := []
  script := []
  cfg := .default6502
  clock := 0
  bus := []

end Sys2Proof.Machine
end

