-- ==== Sys2Proof/Machine/Flags.lean ====
section
/-!
DEFINITION. The status byte and every flag computation (spec/10_state.md R17 to R24, spec/41_arithmetic.md R120 to
R129, spec/42_logic_shift.md R150 to R158).
-/

namespace Sys2Proof.Machine

/-- One flag as a number, 0 or 1. -/
def bitVal (b : Bool) : Nat := if b then 1 else 0

/-- PByte(b), the byte PHP, BRK, IRQ and NMI push; `b` goes to bit 4, bit 5 is 1 (R18). -/
def Flags.toByte (p : Flags) (b : Bool) : Byte :=
  BitVec.ofNat 8 (bitVal p.n * 128 + bitVal p.v * 64 + 32 + bitVal b * 16 + bitVal p.d * 8 + bitVal p.i * 4 + bitVal p.z * 2 + bitVal p.c)

/-- SetP(v): the six flags from a pulled byte; bits 5 and 4 are ignored (R18). -/
def Flags.ofByte (v : Byte) : Flags where
  n := v.getLsbD 7
  v := v.getLsbD 6
  d := v.getLsbD 3
  i := v.getLsbD 2
  z := v.getLsbD 1
  c := v.getLsbD 0

/-- SetNZ(v) (R20). -/
def Flags.setNZ (p : Flags) (v : Byte) : Flags :=
  { p with n := v.getLsbD 7, z := decide (v = 0) }

/-- An 8-bit result together with P after it. -/
abbrev ByteAndFlags := Byte × Flags

/-! ## Binary addition and subtraction -/

/-- Binary ADC: the sum, C the carry out of bit 7, V the signed overflow, N and Z of the sum (R121). -/
def adcBinary (a m : Byte) (p : Flags) : ByteAndFlags :=
  let sum := a.toNat + m.toNat + bitVal p.c
  let res : Byte := BitVec.ofNat 8 sum
  (res, { p.setNZ res with c := decide (255 < sum), v := ((a ^^^ res) &&& (m ^^^ res)).getLsbD 7 })

/-- Binary SBC: binary ADC of A and the one's complement of M, C being an inverted borrow (R124, R120.5). -/
def sbcBinary (a m : Byte) (p : Flags) : ByteAndFlags :=
  adcBinary a (m ^^^ 0xFF) p

/-! ## Decimal addition and subtraction -/

/-- A byte is valid BCD when both of its nibbles are 0 to 9 (R122). -/
def validBcd (b : Byte) : Bool := decide (b.toNat / 16 ≤ 9) && decide (b.toNat % 16 ≤ 9)

/-- dec(b) = 10*b[7:4] + b[3:0] (R122). -/
def ofBcd (b : Byte) : Nat := 10 * (b.toNat / 16) + b.toNat % 16

/-- bcd(n) = (n div 10)*16 + (n mod 10) (R122). -/
def toBcd (n : Nat) : Byte := BitVec.ofNat 8 (n / 10 * 16 + n % 10)

/-- sext_8 (00_scope.md section 6): the signed value of a byte given as a number below 256. -/
def sext8 (n : Nat) : Int := if n < 128 then n else (n : Int) - 256

/-- P after a decimal operation under DECIMAL_FLAGS = draw: N, V and Z are free values (R122, R125, U2), C is given;
D and I stay. -/
def drawDecimalFlags (clock : Nat) (a m : Byte) (p : Flags) (c : Bool) : Flags :=
  { p with n := Config.decimalN clock a m p.c, v := Config.decimalV clock a m p.c,
           z := Config.decimalZ clock a m p.c, c := c }

/-- Decimal ADC under DECIMAL_FLAGS = draw: the normative part for valid BCD operands; A and C free values for any
other (R122, U2, U3). -/
def adcDecimalDraw (clock : Nat) (a m : Byte) (p : Flags) : ByteAndFlags :=
  if validBcd a && validBcd m then
    let t := ofBcd a + ofBcd m + bitVal p.c
    (toBcd (t % 100), drawDecimalFlags clock a m p (decide (99 < t)))
  else
    (Config.decimalA clock a m p.c, drawDecimalFlags clock a m p (Config.decimalC clock a m p.c))

/-- Decimal SBC under DECIMAL_FLAGS = draw (R125, U2, U3). C for operands that are not valid BCD is a free value:
U3, D8 and R282 say so, R125's own sentence names only A (DEDUCED, safe; log 13). -/
def sbcDecimalDraw (clock : Nat) (a m : Byte) (p : Flags) : ByteAndFlags :=
  if validBcd a && validBcd m then
    let t : Int := (ofBcd a : Int) - ofBcd m - (1 - bitVal p.c : Nat)
    (toBcd (t % 100).toNat, drawDecimalFlags clock a m p (decide (0 ≤ t)))
  else
    (Config.decimalA clock a m p.c, drawDecimalFlags clock a m p (Config.decimalC clock a m p.c))

/-- Decimal ADC under DECIMAL_FLAGS = nmos_exact: R122's algorithm, line by line. -/
def adcDecimalExact (a m : Byte) (p : Flags) : ByteAndFlags :=
  let c := bitVal p.c
  let al0 := a.toNat % 16 + m.toNat % 16 + c
  let al := if 0x0A ≤ al0 then (al0 + 0x06) % 16 + 0x10 else al0
  let aHi := a.toNat / 16 * 16
  let mHi := m.toNat / 16 * 16
  let s := aHi + mHi + al
  let ss : Int := sext8 aHi + sext8 mHi + al
  let s' := if 0xA0 ≤ s then s + 0x60 else s
  (BitVec.ofNat 8 s',
    { p with n := s.testBit 7, v := decide (ss < -128) || decide (127 < ss), c := decide (0x100 ≤ s'),
             z := decide ((a.toNat + m.toNat + c) % 256 = 0) })

/-- Decimal SBC under DECIMAL_FLAGS = nmos_exact: the flags of the binary subtraction, A by R125's algorithm. -/
def sbcDecimalExact (a m : Byte) (p : Flags) : ByteAndFlags :=
  let al0 : Int := (a.toNat % 16 : Nat) - (m.toNat % 16 : Nat) + (bitVal p.c : Nat) - 1
  let al : Int := if al0 < 0 then (al0 - 0x06) % 16 - 0x10 else al0
  let s : Int := (a.toNat / 16 * 16 : Nat) - (m.toNat / 16 * 16 : Nat) + al
  let s' : Int := if s < 0 then s - 0x60 else s
  (BitVec.ofInt 8 s', (sbcBinary a m p).2)

/-- ADC: binary when D = 0 (R121), decimal when D = 1 (R122), by the parameter DECIMAL_FLAGS. -/
def adc (cfg : Config) (clock : Nat) (a m : Byte) (p : Flags) : ByteAndFlags :=
  if p.d then
    match cfg.decimalFlags with
    | .draw => adcDecimalDraw clock a m p
    | .nmosExact => adcDecimalExact a m p
  else adcBinary a m p

/-- SBC: binary when D = 0 (R124), decimal when D = 1 (R125), by the parameter DECIMAL_FLAGS. -/
def sbc (cfg : Config) (clock : Nat) (a m : Byte) (p : Flags) : ByteAndFlags :=
  if p.d then
    match cfg.decimalFlags with
    | .draw => sbcDecimalDraw clock a m p
    | .nmosExact => sbcDecimalExact a m p
  else sbcBinary a m p

/-! ## Compare, bit test, increment, shifts -/

/-- Compare(r, M): C and Z of the unsigned comparison, N of the difference; V is not written (R129). -/
def compareFlags (r m : Byte) (p : Flags) : Flags :=
  { p with c := decide (m.toNat ≤ r.toNat), z := decide (r = m), n := (r - m).getLsbD 7 }

/-- BIT: Z of A AND M, N and V the bits 7 and 6 of M (R152). -/
def bitTest (a m : Byte) (p : Flags) : Flags :=
  { p with z := decide (a &&& m = 0), n := m.getLsbD 7, v := m.getLsbD 6 }

/-- v + 1 mod 256 with N and Z (R133 to R135, R120.6). -/
def increment (v : Byte) (p : Flags) : ByteAndFlags := (v + 1, p.setNZ (v + 1))

/-- v - 1 mod 256 with N and Z (R130 to R132, R120.6). -/
def decrement (v : Byte) (p : Flags) : ByteAndFlags := (v - 1, p.setNZ (v - 1))

/-- ASL: bit 0 becomes 0, bit 7 goes to C (R155). -/
def shiftLeft (v : Byte) (p : Flags) : ByteAndFlags :=
  let res : Byte := BitVec.ofNat 8 (v.toNat * 2)
  (res, { p.setNZ res with c := v.getLsbD 7 })

/-- LSR: bit 7 becomes 0, bit 0 goes to C (R156). -/
def shiftRight (v : Byte) (p : Flags) : ByteAndFlags :=
  let res : Byte := BitVec.ofNat 8 (v.toNat / 2)
  (res, { p.setNZ res with c := v.getLsbD 0 })

/-- ROL: the old C enters bit 0, bit 7 goes to C (R157). -/
def rotateLeft (v : Byte) (p : Flags) : ByteAndFlags :=
  let res : Byte := BitVec.ofNat 8 (v.toNat * 2 % 256 + bitVal p.c)
  (res, { p.setNZ res with c := v.getLsbD 7 })

/-- ROR: the old C enters bit 7, bit 0 goes to C (R158). -/
def rotateRight (v : Byte) (p : Flags) : ByteAndFlags :=
  let res : Byte := BitVec.ofNat 8 (v.toNat / 2 + bitVal p.c * 128)
  (res, { p.setNZ res with c := v.getLsbD 0 })

end Sys2Proof.Machine
end

