-- ==== Sys2Proof/Machine/Ops.lean ====
section
/-!
DEFINITION. The shared operations: memory, the bus (spec/20_memory.md), the stack (R15), the discarded bus cycles
(R293), taking an interrupt (spec/60_exceptions.md R240 to R242, R246), the return from one (R213, R244), the reset
sequence (R270), and how a meaning ends (R61).
-/

namespace Sys2Proof.Machine

/-- How a meaning, an interrupt entry or a step ends. -/
abbrev Result := Host.Outcome State Fault Refusal

/-! ## Memory -/

/-- What a byte of memory that nothing has written reads as: $00. The spec leaves the content of ram at power-on
unspecified (R52); spec/95_test_vectors.md takes $00 (DESIGN CHOICE, unsafe; log 3). -/
def Memory.unlisted : Byte := 0x00

/-- The byte at a bus address. -/
def Memory.read (m : Memory) (a : Nat) : Byte :=
  match m with
  | [] => Memory.unlisted
  | (k, v) :: rest => if k = a then v else Memory.read rest a

/-- A cell put before the first cell of a higher address. -/
def Memory.insert (a : Nat) (v : Byte) (m : Memory) : Memory :=
  match m with
  | [] => [(a, v)]
  | (k, w) :: rest => if a < k then (a, v) :: (k, w) :: rest else (k, w) :: Memory.insert a v rest

/-- The memory with `v` at bus address `a`, in canonical form: writing what an unlisted address reads as removes
the entry. -/
def Memory.write (m : Memory) (a : Nat) (v : Byte) : Memory :=
  let others := m.filter (fun cell => decide (cell.1 ≠ a))
  if v = Memory.unlisted then others else Memory.insert a v others

/-- The canonical form from a lowest admitted address on: addresses strictly rising, inside the address space of
65,536 bytes (R41), no entry equal to what an unlisted address reads as. -/
def Memory.wfFrom (low : Nat) (m : Memory) : Bool :=
  match m with
  | [] => true
  | (k, v) :: rest =>
    decide (low ≤ k) && decide (k < 65536) && decide (v ≠ Memory.unlisted) && Memory.wfFrom (k + 1) rest

/-- The canonical form of a memory. -/
def Memory.wf (m : Memory) : Bool := Memory.wfFrom 0 m

/-- The bytes another bus master writes, in order (R54, R59): ram takes them at the bus address, and no other region
holds anything of them (R46, R52). -/
def applyDma (cfg : Config) (cells : List Host.Cell) (m : Memory) : Memory :=
  cells.foldl
    (fun m cell =>
      let b := cell.1 % 2 ^ cfg.member.addrPins
      if decide (cfg.kindAt b = .ram) then m.write b cell.2 else m) m

/-! ## The bus -/

/-- A plain load or store cycle, the only ones that may touch a device while BUS_EXACT = false (R61). -/
def CycleKind.plain : CycleKind → Bool
  | .read plain => plain
  | .write plain => plain
  | .inhibited plain => plain
  | .opcode | .operand | .pointer | .discard | .pull | .push | .vector | .held => false

/-- The R/W line is low in a write cycle (R46). -/
def CycleKind.isWrite : CycleKind → Bool
  | .write _ | .push => true
  | .read _ | .opcode | .operand | .pointer | .discard | .pull | .vector | .held | .inhibited _ => false

/-- SYNC is high while the core fetches an opcode, also while RDY holds it there (R30, R59). -/
def CycleKind.sync : CycleKind → Bool
  | .opcode | .held => true
  | .read _ | .write _ | .operand | .pointer | .discard | .pull | .push | .vector | .inhibited _ => false

/-- The byte on the data lines when the core reads `a` in the present cycle (R45, R52): memory's byte for ram and
rom, a free value for a device or an unmapped address. -/
def State.dataAt (s : State) (a : Word) : Byte :=
  let b := s.cfg.busAddr a
  match s.cfg.kindAt b with
  | .ram | .rom => s.mem.read b
  | .device => Config.deviceByte s.clock b
  | .unmapped => Config.openBusByte s.clock b

/-- One clock cycle passes with `cycle` on the bus (R42). -/
def State.tick (s : State) (cycle : BusCycle) : State :=
  { s with clock := s.clock + 1, bus := cycle :: s.bus }

/-! ### Between two cycles

The gaps of a step belong to its bus cycles in order. A read cycle takes the next one. A write cycle takes one only where
the platform shares every cycle; otherwise the gap stays for the next read: "If Ready is low during a write cycle, it is
ignored until the following read operation" (R58, R294). -/

/-- The clock cycles for which RDY halts the core at its next read cycle, where the member has the pin (R57, R58). -/
def State.waits (s : State) : Nat :=
  match s.gaps with
  | [] => 0
  | gap :: _ => if s.cfg.member.hasRdy then gap.waits else 0

/-- Memory after the bytes of the next gap, if another bus master is let on the bus there (R47, R54, R59). -/
def State.memShared (s : State) (letOn : Bool) : Memory :=
  match s.gaps with
  | [] => s.mem
  | gap :: _ => if letOn then applyDma s.cfg gap.dma s.mem else s.mem

/-- The read cycles a halted core repeats: the address held, R/W high (R57). The spec does not say what the data lines show
in them when another bus master writes in the same halt: each shows the byte there before that master's writes, which all
fall after the repeated cycles and before the read that ends the halt (DESIGN CHOICE, unsafe for a claim about the data
lines in a repeated cycle; log 35). -/
def State.repeated (s : State) (kind : CycleKind) (a : Word) (n : Nat) : List BusCycle :=
  match n with
  | 0 => []
  | n + 1 => ⟨kind, s.cfg.busAddr a, { s with clock := s.clock + n }.dataAt a⟩ :: s.repeated kind a n

/-- What happens before a read cycle: RDY halts the core as long as the gap says, and in a halt, or before every cycle
where the platform shares all of them, another bus master writes (R47, R54, R57, R59). The writes of a halt all come after
its repeated cycles (DESIGN CHOICE; log 35). -/
def State.beforeRead (s : State) (kind : CycleKind) (a : Word) : State :=
  { s with
    mem := s.memShared (decide (0 < s.waits) || decide (s.cfg.sharing = .everyCycle))
    gaps := s.gaps.tail
    clock := s.clock + s.waits
    bus := s.repeated kind a s.waits ++ s.bus }

/-- What happens before a write cycle: never a halt (R58); another bus master writes only where the platform shares
every cycle (R47). -/
def State.beforeWrite (s : State) : State :=
  { s with
    mem := s.memShared (decide (s.cfg.sharing = .everyCycle))
    gaps := if s.cfg.sharing = .everyCycle then s.gaps.tail else s.gaps }

/-! ### The cycles -/

/-- MemRead (R45): one read cycle, after what happens before it; it delivers "whatever is on the bus when RDY is
released". -/
def busRead (kind : CycleKind) (a : Word) (s : State) : Byte × State :=
  let s1 := s.beforeRead kind a
  (s1.dataAt a, s1.tick ⟨kind, s1.cfg.busAddr a, s1.dataAt a⟩)

/-- A read cycle whose byte is discarded (R293). -/
def discard (a : Word) (s : State) : State := (busRead .discard a s).2

/-- The data bus drivers of a 6512 whose DBE is low are off (R60). -/
def State.driversOff (s : State) : Bool := s.cfg.member.hasDbe && s.pins.dbeLow

/-- A write cycle at `a` is inhibited, because RES has fallen before it (R29, R273): in a step inside which RES falls a
free value decides it for each write (U13). -/
def State.inhibits (s : State) (a : Word) : Bool :=
  s.edges.res && !Config.abandonedWriteLands s.clock (s.cfg.busAddr a)

/-- Memory after the core writes `v` at `a` (R46): ram takes the byte; rom, unmapped and device addresses hold
nothing of it; a write with the data bus drivers off is lost (R60; DESIGN CHOICE, log 20), and so is an inhibited one
(R29). -/
def State.memAfterWrite (s : State) (a : Word) (v : Byte) : Memory :=
  match s.cfg.kindAt (s.cfg.busAddr a) with
  | .ram => if s.driversOff || s.inhibits a then s.mem else s.mem.write (s.cfg.busAddr a) v
  | .rom | .device | .unmapped => s.mem

/-- The kind of a write cycle as it appears on the bus: R/W stays high in one that RES inhibits (R29, R273). -/
def State.writeKind (s : State) (kind : CycleKind) (a : Word) : CycleKind :=
  if s.inhibits a then .inhibited kind.plain else kind

/-- MemWrite (R46): one write cycle, after what happens before it. A device receives the byte by the cycle itself, which
stays on the record, unless RES inhibits it. The record keeps the core's byte also where the core does not drive the data
lines (R60, R29; DESIGN CHOICE, log 36). -/
def busWrite (kind : CycleKind) (a : Word) (v : Byte) (s : State) : State :=
  let s1 := s.beforeWrite
  { s1 with mem := s1.memAfterWrite a v }.tick ⟨s1.writeKind kind a, s1.cfg.busAddr a, v⟩

/-- Some cycle of this step touched a device other than by a plain load or store while BUS_EXACT = false (R61). -/
def State.inexactDevice (s : State) : Bool :=
  !s.cfg.busExact && s.bus.any (fun cycle => !cycle.kind.plain && decide (s.cfg.kindAt cycle.addr = .device))

/-- The end of an instruction or sequence: the next state, or the refusal that R61 asks for. -/
def finish (s : State) : Result :=
  if s.inexactDevice then .refused .deviceNeedsBusExact else .next s

/-! ## The program counter and the stack -/

/-- PC <- (PC + n) mod 65536 (R13). -/
def advance (n : Nat) (s : State) : State := { s with pc := s.pc + BitVec.ofNat 16 n }

/-- The stack location that a value of S addresses: $0100 + S (R15). -/
def stackAddr (sp : Byte) : Word := word 0x01 sp

/-- Push(v) (R15): the write at $0100 + S, then S one lower modulo 256. -/
def push (v : Byte) (s : State) : State :=
  let s1 := busWrite .push (stackAddr s.sp) v s
  { s1 with sp := s1.sp - 1 }

/-- Pull() (R15): S one higher modulo 256, then the read at $0100 + S. -/
def pull (s : State) : Byte × State :=
  busRead .pull (stackAddr (s.sp + 1)) { s with sp := s.sp + 1 }

/-- A 16-bit address pushed high byte first (R40, R183, R241). -/
def pushWord (w : Word) (s : State) : State := push (loByte w) (push (hiByte w) s)

/-- Two pulls, the low byte first (R184, R213). -/
def pullWord (s : State) : Word × State :=
  let (lo, s1) := pull s
  let (hi, s2) := pull s1
  (word hi lo, s2)

/-! ## Interrupts: entry and return -/

/-- $FFFA, the NMI vector (R50). -/
def nmiVector : Word := 0xFFFA

/-- $FFFC, the reset vector (R50). -/
def resetVector : Word := 0xFFFC

/-- $FFFE, the vector IRQ and BRK share (R50). -/
def irqVector : Word := 0xFFFE

/-- PC <- word(MemRead(vector + 1), MemRead(vector)), the low byte read first (R241, R243). -/
def loadVector (vector : Word) (s : State) : State :=
  let (lo, s1) := busRead .vector vector s
  let (hi, s2) := busRead .vector (vector + 1) s1
  { s2 with pc := word hi lo }

/-- An NMI edge that falls inside a BRK or an IRQ entry may divert it to the NMI vector (R246, U8): both outcomes
are admitted, a free value chooses. -/
def State.diverted (s : State) : Bool :=
  s.edges.nmi && s.cfg.member.hasNmi && Config.nmiDiverts s.clock

/-- The vector at the end of a sequence: `vector`, or the NMI vector when an edge diverts a sequence through
$FFFE; the diverted sequence has served the edge, so the latch is clear and the line low (R246, R25). -/
def fetchVector (vector : Word) (s : State) : State :=
  if decide (vector = irqVector) && s.diverted then
    loadVector nmiVector
      { s with nmiPending := false, edges := { s.edges with nmi := false }, pins := { s.pins with nmiLow := true } }
  else loadVector vector s

/-- TAKING AN INTERRUPT OR A BREAK, shared by BRK, IRQ and NMI (R212, R241): push the return address high byte
first, push P with bit 4 = `brk` (the pushed I is the value before entry), set I, load PC from the vector. Nothing
else changes: A, X, Y, N, V, D, Z, C keep their values. -/
def takeException (ret : Word) (brk : Bool) (vector : Word) (s : State) : State :=
  let s1 := pushWord ret s
  let s2 := push (s1.p.toByte brk) s1
  fetchVector vector { s2 with p := { s2.p with i := true }, heldI := none }

/-- The two discarded reads at PC with which an interrupt entry begins; SYNC is high in the first (R293). -/
def entryReads (s : State) : State := discard s.pc (busRead .opcode s.pc s).2

/-- NMI entry (R240): the latch is cleared, then the interrupt sequence through $FFFA. -/
def takeNmi (s : State) : State :=
  let s1 := entryReads { s with nmiPending := false }
  takeException s1.pc false nmiVector s1

/-- IRQ entry (R242): the interrupt sequence through $FFFE; the line is not changed by the core. -/
def takeIrq (s : State) : State :=
  let s1 := entryReads s
  takeException s1.pc false irqVector s1

/-- THE RETURN FROM AN INTERRUPT (R213, R244): pull P, PC low, PC high; nothing is added. -/
def returnFromInterrupt (s : State) : State :=
  let (b, s1) := pull s
  let (ret, s2) := pullWord { s1 with p := Flags.ofByte b }
  { s2 with pc := ret }

/-! ## Reset -/

/-- The reset sequence (R270, R274): the cycles of an interrupt entry with the three pushes turned into reads, I set,
the NMI latch cleared, PC from $FFFC/$FFFD, every other register and flag a free value (R31, D9); no write. An NMI edge
inside these cycles, RES being high, is a point the spec leaves open (R25 sets the latch, R31 and D9 give 0 after reset):
a free value says whether the latch is set after it (DESIGN CHOICE, safe; log 31). -/
def resetSequence (s : State) : State :=
  let draw := Config.resetDraw s.clock
  let nmiEdge := s.cfg.member.hasNmi && s.edges.nmi
  let s1 := entryReads s
  let s2 := discard (stackAddr (s.sp - 2)) (discard (stackAddr (s.sp - 1)) (discard (stackAddr s.sp) s1))
  loadVector resetVector
    { s2 with a := draw.a, x := draw.x, y := draw.y, sp := draw.sp,
              p := ⟨draw.n, draw.v, draw.d, true, draw.z, draw.c⟩, heldI := none, resetDue := false
              nmiPending := nmiEdge && Config.resetHearsNmi s.clock
              edges := { s2.edges with nmi := false }
              pins := { s2.pins with nmiLow := s2.pins.nmiLow || s2.edges.nmi } }

end Sys2Proof.Machine
end

