-- ==== Sys2Proof/Machine/Operands.lean ====
section
/-!
DEFINITION. Effective addresses and operands in every addressing mode (spec/30_encoding.md R73 to R85), with the bus
cycles of R293, and the shapes of instruction built on them: read, store, read-modify-write, accumulator, implied.
-/

namespace Sys2Proof.Machine

/-! ## Address arithmetic -/

/-- A zero-page address, "assuming a zero high address byte" (R77). -/
def zeroPage (z : Byte) : Word := word 0x00 z

/-- EA = (base + index) mod 65536, the index an unsigned byte (R79, R80, R82). -/
def indexed (base : Word) (idx : Byte) : Word := base + BitVec.ofNat 16 idx.toNat

/-- The address before the carry reaches the high byte: BAH:(BAL+idx) (R293). -/
def uncarried (base : Word) (idx : Byte) : Word := word (hiByte base) (loByte base + idx)

/-- PageCross: the high bytes of two addresses differ (R79, R83, R84). -/
def pageCross (base ea : Word) : Bool := decide (hiByte base ≠ hiByte ea)

/-- sext_8 of a branch offset, as a 16-bit addend (R72, R84). -/
def signExtend8 (off : Byte) : Word :=
  BitVec.ofNat 16 (if off.toNat < 128 then off.toNat else off.toNat + 65280)

/-- The address of the next instruction after a branch: PC + 2 (R170). -/
def branchNext (pc : Word) : Word := pc + 2

/-- The target of a taken branch: (PC + 2 + sext_8(off)) mod 65536 (R84, R170, C5). -/
def branchTarget (pc : Word) (off : Byte) : Word := branchNext pc + signExtend8 off

/-- NextOf(ptr), where JMP (indirect) finds its high byte; none is the refusal (R85, R181, D7). -/
def nextOfPointer (wrap : JmpIndWrap) (ptr : Word) : Option Word :=
  if loByte ptr = 0xFF then
    match wrap with
    | .pageWrap => some (word (hiByte ptr) 0x00)
    | .carry => some (ptr + 1)
    | .refuse => none
  else some (ptr + 1)

/-! ## Effective addresses -/

/-- Whether the operand access of an instruction is a read only, or a store or a read-modify-write, which in the
indexed modes always spend the cycle of the page correction (R291, R293). -/
inductive Use where
  | load
  | store
deriving DecidableEq, Repr

/-- A pointer in page zero, low byte first; the second byte's address stays in page zero (R81, R82). -/
def zeroPagePointer (z : Byte) (s : State) : Word × State :=
  let (lo, s1) := busRead .pointer (zeroPage z) s
  let (hi, s2) := busRead .pointer (zeroPage (z + 1)) s1
  (word hi lo, s2)

/-- An indexed address with its discarded read at the uncarried address: always for a store, for a load only when
the page is crossed (R291, R293). -/
def resolveIndexed (use : Use) (base : Word) (idx : Byte) (s : State) : Word × State :=
  let ea := indexed base idx
  if decide (use = .store) || pageCross base ea then (ea, discard (uncarried base idx) s) else (ea, s)

/-- The effective address of a memory operand, with the pointer reads and discarded reads of its mode (R76 to R82,
R293). -/
def resolve (use : Use) (m : Addr) (s : State) : Word × State :=
  match m with
  | .zeroPage z => (zeroPage z, s)
  | .zeroPageX z => (zeroPage (z + s.x), discard (zeroPage z) s)
  | .zeroPageY z => (zeroPage (z + s.y), discard (zeroPage z) s)
  | .absolute w => (w, s)
  | .absoluteX base => resolveIndexed use base s.x s
  | .absoluteY base => resolveIndexed use base s.y s
  | .indirectX z => zeroPagePointer (z + s.x) (discard (zeroPage z) s)
  | .indirectY z =>
    let (base, s1) := zeroPagePointer z s
    resolveIndexed use base s.y s1

/-- Zero page and absolute mode, in which a load or store is plain (R61). -/
def isPlainMode (m : Addr) : Bool :=
  match m with
  | .zeroPage _ | .absolute _ => true
  | .zeroPageX _ | .zeroPageY _ | .absoluteX _ | .absoluteY _ | .indirectX _ | .indirectY _ => false

/-! ## Operands -/

/-- M = MemRead(EA, 1) (00_scope.md section 6, R100.2). -/
def loadFrom (m : Addr) (s : State) : Byte × State :=
  let (ea, s1) := resolve .load m s
  busRead (.read (isPlainMode m)) ea s1

/-- MemWrite(EA, 1, v) of a store instruction (R104 to R106). -/
def storeTo (m : Addr) (v : Byte) (s : State) : State :=
  let (ea, s1) := resolve .store m s
  busWrite (.write (isPlainMode m)) ea v s1

/-- The operand of a reading instruction: the immediate byte (already fetched, R75) or a memory operand. -/
inductive Source where
  | imm (v : Byte)
  | mem (m : Addr)
deriving DecidableEq, Repr

/-- M and the state after it is read. -/
def readSource (src : Source) (s : State) : Byte × State :=
  match src with
  | .imm v => (v, s)
  | .mem m => loadFrom m s

/-- The length in bytes of an instruction with this source (R70). -/
def Source.length (src : Source) : Nat :=
  match src with
  | .imm _ => 2
  | .mem m => (Operand.memory m).length

/-! ## The shapes of instruction -/

/-- A reading instruction: its operand is read, `effect` takes it, PC moves past it (R100, R293). -/
def readInstr (src : Source) (effect : Byte → State → State) (s : State) : Result :=
  let (m, s1) := readSource src s
  finish (advance src.length (effect m s1))

/-- A store of the byte `v` (R104 to R106). -/
def storeInstr (m : Addr) (v : Byte) (s : State) : Result :=
  finish (advance (Operand.memory m).length (storeTo m v s))

/-- A read-modify-write instruction: the operand read, the old value written back, the new value written, the flags
from `f` (R159, R293). -/
def rmwInstr (m : Addr) (f : Byte → Flags → ByteAndFlags) (s : State) : Result :=
  let (ea, s1) := resolve .store m s
  let (v, s2) := busRead (.read false) ea s1
  let (res, p) := f v s2.p
  let s3 := busWrite (.write false) ea res (busWrite (.write false) ea v s2)
  finish (advance (Operand.memory m).length { s3 with p := p })

/-- A one-byte instruction: the byte after the opcode is read and discarded, `effect` happens, PC moves by one
(R73, R74, R293). -/
def impliedInstr (effect : State → State) (s : State) : Result :=
  finish (advance 1 (effect (discard (s.pc + 1) s)))

/-- A shift or rotate of the accumulator (R74, R155 to R158). -/
def accumulatorInstr (f : Byte → Flags → ByteAndFlags) (s : State) : Result :=
  impliedInstr (fun s1 => { s1 with a := (f s1.a s1.p).1, p := (f s1.a s1.p).2 }) s

/-- A conditional branch (R170): PC becomes the target or the next instruction; a taken branch spends one discarded
read at the next instruction and one more, with the old high byte, when the target is in another page (R293). -/
def branchInstr (taken : Bool) (off : Byte) (s : State) : Result :=
  let next := branchNext s.pc
  let target := branchTarget s.pc off
  if taken then
    let s1 := discard next s
    let s2 := if pageCross next target then discard (word (hiByte next) (loByte target)) s1 else s1
    finish { s2 with pc := target }
  else finish { s with pc := next }

end Sys2Proof.Machine
end

