-- ==== Sys2Proof/Machine/Arithmetic.lean ====
section
/-!
DEFINITION. Arithmetic, compare, increment and decrement (spec/41_arithmetic.md R120 to R135): the effect of each
mnemonic once, then one meaning for each row of the opcode table.
-/

namespace Sys2Proof.Machine

/-- ADC, binary or decimal by D (R121, R122). -/
def addWithCarry (m : Byte) (s : State) : State :=
  let r := adc s.cfg s.clock s.a m s.p
  { s with a := r.1, p := r.2 }

/-- SBC, binary or decimal by D (R124, R125). -/
def subtractWithBorrow (m : Byte) (s : State) : State :=
  let r := sbc s.cfg s.clock s.a m s.p
  { s with a := r.1, p := r.2 }

/-- CMP: Compare(A, M) (R126, R129). -/
def compareA (m : Byte) (s : State) : State := { s with p := compareFlags s.a m s.p }

/-- CPX: Compare(X, M) (R127, R129). -/
def compareX (m : Byte) (s : State) : State := { s with p := compareFlags s.x m s.p }

/-- CPY: Compare(Y, M) (R128, R129). -/
def compareY (m : Byte) (s : State) : State := { s with p := compareFlags s.y m s.p }

/-- DEX (R131). -/
def dex (s : State) : State := { s with x := (decrement s.x s.p).1, p := (decrement s.x s.p).2 }

/-- DEY (R132). -/
def dey (s : State) : State := { s with y := (decrement s.y s.p).1, p := (decrement s.y s.p).2 }

/-- INX (R134). -/
def inx (s : State) : State := { s with x := (increment s.x s.p).1, p := (increment s.x s.p).2 }

/-- INY (R135). -/
def iny (s : State) : State := { s with y := (increment s.y s.p).1, p := (increment s.y s.p).2 }

/-- ADC (indirect,X) ($61): R121, R81. -/
def execAdcInx (zp : Byte) (s : State) : Result := readInstr (.mem (.indirectX zp)) addWithCarry s

/-- ADC zero page ($65): R121, R77. -/
def execAdcZp (zp : Byte) (s : State) : Result := readInstr (.mem (.zeroPage zp)) addWithCarry s

/-- ADC immediate ($69): R121, R75. -/
def execAdcImm (v : Byte) (s : State) : Result := readInstr (.imm v) addWithCarry s

/-- ADC absolute ($6D): R121, R76. -/
def execAdcAbs (addr : Word) (s : State) : Result := readInstr (.mem (.absolute addr)) addWithCarry s

/-- ADC (indirect),Y ($71): R121, R82. -/
def execAdcIny (zp : Byte) (s : State) : Result := readInstr (.mem (.indirectY zp)) addWithCarry s

/-- ADC zero page,X ($75): R121, R78. -/
def execAdcZpx (zp : Byte) (s : State) : Result := readInstr (.mem (.zeroPageX zp)) addWithCarry s

/-- ADC absolute,Y ($79): R121, R80. -/
def execAdcAby (base : Word) (s : State) : Result := readInstr (.mem (.absoluteY base)) addWithCarry s

/-- ADC absolute,X ($7D): R121, R79. -/
def execAdcAbx (base : Word) (s : State) : Result := readInstr (.mem (.absoluteX base)) addWithCarry s

/-- CMP (indirect,X) ($C1): R126, R81. -/
def execCmpInx (zp : Byte) (s : State) : Result := readInstr (.mem (.indirectX zp)) compareA s

/-- CMP zero page ($C5): R126, R77. -/
def execCmpZp (zp : Byte) (s : State) : Result := readInstr (.mem (.zeroPage zp)) compareA s

/-- CMP immediate ($C9): R126, R75. -/
def execCmpImm (v : Byte) (s : State) : Result := readInstr (.imm v) compareA s

/-- CMP absolute ($CD): R126, R76. -/
def execCmpAbs (addr : Word) (s : State) : Result := readInstr (.mem (.absolute addr)) compareA s

/-- CMP (indirect),Y ($D1): R126, R82. -/
def execCmpIny (zp : Byte) (s : State) : Result := readInstr (.mem (.indirectY zp)) compareA s

/-- CMP zero page,X ($D5): R126, R78. -/
def execCmpZpx (zp : Byte) (s : State) : Result := readInstr (.mem (.zeroPageX zp)) compareA s

/-- CMP absolute,Y ($D9): R126, R80. -/
def execCmpAby (base : Word) (s : State) : Result := readInstr (.mem (.absoluteY base)) compareA s

/-- CMP absolute,X ($DD): R126, R79. -/
def execCmpAbx (base : Word) (s : State) : Result := readInstr (.mem (.absoluteX base)) compareA s

/-- CPX immediate ($E0): R127, R75. -/
def execCpxImm (v : Byte) (s : State) : Result := readInstr (.imm v) compareX s

/-- CPX zero page ($E4): R127, R77. -/
def execCpxZp (zp : Byte) (s : State) : Result := readInstr (.mem (.zeroPage zp)) compareX s

/-- CPX absolute ($EC): R127, R76. -/
def execCpxAbs (addr : Word) (s : State) : Result := readInstr (.mem (.absolute addr)) compareX s

/-- CPY immediate ($C0): R128, R75. -/
def execCpyImm (v : Byte) (s : State) : Result := readInstr (.imm v) compareY s

/-- CPY zero page ($C4): R128, R77. -/
def execCpyZp (zp : Byte) (s : State) : Result := readInstr (.mem (.zeroPage zp)) compareY s

/-- CPY absolute ($CC): R128, R76. -/
def execCpyAbs (addr : Word) (s : State) : Result := readInstr (.mem (.absolute addr)) compareY s

/-- DEC zero page ($C6): R130, R77. -/
def execDecZp (zp : Byte) (s : State) : Result := rmwInstr (.zeroPage zp) decrement s

/-- DEC absolute ($CE): R130, R76. -/
def execDecAbs (addr : Word) (s : State) : Result := rmwInstr (.absolute addr) decrement s

/-- DEC zero page,X ($D6): R130, R78. -/
def execDecZpx (zp : Byte) (s : State) : Result := rmwInstr (.zeroPageX zp) decrement s

/-- DEC absolute,X ($DE): R130, R79. -/
def execDecAbx (base : Word) (s : State) : Result := rmwInstr (.absoluteX base) decrement s

/-- DEX implied ($CA): R131, R73. -/
def execDex (s : State) : Result := impliedInstr dex s

/-- DEY implied ($88): R132, R73. -/
def execDey (s : State) : Result := impliedInstr dey s

/-- INC zero page ($E6): R133, R77. -/
def execIncZp (zp : Byte) (s : State) : Result := rmwInstr (.zeroPage zp) increment s

/-- INC absolute ($EE): R133, R76. -/
def execIncAbs (addr : Word) (s : State) : Result := rmwInstr (.absolute addr) increment s

/-- INC zero page,X ($F6): R133, R78. -/
def execIncZpx (zp : Byte) (s : State) : Result := rmwInstr (.zeroPageX zp) increment s

/-- INC absolute,X ($FE): R133, R79. -/
def execIncAbx (base : Word) (s : State) : Result := rmwInstr (.absoluteX base) increment s

/-- INX implied ($E8): R134, R73. -/
def execInx (s : State) : Result := impliedInstr inx s

/-- INY implied ($C8): R135, R73. -/
def execIny (s : State) : Result := impliedInstr iny s

/-- SBC (indirect,X) ($E1): R124, R81. -/
def execSbcInx (zp : Byte) (s : State) : Result := readInstr (.mem (.indirectX zp)) subtractWithBorrow s

/-- SBC zero page ($E5): R124, R77. -/
def execSbcZp (zp : Byte) (s : State) : Result := readInstr (.mem (.zeroPage zp)) subtractWithBorrow s

/-- SBC immediate ($E9): R124, R75. -/
def execSbcImm (v : Byte) (s : State) : Result := readInstr (.imm v) subtractWithBorrow s

/-- SBC absolute ($ED): R124, R76. -/
def execSbcAbs (addr : Word) (s : State) : Result := readInstr (.mem (.absolute addr)) subtractWithBorrow s

/-- SBC (indirect),Y ($F1): R124, R82. -/
def execSbcIny (zp : Byte) (s : State) : Result := readInstr (.mem (.indirectY zp)) subtractWithBorrow s

/-- SBC zero page,X ($F5): R124, R78. -/
def execSbcZpx (zp : Byte) (s : State) : Result := readInstr (.mem (.zeroPageX zp)) subtractWithBorrow s

/-- SBC absolute,Y ($F9): R124, R80. -/
def execSbcAby (base : Word) (s : State) : Result := readInstr (.mem (.absoluteY base)) subtractWithBorrow s

/-- SBC absolute,X ($FD): R124, R79. -/
def execSbcAbx (base : Word) (s : State) : Result := readInstr (.mem (.absoluteX base)) subtractWithBorrow s

end Sys2Proof.Machine
end

