-- ==== Sys2Proof/Machine/Branch.lean ====
section
/-!
DEFINITION. Branches, jumps and subroutines (spec/43_branch_jump.md R170 to R184), one meaning for each row of the
opcode table.
-/

namespace Sys2Proof.Machine

/-- BCC ($90): R171, R170. -/
def execBcc (off : Byte) (s : State) : Result := branchInstr (!s.p.c) off s

/-- BCS ($B0): R172, R170. -/
def execBcs (off : Byte) (s : State) : Result := branchInstr (s.p.c) off s

/-- BEQ ($F0): R173, R170. -/
def execBeq (off : Byte) (s : State) : Result := branchInstr (s.p.z) off s

/-- BMI ($30): R174, R170. -/
def execBmi (off : Byte) (s : State) : Result := branchInstr (s.p.n) off s

/-- BNE ($D0): R175, R170. -/
def execBne (off : Byte) (s : State) : Result := branchInstr (!s.p.z) off s

/-- BPL ($10): R176, R170. -/
def execBpl (off : Byte) (s : State) : Result := branchInstr (!s.p.n) off s

/-- BVC ($50): R177, R170. -/
def execBvc (off : Byte) (s : State) : Result := branchInstr (!s.p.v) off s

/-- BVS ($70): R178, R170. -/
def execBvs (off : Byte) (s : State) : Result := branchInstr (s.p.v) off s

/-- JMP absolute: PC <- the address (R76, R180). -/
def execJmpAbs (addr : Word) (s : State) : Result := finish { s with pc := addr }

/-- JMP absolute indirect: the low byte at the pointer, the high byte at NextOf(ptr); refused where the parameter
JMP_IND_WRAP says so (R85, R180, R181). -/
def execJmpInd (ptr : Word) (s : State) : Result :=
  match nextOfPointer s.cfg.jmpIndWrap ptr with
  | none => .refused (.jumpPointerAtPageEnd ptr)
  | some next =>
    let (lo, s1) := busRead .pointer ptr s
    let (hi, s2) := busRead .pointer next s1
    finish { s2 with pc := word hi lo }

/-- JSR: PC + 2 is pushed, high byte first, and only then the third byte of the instruction is fetched, from the
location as it is after the pushes; PC <- word(third byte, second byte) (R183). The high byte of `addr` is that third
byte as the decoder saw it; the meaning reads it again because R183 says when it is fetched (log 11). -/
def execJsr (addr : Word) (s : State) : Result :=
  let s1 := discard (stackAddr s.sp) s
  let s2 := pushWord (s.pc + 2) s1
  let (hi, s3) := busRead .operand (s.pc + 2) s2
  finish { s3 with pc := word hi (loByte addr) }

/-- RTS: PC <- (pulled word + 1) mod 65536; the pulled address is read once and discarded (R184, R293). -/
def execRts (s : State) : Result :=
  let s1 := discard (stackAddr s.sp) (discard (s.pc + 1) s)
  let (ret, s2) := pullWord s1
  finish { discard ret s2 with pc := ret + 1 }

end Sys2Proof.Machine
end

