-- ==== Sys2Proof/Machine/LoadStore.lean ====
section
/-!
DEFINITION. Loads, stores and register transfers (spec/40_load_store_transfer.md R100 to R112): the effect of each
mnemonic once, then one meaning for each row of the opcode table.
-/

namespace Sys2Proof.Machine

/-- LDA: A <- M; SetNZ(A) (R101). -/
def lda (m : Byte) (s : State) : State := { s with a := m, p := s.p.setNZ m }

/-- LDX: X <- M; SetNZ(X) (R102). -/
def ldx (m : Byte) (s : State) : State := { s with x := m, p := s.p.setNZ m }

/-- LDY: Y <- M; SetNZ(Y) (R103). -/
def ldy (m : Byte) (s : State) : State := { s with y := m, p := s.p.setNZ m }

/-- TAX: X <- A; SetNZ(X) (R107). -/
def tax (s : State) : State := { s with x := s.a, p := s.p.setNZ s.a }

/-- TAY: Y <- A; SetNZ(Y) (R108). -/
def tay (s : State) : State := { s with y := s.a, p := s.p.setNZ s.a }

/-- TSX: X <- S; SetNZ(X) (R109). -/
def tsx (s : State) : State := { s with x := s.sp, p := s.p.setNZ s.sp }

/-- TXA: A <- X; SetNZ(A) (R110). -/
def txa (s : State) : State := { s with a := s.x, p := s.p.setNZ s.x }

/-- TXS: S <- X; no flag (R111). -/
def txs (s : State) : State := { s with sp := s.x }

/-- TYA: A <- Y; SetNZ(A) (R112). -/
def tya (s : State) : State := { s with a := s.y, p := s.p.setNZ s.y }

/-- LDA (indirect,X) ($A1): R101, R81. -/
def execLdaInx (zp : Byte) (s : State) : Result := readInstr (.mem (.indirectX zp)) lda s

/-- LDA zero page ($A5): R101, R77. -/
def execLdaZp (zp : Byte) (s : State) : Result := readInstr (.mem (.zeroPage zp)) lda s

/-- LDA immediate ($A9): R101, R75. -/
def execLdaImm (v : Byte) (s : State) : Result := readInstr (.imm v) lda s

/-- LDA absolute ($AD): R101, R76. -/
def execLdaAbs (addr : Word) (s : State) : Result := readInstr (.mem (.absolute addr)) lda s

/-- LDA (indirect),Y ($B1): R101, R82. -/
def execLdaIny (zp : Byte) (s : State) : Result := readInstr (.mem (.indirectY zp)) lda s

/-- LDA zero page,X ($B5): R101, R78. -/
def execLdaZpx (zp : Byte) (s : State) : Result := readInstr (.mem (.zeroPageX zp)) lda s

/-- LDA absolute,Y ($B9): R101, R80. -/
def execLdaAby (base : Word) (s : State) : Result := readInstr (.mem (.absoluteY base)) lda s

/-- LDA absolute,X ($BD): R101, R79. -/
def execLdaAbx (base : Word) (s : State) : Result := readInstr (.mem (.absoluteX base)) lda s

/-- LDX immediate ($A2): R102, R75. -/
def execLdxImm (v : Byte) (s : State) : Result := readInstr (.imm v) ldx s

/-- LDX zero page ($A6): R102, R77. -/
def execLdxZp (zp : Byte) (s : State) : Result := readInstr (.mem (.zeroPage zp)) ldx s

/-- LDX absolute ($AE): R102, R76. -/
def execLdxAbs (addr : Word) (s : State) : Result := readInstr (.mem (.absolute addr)) ldx s

/-- LDX zero page,Y ($B6): R102, R78. -/
def execLdxZpy (zp : Byte) (s : State) : Result := readInstr (.mem (.zeroPageY zp)) ldx s

/-- LDX absolute,Y ($BE): R102, R80. -/
def execLdxAby (base : Word) (s : State) : Result := readInstr (.mem (.absoluteY base)) ldx s

/-- LDY immediate ($A0): R103, R75. -/
def execLdyImm (v : Byte) (s : State) : Result := readInstr (.imm v) ldy s

/-- LDY zero page ($A4): R103, R77. -/
def execLdyZp (zp : Byte) (s : State) : Result := readInstr (.mem (.zeroPage zp)) ldy s

/-- LDY absolute ($AC): R103, R76. -/
def execLdyAbs (addr : Word) (s : State) : Result := readInstr (.mem (.absolute addr)) ldy s

/-- LDY zero page,X ($B4): R103, R78. -/
def execLdyZpx (zp : Byte) (s : State) : Result := readInstr (.mem (.zeroPageX zp)) ldy s

/-- LDY absolute,X ($BC): R103, R79. -/
def execLdyAbx (base : Word) (s : State) : Result := readInstr (.mem (.absoluteX base)) ldy s

/-- STA (indirect,X) ($81): R104, R81. -/
def execStaInx (zp : Byte) (s : State) : Result := storeInstr (.indirectX zp) s.a s

/-- STA zero page ($85): R104, R77. -/
def execStaZp (zp : Byte) (s : State) : Result := storeInstr (.zeroPage zp) s.a s

/-- STA absolute ($8D): R104, R76. -/
def execStaAbs (addr : Word) (s : State) : Result := storeInstr (.absolute addr) s.a s

/-- STA (indirect),Y ($91): R104, R82. -/
def execStaIny (zp : Byte) (s : State) : Result := storeInstr (.indirectY zp) s.a s

/-- STA zero page,X ($95): R104, R78. -/
def execStaZpx (zp : Byte) (s : State) : Result := storeInstr (.zeroPageX zp) s.a s

/-- STA absolute,Y ($99): R104, R80. -/
def execStaAby (base : Word) (s : State) : Result := storeInstr (.absoluteY base) s.a s

/-- STA absolute,X ($9D): R104, R79. -/
def execStaAbx (base : Word) (s : State) : Result := storeInstr (.absoluteX base) s.a s

/-- STX zero page ($86): R105, R77. -/
def execStxZp (zp : Byte) (s : State) : Result := storeInstr (.zeroPage zp) s.x s

/-- STX absolute ($8E): R105, R76. -/
def execStxAbs (addr : Word) (s : State) : Result := storeInstr (.absolute addr) s.x s

/-- STX zero page,Y ($96): R105, R78. -/
def execStxZpy (zp : Byte) (s : State) : Result := storeInstr (.zeroPageY zp) s.x s

/-- STY zero page ($84): R106, R77. -/
def execStyZp (zp : Byte) (s : State) : Result := storeInstr (.zeroPage zp) s.y s

/-- STY absolute ($8C): R106, R76. -/
def execStyAbs (addr : Word) (s : State) : Result := storeInstr (.absolute addr) s.y s

/-- STY zero page,X ($94): R106, R78. -/
def execStyZpx (zp : Byte) (s : State) : Result := storeInstr (.zeroPageX zp) s.y s

/-- TAX implied ($AA): R107, R73. -/
def execTax (s : State) : Result := impliedInstr tax s

/-- TAY implied ($A8): R108, R73. -/
def execTay (s : State) : Result := impliedInstr tay s

/-- TSX implied ($BA): R109, R73. -/
def execTsx (s : State) : Result := impliedInstr tsx s

/-- TXA implied ($8A): R110, R73. -/
def execTxa (s : State) : Result := impliedInstr txa s

/-- TXS implied ($9A): R111, R73. -/
def execTxs (s : State) : Result := impliedInstr txs s

/-- TYA implied ($98): R112, R73. -/
def execTya (s : State) : Result := impliedInstr tya s

end Sys2Proof.Machine
end

