-- ==== Sys2Proof/Machine/Logic.lean ====
section
/-!
DEFINITION. Logic, bit test, shifts and rotates (spec/42_logic_shift.md R150 to R159): the effect of each mnemonic
once, then one meaning for each row of the opcode table.
-/

namespace Sys2Proof.Machine

/-- AND: A <- A and M; SetNZ(A) (R151). -/
def andA (m : Byte) (s : State) : State := { s with a := s.a &&& m, p := s.p.setNZ (s.a &&& m) }

/-- EOR: A <- A xor M; SetNZ(A) (R153). -/
def eorA (m : Byte) (s : State) : State := { s with a := s.a ^^^ m, p := s.p.setNZ (s.a ^^^ m) }

/-- ORA: A <- A or M; SetNZ(A) (R154). -/
def oraA (m : Byte) (s : State) : State := { s with a := s.a ||| m, p := s.p.setNZ (s.a ||| m) }

/-- BIT (R152). -/
def testBits (m : Byte) (s : State) : State := { s with p := bitTest s.a m s.p }

/-- AND (indirect,X) ($21): R151, R81. -/
def execAndInx (zp : Byte) (s : State) : Result := readInstr (.mem (.indirectX zp)) andA s

/-- AND zero page ($25): R151, R77. -/
def execAndZp (zp : Byte) (s : State) : Result := readInstr (.mem (.zeroPage zp)) andA s

/-- AND immediate ($29): R151, R75. -/
def execAndImm (v : Byte) (s : State) : Result := readInstr (.imm v) andA s

/-- AND absolute ($2D): R151, R76. -/
def execAndAbs (addr : Word) (s : State) : Result := readInstr (.mem (.absolute addr)) andA s

/-- AND (indirect),Y ($31): R151, R82. -/
def execAndIny (zp : Byte) (s : State) : Result := readInstr (.mem (.indirectY zp)) andA s

/-- AND zero page,X ($35): R151, R78. -/
def execAndZpx (zp : Byte) (s : State) : Result := readInstr (.mem (.zeroPageX zp)) andA s

/-- AND absolute,Y ($39): R151, R80. -/
def execAndAby (base : Word) (s : State) : Result := readInstr (.mem (.absoluteY base)) andA s

/-- AND absolute,X ($3D): R151, R79. -/
def execAndAbx (base : Word) (s : State) : Result := readInstr (.mem (.absoluteX base)) andA s

/-- ASL zero page ($06): R155, R77. -/
def execAslZp (zp : Byte) (s : State) : Result := rmwInstr (.zeroPage zp) shiftLeft s

/-- ASL accumulator ($0A): R155, R74. -/
def execAslAcc (s : State) : Result := accumulatorInstr shiftLeft s

/-- ASL absolute ($0E): R155, R76. -/
def execAslAbs (addr : Word) (s : State) : Result := rmwInstr (.absolute addr) shiftLeft s

/-- ASL zero page,X ($16): R155, R78. -/
def execAslZpx (zp : Byte) (s : State) : Result := rmwInstr (.zeroPageX zp) shiftLeft s

/-- ASL absolute,X ($1E): R155, R79. -/
def execAslAbx (base : Word) (s : State) : Result := rmwInstr (.absoluteX base) shiftLeft s

/-- BIT zero page ($24): R152, R77. -/
def execBitZp (zp : Byte) (s : State) : Result := readInstr (.mem (.zeroPage zp)) testBits s

/-- BIT absolute ($2C): R152, R76. -/
def execBitAbs (addr : Word) (s : State) : Result := readInstr (.mem (.absolute addr)) testBits s

/-- EOR (indirect,X) ($41): R153, R81. -/
def execEorInx (zp : Byte) (s : State) : Result := readInstr (.mem (.indirectX zp)) eorA s

/-- EOR zero page ($45): R153, R77. -/
def execEorZp (zp : Byte) (s : State) : Result := readInstr (.mem (.zeroPage zp)) eorA s

/-- EOR immediate ($49): R153, R75. -/
def execEorImm (v : Byte) (s : State) : Result := readInstr (.imm v) eorA s

/-- EOR absolute ($4D): R153, R76. -/
def execEorAbs (addr : Word) (s : State) : Result := readInstr (.mem (.absolute addr)) eorA s

/-- EOR (indirect),Y ($51): R153, R82. -/
def execEorIny (zp : Byte) (s : State) : Result := readInstr (.mem (.indirectY zp)) eorA s

/-- EOR zero page,X ($55): R153, R78. -/
def execEorZpx (zp : Byte) (s : State) : Result := readInstr (.mem (.zeroPageX zp)) eorA s

/-- EOR absolute,Y ($59): R153, R80. -/
def execEorAby (base : Word) (s : State) : Result := readInstr (.mem (.absoluteY base)) eorA s

/-- EOR absolute,X ($5D): R153, R79. -/
def execEorAbx (base : Word) (s : State) : Result := readInstr (.mem (.absoluteX base)) eorA s

/-- LSR zero page ($46): R156, R77. -/
def execLsrZp (zp : Byte) (s : State) : Result := rmwInstr (.zeroPage zp) shiftRight s

/-- LSR accumulator ($4A): R156, R74. -/
def execLsrAcc (s : State) : Result := accumulatorInstr shiftRight s

/-- LSR absolute ($4E): R156, R76. -/
def execLsrAbs (addr : Word) (s : State) : Result := rmwInstr (.absolute addr) shiftRight s

/-- LSR zero page,X ($56): R156, R78. -/
def execLsrZpx (zp : Byte) (s : State) : Result := rmwInstr (.zeroPageX zp) shiftRight s

/-- LSR absolute,X ($5E): R156, R79. -/
def execLsrAbx (base : Word) (s : State) : Result := rmwInstr (.absoluteX base) shiftRight s

/-- ORA (indirect,X) ($01): R154, R81. -/
def execOraInx (zp : Byte) (s : State) : Result := readInstr (.mem (.indirectX zp)) oraA s

/-- ORA zero page ($05): R154, R77. -/
def execOraZp (zp : Byte) (s : State) : Result := readInstr (.mem (.zeroPage zp)) oraA s

/-- ORA immediate ($09): R154, R75. -/
def execOraImm (v : Byte) (s : State) : Result := readInstr (.imm v) oraA s

/-- ORA absolute ($0D): R154, R76. -/
def execOraAbs (addr : Word) (s : State) : Result := readInstr (.mem (.absolute addr)) oraA s

/-- ORA (indirect),Y ($11): R154, R82. -/
def execOraIny (zp : Byte) (s : State) : Result := readInstr (.mem (.indirectY zp)) oraA s

/-- ORA zero page,X ($15): R154, R78. -/
def execOraZpx (zp : Byte) (s : State) : Result := readInstr (.mem (.zeroPageX zp)) oraA s

/-- ORA absolute,Y ($19): R154, R80. -/
def execOraAby (base : Word) (s : State) : Result := readInstr (.mem (.absoluteY base)) oraA s

/-- ORA absolute,X ($1D): R154, R79. -/
def execOraAbx (base : Word) (s : State) : Result := readInstr (.mem (.absoluteX base)) oraA s

/-- ROL zero page ($26): R157, R77. -/
def execRolZp (zp : Byte) (s : State) : Result := rmwInstr (.zeroPage zp) rotateLeft s

/-- ROL accumulator ($2A): R157, R74. -/
def execRolAcc (s : State) : Result := accumulatorInstr rotateLeft s

/-- ROL absolute ($2E): R157, R76. -/
def execRolAbs (addr : Word) (s : State) : Result := rmwInstr (.absolute addr) rotateLeft s

/-- ROL zero page,X ($36): R157, R78. -/
def execRolZpx (zp : Byte) (s : State) : Result := rmwInstr (.zeroPageX zp) rotateLeft s

/-- ROL absolute,X ($3E): R157, R79. -/
def execRolAbx (base : Word) (s : State) : Result := rmwInstr (.absoluteX base) rotateLeft s

/-- ROR zero page ($66): R158, R77. -/
def execRorZp (zp : Byte) (s : State) : Result := rmwInstr (.zeroPage zp) rotateRight s

/-- ROR accumulator ($6A): R158, R74. -/
def execRorAcc (s : State) : Result := accumulatorInstr rotateRight s

/-- ROR absolute ($6E): R158, R76. -/
def execRorAbs (addr : Word) (s : State) : Result := rmwInstr (.absolute addr) rotateRight s

/-- ROR zero page,X ($76): R158, R78. -/
def execRorZpx (zp : Byte) (s : State) : Result := rmwInstr (.zeroPageX zp) rotateRight s

/-- ROR absolute,X ($7E): R158, R79. -/
def execRorAbx (base : Word) (s : State) : Result := rmwInstr (.absoluteX base) rotateRight s

end Sys2Proof.Machine
end

