-- ==== Sys2Proof/Machine/System.lean ====
section
/-!
DEFINITION. Stack, flag, no-operation, break and return-from-interrupt instructions
(spec/44_stack_flag_system.md R200 to R213), one meaning for each row of the opcode table.
-/

namespace Sys2Proof.Machine

/-- PLA: A <- Pull(); SetNZ(A) (R202). -/
def pullA (s : State) : State :=
  let (v, s1) := pull s
  { s1 with a := v, p := s1.p.setNZ v }

/-- PLP: SetP(Pull()); the old I is kept for the IRQ test (R203, R238). -/
def pullP (s : State) : State :=
  let (v, s1) := pull s
  { s1 with p := Flags.ofByte v, heldI := some s.p.i }

/-- I written to a constant by CLI or SEI; the old I is kept for the IRQ test (R206, R210, R238). -/
def writeI (i : Bool) (s : State) : State := { s with p := { s.p with i := i }, heldI := some s.p.i }

/-- BRK: the byte after the opcode is read and discarded; then the break is taken with return address PC + 2 and
bit 4 of the pushed status byte set, through $FFFE (R212, R241). Not maskable. -/
def execBrk (s : State) : Result :=
  finish (takeException (s.pc + 2) true irqVector (discard (s.pc + 1) s))

/-- CLC implied ($18): R204, R73. -/
def execClc (s : State) : Result := impliedInstr (fun s1 => { s1 with p := { s1.p with c := false } }) s

/-- CLD implied ($D8): R205, R73. -/
def execCld (s : State) : Result := impliedInstr (fun s1 => { s1 with p := { s1.p with d := false } }) s

/-- CLI implied ($58): R206, R73. -/
def execCli (s : State) : Result := impliedInstr (writeI false) s

/-- CLV implied ($B8): R207, R73. -/
def execClv (s : State) : Result := impliedInstr (fun s1 => { s1 with p := { s1.p with v := false } }) s

/-- NOP implied ($EA): R211, R73. -/
def execNop (s : State) : Result := impliedInstr (fun s1 => s1) s

/-- PHA implied ($48): R200, R73. -/
def execPha (s : State) : Result := impliedInstr (fun s1 => push s1.a s1) s

/-- PHP implied ($08): R201, R73. -/
def execPhp (s : State) : Result := impliedInstr (fun s1 => push (s1.p.toByte true) s1) s

/-- PLA implied ($68): R202, R73. -/
def execPla (s : State) : Result := impliedInstr (fun s1 => pullA (discard (stackAddr s1.sp) s1)) s

/-- PLP implied ($28): R203, R73. -/
def execPlp (s : State) : Result := impliedInstr (fun s1 => pullP (discard (stackAddr s1.sp) s1)) s

/-- RTI (R213, R244). -/
def execRti (s : State) : Result :=
  finish (returnFromInterrupt (discard (stackAddr s.sp) (discard (s.pc + 1) s)))

/-- SEC implied ($38): R208, R73. -/
def execSec (s : State) : Result := impliedInstr (fun s1 => { s1 with p := { s1.p with c := true } }) s

/-- SED implied ($F8): R209, R73. -/
def execSed (s : State) : Result := impliedInstr (fun s1 => { s1 with p := { s1.p with d := true } }) s

/-- SEI implied ($78): R210, R73. -/
def execSei (s : State) : Result := impliedInstr (writeI true) s

end Sys2Proof.Machine
end

