-- ==== Sys2Proof/Machine/Environment.lean ====
section
/-!
DEFINITION. The machine and its environment between and around instructions: the input pins (spec/10_state.md R25 to
R29), the event at an instruction boundary (spec/60_exceptions.md R236 to R239), a core held by RDY or RES, and what
an edge inside a step does at its end (R27, R246, R273).
-/

namespace Sys2Proof.Machine

/-! ## Before the step -/

/-- A negative edge on S.O. is heard: the member has the pin and the platform drives it (R27, D12). -/
def State.hearsSo (s : State) : Bool := s.cfg.member.hasSo && s.cfg.soActive

/-- The environment's move before a step: the pins take their new levels, a negative edge on NMI sets the latch
(R25), a negative edge on S.O. sets V (R27), another bus master's bytes reach ram (R54, R59), the edges and gaps of the
step are set, and where RES was low until now a reset sequence is due (R270). With an empty script no line changes
(DESIGN CHOICE, safe: every other script is a state too; log 6). -/
def sample (s : State) : State :=
  match s.script with
  | [] => { s with resetDue := s.resetDue || s.pins.resLow, edges := .quiet, gaps := [], bus := [] }
  | inp :: rest =>
    let nmiEdge := s.cfg.member.hasNmi && !s.pins.nmiLow && inp.pins.nmiLow
    let soEdge := s.hearsSo && !s.pins.soLow && inp.pins.soLow
    { s with
      nmiPending := s.nmiPending || nmiEdge
      resetDue := s.resetDue || s.pins.resLow
      p := { s.p with v := s.p.v || soEdge }
      mem := applyDma s.cfg inp.dma s.mem
      pins := inp.pins
      edges := inp.edges
      gaps := inp.gaps
      script := rest
      bus := [] }

/-! ## The boundary -/

/-- Ieff, the value of I that the IRQ test uses (R238, D11): after CLI, SEI or PLP by the parameter IRQ_POLL_I,
otherwise P.I as it is now. -/
def State.iEffective (s : State) : Bool :=
  match s.heldI with
  | none => s.p.i
  | some old =>
    match s.cfg.irqPollI with
    | .old => old
    | .new => s.p.i
    | .either => if Config.pollsOldI s.clock then old else s.p.i

/-- IRQ asks for service: the pin exists and is low (R26). -/
def State.irqAsserted (s : State) : Bool := s.cfg.member.hasIrq && s.pins.irqLow

/-- RDY holds the core: the pin exists and is low (R28, R57). -/
def State.rdyHolds (s : State) : Bool := s.cfg.member.hasRdy && s.pins.rdyLow

/-- What the next step is. -/
inductive Event where
  /-- RES is low: the core does not execute (R29, R271). -/
  | inReset
  /-- RDY is low: the core is held (R57), also at the first cycle of a reset sequence (R274, U12). -/
  | held
  /-- RES has gone high: the reset sequence (R270). -/
  | reset
  /-- The NMI sequence (R240). -/
  | nmi
  /-- The IRQ sequence (R242). -/
  | irq
  /-- The next instruction. -/
  | instruction
deriving DecidableEq, Repr

/-- The event at a boundary (R237), reset over NMI over IRQ (R239). A low RDY holds the core before any of them, also
before the reset sequence: "RDY is honoured during the sequence because all of its cycles are reads" (R274). -/
def eventOf (s : State) : Event :=
  if s.pins.resLow then .inReset
  else if s.rdyHolds then .held
  else if s.resetDue then .reset
  else if s.nmiPending then .nmi
  else if s.irqAsserted && !s.iEffective then .irq
  else .instruction

/-- One clock cycle with RES low: no instruction, no interrupt, no write (R29, R271). -/
def idle (s : State) : State := { s with clock := s.clock + 1, edges := .quiet, gaps := [] }

/-- One clock cycle with RDY low at the first cycle of an instruction or sequence, a read at PC: the core repeats the
read cycle and no register, flag or memory location changes (R28, R57, R59, R274). -/
def hold (s : State) : State := s.tick ⟨.held, s.cfg.busAddr s.pc, s.dataAt s.pc⟩

/-! ## After the step -/

/-- The instructions that write V (R27: "ADC, SBC, BIT, CLV, PLP, RTI"). -/
def writesV : Mnemonic → Bool
  | .adc | .sbc | .bit | .clv | .plp | .rti => true
  | .and | .asl | .bcc | .bcs | .beq | .bmi | .bne | .bpl | .brk | .bvc | .bvs | .clc | .cld | .cli | .cmp | .cpx
  | .cpy | .dec | .dex | .dey | .eor | .inc | .inx | .iny | .jmp | .jsr | .lda | .ldx | .ldy | .lsr | .nop | .ora
  | .pha | .php | .pla | .rol | .ror | .rts | .sec | .sed | .sei | .sta | .stx | .sty | .tax | .tay | .tsx | .txa
  | .txs | .tya => false

/-- What the edges inside a step have done at its end. An NMI edge sets the latch (R25, R246 outcome (a); the edge
inside a reset sequence and the one that diverts a sequence are dealt with there); an S.O. edge sets V, but against an
instruction that writes V a free value decides (R27, U11); after a fall of RES the line is low from here on (what it does
to the step's writes, `State.inhibits` says; R273). Gaps that no cycle has reached did not happen. `vWritten` says whether
the step writes V. -/
def settle (vWritten : Bool) (t : State) : State :=
  let soEdge := t.hearsSo && t.edges.so
  { t with
    nmiPending := t.nmiPending || (t.cfg.member.hasNmi && t.edges.nmi)
    p := { t.p with v := t.p.v || (soEdge && (!vWritten || Config.soEdgeWins t.clock)) }
    pins := { t.pins with nmiLow := t.pins.nmiLow || t.edges.nmi
                          soLow := t.pins.soLow || t.edges.so
                          resLow := t.pins.resLow || t.edges.res }
    edges := .quiet
    gaps := [] }

/-- `settle` on the outcome of a step. -/
def settleResult (vWritten : Bool) (r : Result) : Result :=
  match r with
  | .next t => .next (settle vWritten t)
  | .fault f => .fault f
  | .refused why => .refused why

end Sys2Proof.Machine
end

