-- ==== Sys2Proof/Machine/Fetch.lean ====
section
/-!
DEFINITION. Fetching an instruction's bytes at the program counter (spec/30_encoding.md R70 to R72, spec/20_memory.md
R56, R62) and running the instruction they decode to.
-/

namespace Sys2Proof.Machine

/-- JSR's opcode byte, the one instruction whose third byte is fetched late (R183). -/
def jsrOpcode : Byte := 0x20

/-- The operand bytes after an opcode byte, `n` of them, fetched in order (R62). The third byte of JSR is only looked
at: its read cycle comes after the pushes, in the meaning of JSR (R183, R293). -/
def fetchOperands (op : Byte) (n : Nat) (s : State) : List Byte × State :=
  match n with
  | 0 => ([], s)
  | 1 =>
    let (b1, s1) := busRead .operand (s.pc + 1) s
    ([b1], s1)
  | _ =>
    let (b1, s1) := busRead .operand (s.pc + 1) s
    if op = jsrOpcode then ([b1, s1.dataAt (s.pc + 2)], s1)
    else
      let (b2, s2) := busRead .operand (s.pc + 2) s1
      ([b1, b2], s2)

/-- The instruction at the program counter and the state after its bytes are fetched; an undefined opcode byte is
refused (R89). PC still points at the opcode: each meaning moves it. -/
def fetch (s : State) : Except Refusal (Instr × State) :=
  let (op, s1) := busRead .opcode s.pc s
  match formOf op with
  | none => .error (.undefinedOpcode op)
  | some form =>
    let (bytes, s2) := fetchOperands op form.operandBytes s1
    match decode (op :: bytes) with
    | .ok (i, _) => .ok (i, s2)
    | .error _ => .error (.undefinedOpcode op)

/-- One instruction from its opcode fetch to its last cycle (D1). The I flag held for the IRQ test is dropped first:
only CLI, SEI and PLP hold one (R238). -/
def runInstruction (s : State) : Result :=
  match fetch { s with heldI := none } with
  | .error why => .refused why
  | .ok (i, s1) => settleResult (writesV i.mnemonic) (exec i s1)

/-- `bytes` placed in memory from an address on, as the platform would place a program (log 5). -/
def State.withBytes (s : State) (a : Word) (bytes : List Byte) : State :=
  match bytes with
  | [] => s
  | b :: rest => State.withBytes { s with mem := s.mem.write (s.cfg.busAddr a) b } (a + 1) rest

end Sys2Proof.Machine
end

