-- ==== Sys2Proof/Machine/Step.lean ====
section
/-! DEFINITION. One step of the machine (spec/92_eei_decisions.md D1), and the placing of a first instruction. -/

namespace Sys2Proof.Machine

/-- One step: the environment moves, then what the boundary calls for happens: nothing while RES is low, a cycle held by
RDY, the reset sequence, an NMI or IRQ sequence, or one instruction (R237, R239, R270, R271, R274). -/
def step (s : State) : Host.Outcome State Fault Refusal :=
  let s1 := sample s
  match eventOf s1 with
  | .inReset => .next (idle s1)
  | .held => settleResult false (.next (hold s1))
  | .reset => settleResult false (finish (resetSequence s1))
  | .nmi => settleResult false (finish (takeNmi s1))
  | .irq => settleResult false (finish (takeIrq s1))
  | .instruction => runInstruction s1

/-- The state with the instruction of a table word at PC, PC + 1 and PC + 2, and nothing that would keep the next
step from fetching it: the lines inactive, no NMI pending, no reset due, no input scripted (log 5). -/
def State.withFetchWord (s : State) (nbits w : Nat) : State :=
  { s.withBytes s.pc (tableBytes nbits w) with
    nmiPending := false, resetDue := false, pins := .inactive, edges := .quiet, gaps := [], script := [] }

end Sys2Proof.Machine
end

