-- ==== Sys2Proof/Machine/Timing.lean ====
section
/-!
DEFINITION. Execution time in clock cycles as the opcode table and spec/70_reset_and_hazards.md R290, R291 state it.
The step does not use these: it spends one cycle for each bus cycle of R293, and a statement compares the two.
-/

namespace Sys2Proof.Machine

/-- The base cycle count of each row of the opcode table (R290; the field `cycles` of opcode_table.json). -/
def baseCycles : Instr → Nat
  | .oraImm _ | .aslAcc | .bpl _ | .clc | .andImm _ | .rolAcc | .bmi _ | .sec
  | .eorImm _ | .lsrAcc | .bvc _ | .cli | .adcImm _ | .rorAcc | .bvs _ | .sei
  | .dey | .txa | .bcc _ | .tya | .txs | .ldyImm _ | .ldxImm _ | .tay
  | .ldaImm _ | .tax | .bcs _ | .clv | .tsx | .cpyImm _ | .iny | .cmpImm _
  | .dex | .bne _ | .cld | .cpxImm _ | .inx | .sbcImm _ | .nop | .beq _
  | .sed => 2
  | .oraZp _ | .php | .bitZp _ | .andZp _ | .eorZp _ | .pha | .jmpAbs _ | .adcZp _
  | .styZp _ | .staZp _ | .stxZp _ | .ldyZp _ | .ldaZp _ | .ldxZp _ | .cpyZp _ | .cmpZp _
  | .cpxZp _ | .sbcZp _ => 3
  | .oraAbs _ | .oraZpx _ | .oraAby _ | .oraAbx _ | .plp | .bitAbs _ | .andAbs _ | .andZpx _
  | .andAby _ | .andAbx _ | .eorAbs _ | .eorZpx _ | .eorAby _ | .eorAbx _ | .pla | .adcAbs _
  | .adcZpx _ | .adcAby _ | .adcAbx _ | .styAbs _ | .staAbs _ | .stxAbs _ | .styZpx _ | .staZpx _
  | .stxZpy _ | .ldyAbs _ | .ldaAbs _ | .ldxAbs _ | .ldyZpx _ | .ldaZpx _ | .ldxZpy _ | .ldaAby _
  | .ldyAbx _ | .ldaAbx _ | .ldxAby _ | .cpyAbs _ | .cmpAbs _ | .cmpZpx _ | .cmpAby _ | .cmpAbx _
  | .cpxAbs _ | .sbcAbs _ | .sbcZpx _ | .sbcAby _ | .sbcAbx _ => 4
  | .aslZp _ | .oraIny _ | .rolZp _ | .andIny _ | .lsrZp _ | .eorIny _ | .rorZp _ | .jmpInd _
  | .adcIny _ | .staAby _ | .staAbx _ | .ldaIny _ | .decZp _ | .cmpIny _ | .incZp _ | .sbcIny _ => 5
  | .oraInx _ | .aslAbs _ | .aslZpx _ | .jsr _ | .andInx _ | .rolAbs _ | .rolZpx _ | .rti
  | .eorInx _ | .lsrAbs _ | .lsrZpx _ | .rts | .adcInx _ | .rorAbs _ | .rorZpx _ | .staInx _
  | .staIny _ | .ldaInx _ | .cmpInx _ | .decAbs _ | .decZpx _ | .sbcInx _ | .incAbs _ | .incZpx _ => 6
  | .brk | .aslAbx _ | .rolAbx _ | .lsrAbx _ | .rorAbx _ | .decAbx _ | .incAbx _ => 7

/-- The read instructions of R290, whose indexed forms spend a cycle more when a page is crossed (R291). -/
def isReadInstr : Mnemonic → Bool
  | .lda | .ldx | .ldy | .adc | .sbc | .and | .ora | .eor | .cmp | .cpx | .cpy | .bit => true
  | .asl | .bcc | .bcs | .beq | .bmi | .bne | .bpl | .brk | .bvc | .bvs | .clc | .cld | .cli | .clv | .dec | .dex
  | .dey | .inc | .inx | .iny | .jmp | .jsr | .lsr | .nop | .pha | .php | .pla | .plp | .rol | .ror | .rti | .rts
  | .sec | .sed | .sei | .sta | .stx | .sty | .tax | .tay | .tsx | .txa | .txs | .tya => false

/-- The condition of each conditional branch (R179); none for every other instruction. -/
def branchCondition (p : Flags) : Mnemonic → Option Bool
  | .bpl => some (!p.n)
  | .bmi => some p.n
  | .bvc => some (!p.v)
  | .bvs => some p.v
  | .bcc => some (!p.c)
  | .bcs => some p.c
  | .bne => some (!p.z)
  | .beq => some p.z
  | .adc | .and | .asl | .bit | .brk | .clc | .cld | .cli | .clv | .cmp | .cpx | .cpy | .dec | .dex | .dey | .eor
  | .inc | .inx | .iny | .jmp | .jsr | .lda | .ldx | .ldy | .lsr | .nop | .ora | .pha | .php | .pla | .plp | .rol
  | .ror | .rti | .rts | .sbc | .sec | .sed | .sei | .sta | .stx | .sty | .tax | .tay | .tsx | .txa | .txs
  | .tya => none

/-- One cycle more when a page is crossed. -/
def crossing (base ea : Word) : Nat := if pageCross base ea then 1 else 0

/-- The page-crossing cycle of a memory operand (R83, R291), for a reading instruction. -/
def operandCrossing (m : Addr) (s : State) : Nat :=
  match m with
  | .absoluteX base => crossing base (indexed base s.x)
  | .absoluteY base => crossing base (indexed base s.y)
  | .indirectY z => crossing (zeroPagePointer z s).1 (indexed (zeroPagePointer z s).1 s.y)
  | .zeroPage _ | .zeroPageX _ | .zeroPageY _ | .absolute _ | .indirectX _ => 0

/-- The cycles beyond the base count (R291; the field `cycles_extra` of opcode_table.json). -/
def extraCycles (i : Instr) (s : State) : Nat :=
  match i.operand with
  | .memory m => if isReadInstr i.mnemonic then operandCrossing m s else 0
  | .relative off =>
    if branchCondition s.p i.mnemonic = some true then 1 + crossing (branchNext s.pc) (branchTarget s.pc off) else 0
  | .implied | .accumulator | .immediate _ | .absoluteIndirect _ => 0

/-- The execution time of an instruction in a state (R290, R291). -/
def cycles (i : Instr) (s : State) : Nat := baseCycles i + extraCycles i s

/-- The cycles that are spent before the meaning runs: the opcode byte and the operand bytes, but for the third byte
of JSR, which its meaning fetches (R183, R293). -/
def fetchCycles (i : Instr) : Nat := if i.mnemonic = .jsr then 2 else i.length

end Sys2Proof.Machine
end

