-- ==== Sys2Proof/Safety.lean ====
section
/-!
DEFINITION. The terms the statements are written in: platforms on which nothing is refused, what a meaning answers up
to the model's own record of time and bus, the invariant of the machine, the tables of who writes what, and the
conventions by which a run is over.
-/

namespace Sys2Proof

/-! ## Platforms -/

/-- No instruction is refused for a device: the model performs every bus cycle, or the map holds no device (R61). -/
def Config.runnable (cfg : Config) : Prop := cfg.busExact = true ∨ ∀ b, cfg.kindAt b ≠ .device

/-! ## The operand of an instruction -/

/-- The operand of a reading instruction, none for the other forms. -/
def Operand.source : Operand → Option Machine.Source
  | .immediate v => some (.imm v)
  | .memory m => some (.mem m)
  | .implied | .accumulator | .relative _ | .absoluteIndirect _ => none

end Sys2Proof

namespace Sys2Proof.Machine

/-! ## Memory as the program sees it -/

/-- Memory answers a read of `a`: the address is ram or rom (R45, R52). -/
def State.isMemory (s : State) (a : Word) : Prop :=
  s.cfg.kindAt (s.cfg.busAddr a) = .ram ∨ s.cfg.kindAt (s.cfg.busAddr a) = .rom

/-- A write at `a` reaches memory: the address is ram and the data bus drivers are on (R46, R60). -/
def State.lands (s : State) (a : Word) : Prop :=
  s.cfg.kindAt (s.cfg.busAddr a) = .ram ∧ s.driversOff = false

/-- Memory's byte at an internal address (R44). -/
def State.memByte (s : State) (a : Word) : Byte := s.mem.read (s.cfg.busAddr a)

/-- Memory's 16-bit word whose low byte is at `lo` and whose high byte is at `hi` (R40). -/
def State.memWord (s : State) (hi lo : Word) : Word := word (s.memByte hi) (s.memByte lo)

/-- The `n` bytes of memory from an address on (R43: the address wraps modulo 65,536). -/
def State.bytesAt (s : State) (a : Word) (n : Nat) : List Byte :=
  (List.range n).map (fun k => s.memByte (a + BitVec.ofNat 16 k))

/-- No other bus master writes inside the present step. RDY may still halt the core in it (R54, R57). -/
def State.alone (s : State) : Prop := ∀ gap ∈ s.gaps, gap.dma = []

/-- Nothing takes memory out of the core's hands inside the present step: no other bus master writes (R54), and RES does
not fall (R273). -/
def State.steady (s : State) : Prop := s.alone ∧ s.edges.res = false

/-- N and Z of an 8-bit result, read as a number: N when it is 128 or more, Z when it is 0 (R20). -/
def Flags.ofResult (p : Flags) (v : Byte) : Flags :=
  { p with n := decide (128 ≤ v.toNat), z := decide (v.toNat = 0) }

/-! ## Outcomes -/

/-- The outcome is the next state `t`, up to the model's own `clock` and `bus`, to the gaps of the step that are used up,
and to the bytes of memory that another bus master writes in those gaps: without one, memory is `t`'s too (R54). -/
def Answers (r : Result) (t : State) : Prop :=
  ∃ m c b g, r = .next { t with mem := m, clock := c, bus := b, gaps := g } ∧ (t.alone → m = t.mem)

/-- The outcome is a next state. -/
def Completes (r : Result) : Prop := ∃ t, r = .next t

/-- The outcome is the next state `t`, up to `clock`, `bus` and the gaps, with the byte `v` stored at `a`: where the step is
the core's own, every other bus address reads as in `t`, and `a` holds `v` if the write reaches memory and memory is `t`'s
if it does not (R46). -/
def AnswersStoring (r : Result) (t : State) (a : Word) (v : Byte) : Prop :=
  ∃ m c b g, r = .next { t with mem := m, clock := c, bus := b, gaps := g } ∧
    (t.steady →
      (∀ b, b ≠ t.cfg.busAddr a → m.read b = t.mem.read b) ∧
      (t.lands a → m.read (t.cfg.busAddr a) = v) ∧ (¬ t.lands a → m = t.mem))

/-- `u`'s memory is `s`'s with `bytes` pushed in this order from `s`'s stack pointer down: every bus address outside
the stack locations written reads as before, and the k-th location holds the k-th byte if the write reaches memory and
what it held before if it does not (R15, R46). -/
def PushedOnto (s u : State) (bytes : List Byte) : Prop :=
  (∀ b, (∀ k, k < bytes.length → b ≠ s.cfg.busAddr (stackAddr (s.sp - BitVec.ofNat 8 k))) →
    u.mem.read b = s.mem.read b) ∧
  (∀ k v, bytes[k]? = some v →
    (s.lands (stackAddr (s.sp - BitVec.ofNat 8 k)) → u.memByte (stackAddr (s.sp - BitVec.ofNat 8 k)) = v) ∧
    (¬ s.lands (stackAddr (s.sp - BitVec.ofNat 8 k)) →
      u.memByte (stackAddr (s.sp - BitVec.ofNat 8 k)) = s.memByte (stackAddr (s.sp - BitVec.ofNat 8 k))))

/-- Two states agree in every field but `clock`, `bus` and the gaps of the step. -/
def State.agrees (s t : State) : Prop :=
  t = { s with clock := t.clock, bus := t.bus, gaps := t.gaps }

/-- No line is active, nothing is pending, due or scripted: an instruction comes next and runs undisturbed. -/
def State.undisturbed (s : State) : Prop :=
  s.pins = .inactive ∧ s.script = [] ∧ s.nmiPending = false ∧ s.resetDue = false

/-! ## Operands in memory -/

/-- The address a store or a read-modify-write writes: the one its meaning resolves the operand to (R76 to R82). -/
def storeAddress (m : Addr) (s : State) : Word := (resolve .store m s).1

/-- The byte `v` that a read-modify-write reads at that address (R159). -/
def rmwOperand (m : Addr) (s : State) : Byte := (busRead (.read false) (storeAddress m s) (resolve .store m s).2).1

/-- The word that two read cycles deliver, the low byte first (R42). -/
def readWord (k : CycleKind) (lo hi : Word) (s : State) : Word :=
  word (busRead k hi (busRead k lo s).2).1 (busRead k lo s).1

/-! ## The undefined opcodes -/

/-- The 105 opcode bytes of R89. -/
def undefinedOpcodes : List Byte :=
  [0x02, 0x03, 0x04, 0x07, 0x0B, 0x0C, 0x0F, 0x12, 0x13, 0x14, 0x17, 0x1A, 0x1B, 0x1C, 0x1F, 0x22, 0x23, 0x27, 0x2B,
   0x2F, 0x32, 0x33, 0x34, 0x37, 0x3A, 0x3B, 0x3C, 0x3F, 0x42, 0x43, 0x44, 0x47, 0x4B, 0x4F, 0x52, 0x53] ++
  [0x54, 0x57, 0x5A, 0x5B, 0x5C, 0x5F, 0x62, 0x63, 0x64, 0x67, 0x6B, 0x6F, 0x72, 0x73, 0x74, 0x77, 0x7A, 0x7B, 0x7C,
   0x7F, 0x80, 0x82, 0x83, 0x87, 0x89, 0x8B, 0x8F, 0x92, 0x93, 0x97, 0x9B, 0x9C, 0x9E, 0x9F, 0xA3, 0xA7] ++
  [0xAB, 0xAF, 0xB2, 0xB3, 0xB7, 0xBB, 0xBF, 0xC2, 0xC3, 0xC7, 0xCB, 0xCF, 0xD2, 0xD3, 0xD4, 0xD7, 0xDA, 0xDB, 0xDC,
   0xDF, 0xE2, 0xE3, 0xE7, 0xEB, 0xEF, 0xF2, 0xF3, 0xF4, 0xF7, 0xFA, 0xFB, 0xFC, 0xFF]

/-! ## Who writes what -/

/-- The rows of R24: does the instruction write N? -/
def writesN : Mnemonic → Bool
  | .adc | .sbc | .and | .eor | .ora | .lda | .ldx | .ldy | .pla | .tax | .tay | .tsx | .txa | .tya | .inc | .inx
  | .iny | .dec | .dex | .dey | .asl | .rol | .ror | .lsr | .cmp | .cpx | .cpy | .bit | .plp | .rti => true
  | .clc | .sec | .cld | .sed | .cli | .sei | .clv | .brk | .sta | .stx | .sty | .txs | .pha | .php | .jmp | .jsr
  | .rts | .nop | .bcc | .bcs | .beq | .bmi | .bne | .bpl | .bvc | .bvs => false

/-- The rows of R24: does the instruction write Z? The same instructions as N. -/
def writesZ (m : Mnemonic) : Bool := writesN m

/-- The rows of R24: does the instruction write D? -/
def writesD (m : Mnemonic) : Bool := decide (m ∈ [.cld, .sed, .plp, .rti])

/-- The rows of R24: does the instruction write I? -/
def writesIFlag (m : Mnemonic) : Bool := decide (m ∈ [.cli, .sei, .plp, .rti, .brk])

/-- The rows of R24: does the instruction write C? -/
def writesC (m : Mnemonic) : Bool :=
  decide (m ∈ [.adc, .sbc, .asl, .rol, .ror, .lsr, .cmp, .cpx, .cpy, .clc, .sec, .plp, .rti])

/-- The column "written by" of R10: does the instruction write A? The shifts do so in accumulator mode only. -/
def writesA (i : Instr) : Bool :=
  decide (i.mnemonic ∈ [.adc, .and, .eor, .lda, .ora, .pla, .sbc, .txa, .tya]) ||
  (decide (i.mnemonic ∈ [.asl, .lsr, .rol, .ror]) && decide (i.operand = .accumulator))

/-- The column "written by" of R10: does the instruction write X? -/
def writesX (m : Mnemonic) : Bool := decide (m ∈ [.dex, .inx, .ldx, .tax, .tsx])

/-- The column "written by" of R10: does the instruction write Y? -/
def writesY (m : Mnemonic) : Bool := decide (m ∈ [.dey, .iny, .ldy, .tay])

/-- The column "written by" of R10: does the instruction write S (TXS, every push and pull)? -/
def writesSp (m : Mnemonic) : Bool :=
  decide (m ∈ [.txs, .pha, .php, .jsr, .brk, .pla, .plp, .rts, .rti])

/-- The instructions that write memory: stores, read-modify-writes on memory, pushes (R15, R104 to R106, R159). -/
def writesMemory (i : Instr) : Bool :=
  decide (i.mnemonic ∈ [.sta, .stx, .sty, .inc, .dec, .pha, .php, .jsr, .brk]) ||
  (decide (i.mnemonic ∈ [.asl, .lsr, .rol, .ror]) && decide (i.operand ≠ .accumulator))

/-- The only refusal a meaning has on a platform without inexact devices: JMP (indirect) at the end of a page under
JMP_IND_WRAP = refuse (R181). -/
def jumpRefused (i : Instr) (s : State) : Bool :=
  match i.operand with
  | .absoluteIndirect ptr => decide (s.cfg.jmpIndWrap = .refuse) && decide (loByte ptr = 0xFF)
  | .implied | .accumulator | .immediate _ | .memory _ | .relative _ => false

/-! ## The invariant -/

/-- What every step keeps: memory is in canonical form; the NMI latch is 0 on a member without the pin (R25); the
edges and gaps of a step do not outlive it. -/
def State.inv (s : State) : Prop :=
  s.mem.wf = true ∧ (s.cfg.member.hasNmi = false → s.nmiPending = false) ∧ s.edges = .quiet ∧ s.gaps = []

/-! ## Outputs -/

/-- The SYNC pin in a bus cycle, where the member has it (R3, R30). -/
def syncPin (cfg : Config) (cycle : BusCycle) : Bool := cfg.member.hasSync && cycle.kind.sync

/-- The bytes the devices received in the present step, newest first (R46, R54, R60). -/
def State.deviceWrites (s : State) : List Host.Cell :=
  if s.driversOff then []
  else (s.bus.filter (fun c => c.kind.isWrite && decide (s.cfg.kindAt c.addr = .device))).map
    (fun c => (c.addr, c.byte))

/-! ## The end of a run -/

/-- HALT_CONVENTION (R285, D25: OPEN): the admissible choices. The machine itself never halts. -/
inductive HaltConvention where
  /-- 1: a jump or branch to itself, with no interrupt pending or possible. -/
  | selfJump
  /-- 2: the opcode of BRK is fetched, "before BRK executes". -/
  | brkFetch
  /-- 3: a store to a platform-defined device address. -/
  | deviceStore (addr : Nat)
  /-- 4: RDY is held low for ever. -/
  | rdyLow
  /-- 5: a step budget. -/
  | budget (steps : Nat)
deriving DecidableEq, Repr

/-- A jump or a branch, the instructions of the first convention (R285). -/
def isJumpOrBranch : Mnemonic → Bool
  | .jmp | .bcc | .bcs | .beq | .bmi | .bne | .bpl | .bvc | .bvs => true
  | .adc | .and | .asl | .bit | .brk | .clc | .cld | .cli | .clv | .cmp | .cpx | .cpy | .dec | .dex | .dey | .eor
  | .inc | .inx | .iny | .jsr | .lda | .ldx | .ldy | .lsr | .nop | .ora | .pha | .php | .pla | .plp | .rol | .ror
  | .rti | .rts | .sbc | .sec | .sed | .sei | .sta | .stx | .sty | .tax | .tay | .tsx | .txa | .txs | .tya => false

/-- The step from `s` to `t` was a jump or branch that "leaves PC equal to its own address" (R285). -/
def jumpedToItself (s t : State) : Bool :=
  decide (eventOf (sample s) = .instruction) && decide (t.pc = s.pc) &&
  match fetch { sample s with heldI := none } with
  | .ok (i, _) => isJumpOrBranch i.mnemonic
  | .error _ => false

/-- A negative edge on NMI, between or inside the steps to come; `low` is the level before them (R25). -/
def nmiEdgeAhead (low : Bool) (script : List Inputs) : Bool :=
  match script with
  | [] => false
  | inp :: rest => (!low && inp.pins.nmiLow) || inp.edges.nmi || nmiEdgeAhead inp.pins.nmiLow rest

/-- An interrupt is pending or possible, now or by what is scripted: not "I = 1 or irq_line never low, and no NMI"
(R285). -/
def State.interruptAhead (t : State) : Bool :=
  t.nmiPending || (t.cfg.member.hasNmi && nmiEdgeAhead t.pins.nmiLow t.script) ||
  (!t.p.i && t.cfg.member.hasIrq && (t.pins.irqLow || t.script.any (fun inp => inp.pins.irqLow)))

/-- The core is held by RDY, and all that is scripted keeps it so: an empty script changes no line (R285, log 6). -/
def State.heldForEver (t : State) : Bool :=
  t.rdyHolds && !t.pins.resLow &&
  t.script.all (fun inp => inp.pins.rdyLow && !inp.pins.resLow && !inp.edges.res)

/-- Whether the run is over by a convention, after the step from `s` to `t`, the run's `steps`-th (R285). -/
def isHalted (h : HaltConvention) (steps : Nat) (s t : State) : Bool :=
  match h with
  | .selfJump => jumpedToItself s t && !t.interruptAhead
  | .brkFetch => decide (eventOf (sample t) = .instruction) && decide ((busRead .opcode t.pc (sample t)).1 = 0x00)
  | .deviceStore a => t.deviceWrites.any (fun cell => decide (cell.1 = a))
  | .rdyLow => t.heldForEver
  | .budget n => decide (n ≤ steps)

/-- A run that never leaves the model's answers: `k` steps are all next states. -/
def runsFor (k : Nat) (s : State) : Prop :=
  match k with
  | 0 => True
  | k + 1 => ∃ t, step s = .next t ∧ runsFor k t

end Sys2Proof.Machine
end

