-- ==== Sys2Proof/Certificates/Slice0/Obligations.lean ====
section
/-!
DEFINITION. The statements for the provers: what the numbered rules of spec/ say of the encodings, of each family of
instructions, of the interrupts, the reset and the pins, and of the machine as a whole.

`Answers (exec i s) t` says that the instruction completes with the next state `t`, up to the model's own `clock`, `bus`
and `gaps`; whatever `t` does not name is unchanged, so each such statement is also the instruction's frame. Memory is
`t`'s too where the step is the core's own, that is, where no other bus master writes between two of its cycles (R54). A
statement that names a byte of memory has that as its premise: `s.alone`, or for an instruction that writes `s.steady`,
which says besides that RES does not fall inside the step. The premise `s.cfg.runnable` is the one condition for
completing that the platform sets (R61).
-/

open Sys2Proof Sys2Proof.Machine

/-! ## Encoding -/

/-- Decode and encode agree, for every instruction and every operand: the decoder reads back the instruction and
leaves the bytes after it, and the encoding is as long as its mode says (R70, R71, R72, R88). -/
def Obligations.DecodeOfEncodeIsTheInstruction : Prop :=
  ∀ (i : Instr) (rest : List Byte),
    decode (encode i ++ rest) = .ok (i, rest) ∧ (encode i).length = i.length ∧ 1 ≤ i.length ∧ i.length ≤ 3

/-- Each byte string has one meaning: bytes that decode to an instruction are that instruction's encoding (R87). -/
def Obligations.EncodeOfDecodeIsTheBytes : Prop :=
  ∀ (bytes : List Byte) (i : Instr) (rest : List Byte), decode bytes = .ok (i, rest) → bytes = encode i ++ rest

/-- R89: the decoder refuses exactly the 105 undefined opcode bytes, by name, and reads an instruction from every
other opcode byte whatever the operand bytes; the machine refuses an instruction step that meets one. -/
def Obligations.UndefinedOpcodesAreRefused : Prop :=
  (∀ (op : Byte) (rest : List Byte), op ∈ undefinedOpcodes → decode (op :: rest) = .error (.undefinedOpcode op)) ∧
  (∀ (op b1 b2 : Byte), op ∉ undefinedOpcodes → ∃ i rest, decode [op, b1, b2] = .ok (i, rest)) ∧
  (∀ s : State, eventOf (sample s) = .instruction →
    let opcode := (busRead .opcode (sample s).pc { sample s with heldI := none }).1
    opcode ∈ undefinedOpcodes → step s = .refused (.undefinedOpcode opcode))

/-- Bytes written out by hand from R87 and R72, at least one instruction of every family, decode to the instruction
they stand for. -/
def Obligations.HandWrittenBytesDecode : Prop :=
  decode [0xA9, 0x80] = .ok (.ldaImm 0x80, []) ∧
  decode [0x8D, 0x00, 0x02] = .ok (.staAbs 0x0200, []) ∧
  decode [0xB6, 0xF0] = .ok (.ldxZpy 0xF0, []) ∧
  decode [0x9A] = .ok (.txs, []) ∧
  decode [0x71, 0x44] = .ok (.adcIny 0x44, []) ∧
  decode [0xDE, 0x34, 0x12] = .ok (.decAbx 0x1234, []) ∧
  decode [0x2A] = .ok (.rolAcc, []) ∧
  decode [0x2C, 0x20, 0xD0] = .ok (.bitAbs 0xD020, []) ∧
  decode [0x41, 0x0F] = .ok (.eorInx 0x0F, []) ∧
  decode [0xD0, 0xFB] = .ok (.bne 0xFB, []) ∧
  decode [0x6C, 0xFF, 0x02] = .ok (.jmpInd 0x02FF, []) ∧
  decode [0x20, 0x34, 0x12] = .ok (.jsr 0x1234, []) ∧
  decode [0x08, 0x28] = .ok (.php, [0x28]) ∧
  decode [0x00, 0xEA] = .ok (.brk, [0xEA])

/-! ## The step -/

/-- A step runs the decoded instruction: when the boundary calls for an instruction and the bytes of memory at PC decode
to `i`, the step is `exec i` at the state in which the fetch cycles are spent, with the edges of the step settled (R236,
R237, R62, R71); without gaps the fetch spends one cycle for each byte. `n` bytes are looked at, as many as the decoder
needs. -/
def Obligations.StepRunsTheDecodedInstruction : Prop :=
  ∀ (s : State) (n : Nat) (i : Instr) (rest : List Byte), let s1 := sample s
    eventOf s1 = .instruction → s1.alone →
    (∀ k, k < n → s1.isMemory (s1.pc + BitVec.ofNat 16 k)) →
    decode (s1.bytesAt s1.pc n) = .ok (i, rest) →
    ∃ c b g, step s =
        settleResult (writesV i.mnemonic) (exec i { s1 with heldI := none, clock := c, bus := b, gaps := g }) ∧
      g <:+ s1.gaps ∧ (s1.gaps = [] → c = s.clock + fetchCycles i)

/-- With no line active, nothing pending and no input scripted, the step is the instruction and nothing else. -/
def Obligations.UndisturbedStepIsTheInstruction : Prop :=
  ∀ (s : State) (n : Nat) (i : Instr) (rest : List Byte),
    s.undisturbed →
    (∀ k, k < n → s.isMemory (s.pc + BitVec.ofNat 16 k)) →
    decode (s.bytesAt s.pc n) = .ok (i, rest) →
    ∃ b, step s =
      exec i { s with heldI := none, edges := .quiet, gaps := [], clock := s.clock + fetchCycles i, bus := b }

/-! ## Memory -/

/-- A read after a write (R44, R46, R54): a write that reaches memory is read back at every internal address that shares
the bus address, and every other address is left alone; a write at rom, at a device or at nothing changes no memory, and a
device receives the byte. The model's choices: that a write with the drivers of a 6512 off is lost (log 20, one of R60's
two treatments), the record of the cycle (log 9), and that it keeps the core's byte with the drivers off (log 36). -/
def Obligations.ReadAfterWrite : Prop :=
  ∀ (s : State) (k : CycleKind) (a b : Word) (v : Byte), s.steady →
    let ea := a.toNat % 2 ^ s.cfg.member.addrPins
    let t := busWrite k a v s
    (s.lands a → t.memByte b = if b.toNat % 2 ^ s.cfg.member.addrPins = ea then v else s.memByte b) ∧
    (¬ s.lands a → t.mem = s.mem) ∧
    t.bus = ⟨k, ea, v⟩ :: s.bus ∧
    (s.cfg.kindAt ea = .device → s.driversOff = false → k.isWrite = true → t.deviceWrites = (ea, v) :: s.deviceWrites)

/-- A store is seen by the very next instruction fetch (R56): a store instruction that writes the byte PC comes to
point at leaves that byte to be fetched. -/
def Obligations.StoreIsSeenByTheNextFetch : Prop :=
  ∀ (i : Instr) (m : Addr) (s : State), i.operand = .memory m → s.cfg.runnable → s.steady →
    s.lands (storeAddress m s) →
    s.cfg.busAddr (storeAddress m s) = s.cfg.busAddr (s.pc + BitVec.ofNat 16 i.length) →
    (i.mnemonic = .sta → ∃ t, exec i s = .next t ∧ t.dataAt t.pc = s.a) ∧
    (i.mnemonic = .stx → ∃ t, exec i s = .next t ∧ t.dataAt t.pc = s.x) ∧
    (i.mnemonic = .sty → ∃ t, exec i s = .next t ∧ t.dataAt t.pc = s.y)

/-- A 6512 whose DBE is low (R60): no instruction changes memory, and DBE does not stop the core; on any other member DBE
does nothing. R60 offers two treatments, a DBE tied to phase two and writes that are lost; that the level of the pin is an
input and that its writes are lost for the whole step is the model's choice (log 20, DESIGN CHOICE). -/
def Obligations.DbeLowLosesWrites : Prop :=
  ∀ (i : Instr) (s : State),
    (s.driversOff = true ↔ s.cfg.member = .m6512 ∧ s.pins.dbeLow = true) ∧
    (s.driversOff = true → s.cfg.runnable → s.steady → jumpRefused i s = false →
      ∃ t, exec i s = .next t ∧ t.mem = s.mem)

/-! ## Addressing -/

/-- R77, R78: zero page is the byte with a zero high byte, and the indexed forms wrap in page zero; zero page,Y exists
for LDX and STX only; the forms are two bytes long. -/
def Obligations.ZeroPageModesStayInPageZero : Prop :=
  ∀ (use : Use) (z : Byte) (s : State) (i : Instr),
    (resolve use (.zeroPage z) s).1.toNat = z.toNat ∧
    (resolve use (.zeroPageX z) s).1.toNat = (z.toNat + s.x.toNat) % 256 ∧
    (resolve use (.zeroPageY z) s).1.toNat = (z.toNat + s.y.toNat) % 256 ∧
    (i.operand = .memory (.zeroPageY z) → i.mnemonic = .ldx ∨ i.mnemonic = .stx) ∧
    (i.operand = .memory (.zeroPage z) ∨ i.operand = .memory (.zeroPageX z) ∨ i.operand = .memory (.zeroPageY z) →
      i.length = 2)

/-- R79, R80: the index is added to the whole 16-bit base, modulo 65,536; a page is crossed when the high bytes differ;
the forms are three bytes long. -/
def Obligations.AbsoluteIndexedIsTheWholeSum : Prop :=
  ∀ (use : Use) (base : Word) (s : State) (i : Instr),
    (resolve use (.absolute base) s).1 = base ∧
    (resolve use (.absoluteX base) s).1.toNat = (base.toNat + s.x.toNat) % 65536 ∧
    (resolve use (.absoluteY base) s).1.toNat = (base.toNat + s.y.toNat) % 65536 ∧
    (∀ ea, pageCross base ea = true ↔ ea.toNat / 256 ≠ base.toNat / 256) ∧
    (i.operand = .memory (.absolute base) ∨ i.operand = .memory (.absoluteX base) ∨
      i.operand = .memory (.absoluteY base) → i.length = 3)

/-- R81: the pointer of (indirect,X) is at Fetch(1) + X modulo 256, its high byte at the next address of page zero, so
that a pointer at $FF takes its high byte from $0000. -/
def Obligations.IndexedIndirectPointerStaysInPageZero : Prop :=
  ∀ (use : Use) (z : Byte) (s : State),
    let lo : Word := BitVec.ofNat 16 ((z.toNat + s.x.toNat) % 256)
    let hi : Word := BitVec.ofNat 16 ((z.toNat + s.x.toNat + 1) % 256)
    (resolve use (.indirectX z) s).1 = readWord .pointer lo hi (discard (BitVec.ofNat 16 z.toNat) s) ∧
    (s.alone → s.isMemory lo → s.isMemory hi → (resolve use (.indirectX z) s).1 = s.memWord hi lo) ∧
    (Operand.memory (.indirectX z)).length = 2

/-- R82: the base of (indirect),Y is the word at Fetch(1), its high byte at the next address of page zero, and Y is added
to the whole word. -/
def Obligations.IndirectIndexedAddsYToTheWholePointer : Prop :=
  ∀ (use : Use) (z : Byte) (s : State),
    let lo : Word := BitVec.ofNat 16 z.toNat
    let hi : Word := BitVec.ofNat 16 ((z.toNat + 1) % 256)
    (resolve use (.indirectY z) s).1.toNat = ((readWord .pointer lo hi s).toNat + s.y.toNat) % 65536 ∧
    (s.alone → s.isMemory lo → s.isMemory hi →
      (resolve use (.indirectY z) s).1.toNat =
        ((s.memByte hi).toNat * 256 + (s.memByte lo).toNat + s.y.toNat) % 65536 ∧
      (∀ ea, pageCross (s.memWord hi lo) ea = true ↔ ea.toNat / 256 ≠ (s.memByte hi).toNat)) ∧
    (Operand.memory (.indirectY z)).length = 2

/-- Reading an operand (R75, R100): the immediate byte itself, or memory's byte at the effective address. No register,
flag, line or latch changes, and no byte of memory, unless another bus master writes it meanwhile (R54). -/
def Obligations.ReadingAnOperandChangesNothing : Prop :=
  ∀ (src : Source) (s : State), let t := (readSource src s).2
    t = { s with mem := t.mem, clock := t.clock, bus := t.bus, gaps := t.gaps } ∧
    (s.alone → s.agrees t) ∧
    (∀ v, src = .imm v → (readSource src s).1 = v) ∧
    (∀ m, src = .mem m → s.alone → s.isMemory (resolve .load m s).1 →
      (readSource src s).1 = s.memByte (resolve .load m s).1)

/-! ## Loads, stores, transfers -/

/-- LDA, LDX, LDY in every mode: the register takes the operand, N and Z are the operand's, PC moves past the
instruction, nothing else changes (R101, R102, R103, R100). Completion of ldaInx ldaZp ldaImm ldaAbs ldaIny ldaZpx ldaAby
ldaAbx ldxImm ldxZp ldxAbs ldxZpy ldxAby ldyImm ldyZp ldyAbs ldyZpx ldyAbx. -/
def Obligations.LoadsTakeTheOperand : Prop :=
  ∀ (i : Instr) (src : Source) (s : State), i.operand.source = some src → s.cfg.runnable →
    let m := (readSource src s).1
    let next := s.pc + BitVec.ofNat 16 i.length
    (i.mnemonic = .lda → Answers (exec i s) { s with a := m, p := s.p.ofResult m, pc := next }) ∧
    (i.mnemonic = .ldx → Answers (exec i s) { s with x := m, p := s.p.ofResult m, pc := next }) ∧
    (i.mnemonic = .ldy → Answers (exec i s) { s with y := m, p := s.p.ofResult m, pc := next })

/-- STA, STX, STY in every mode: the register's byte is stored at the effective address, every other byte of memory
reads as before, no register or flag changes, PC moves past the instruction (R104, R105, R106). Completion of staInx
staZp staAbs staIny staZpx staAby staAbx stxZp stxAbs stxZpy styZp styAbs styZpx. -/
def Obligations.StoresWriteOneByte : Prop :=
  ∀ (i : Instr) (m : Addr) (s : State), i.operand = .memory m → s.cfg.runnable →
    let t := { s with pc := s.pc + BitVec.ofNat 16 i.length }
    (i.mnemonic = .sta → AnswersStoring (exec i s) t (storeAddress m s) s.a) ∧
    (i.mnemonic = .stx → AnswersStoring (exec i s) t (storeAddress m s) s.x) ∧
    (i.mnemonic = .sty → AnswersStoring (exec i s) t (storeAddress m s) s.y)

/-- The six transfers: the byte moves, N and Z are its, but TXS writes no flag (R107 to R112). Completion of tax tay tsx
txa txs tya. -/
def Obligations.TransfersMoveOneRegister : Prop :=
  ∀ s : State, s.cfg.runnable →
    Answers (exec .tax s) { s with x := s.a, p := s.p.ofResult s.a, pc := s.pc + 1 } ∧
    Answers (exec .tay s) { s with y := s.a, p := s.p.ofResult s.a, pc := s.pc + 1 } ∧
    Answers (exec .tsx s) { s with x := s.sp, p := s.p.ofResult s.sp, pc := s.pc + 1 } ∧
    Answers (exec .txa s) { s with a := s.x, p := s.p.ofResult s.x, pc := s.pc + 1 } ∧
    Answers (exec .txs s) { s with sp := s.x, pc := s.pc + 1 } ∧
    Answers (exec .tya s) { s with a := s.y, p := s.p.ofResult s.y, pc := s.pc + 1 }

/-! ## Arithmetic -/

/-- Binary ADC and SBC in every mode (R121, R124): the sum of A, the operand (SBC: its one's complement) and C modulo
256; C the carry out, V set when both addends have the other sign than the result, N and Z of the result; D, I and
everything else unchanged. Completion of adcInx adcZp adcImm adcAbs adcIny adcZpx adcAby adcAbx sbcInx sbcZp sbcImm sbcAbs
sbcIny sbcZpx sbcAby sbcAbx (D = 0; with D = 1 DecimalAddAndSubtractAlwaysComplete). -/
def Obligations.BinaryAddAndSubtract : Prop :=
  ∀ (i : Instr) (src : Source) (s : State), i.operand.source = some src → s.cfg.runnable → s.p.d = false →
    let m := (readSource src s).1
    let add := fun (m : Byte) =>
      let sum := s.a.toNat + m.toNat + (if s.p.c then 1 else 0)
      let res := BitVec.ofNat 8 sum
      { s with
        a := res
        p := { s.p.ofResult res with c := decide (255 < sum), v := ((s.a ^^^ res) &&& (m ^^^ res)).getLsbD 7 }
        pc := s.pc + BitVec.ofNat 16 i.length }
    (i.mnemonic = .adc → Answers (exec i s) (add m)) ∧
    (i.mnemonic = .sbc → Answers (exec i s) (add (m ^^^ 0xFF)))

/-- R120: after a binary ADC or SBC, C is the unsigned carry or the absence of a borrow, V is set exactly when the true
signed result lies outside -128 to 127, and the result is the true one modulo 256. -/
def Obligations.CarryIsUnsignedAndOverflowIsSigned : Prop :=
  ∀ (i : Instr) (src : Source) (s : State), i.operand.source = some src → s.cfg.runnable → s.p.d = false →
    let m := (readSource src s).1
    let c : Nat := if s.p.c then 1 else 0
    let sum : Int := s.a.toInt + m.toInt + c
    let diff : Int := s.a.toInt - m.toInt - (1 - c : Nat)
    (i.mnemonic = .adc → ∃ t, exec i s = .next t ∧ t.a = BitVec.ofInt 8 sum ∧
      t.p.c = decide (255 < s.a.toNat + m.toNat + c) ∧ t.p.v = decide (sum < -128 ∨ 127 < sum)) ∧
    (i.mnemonic = .sbc → ∃ t, exec i s = .next t ∧ t.a = BitVec.ofInt 8 diff ∧
      t.p.c = decide (m.toNat + (1 - c) ≤ s.a.toNat) ∧ t.p.v = decide (diff < -128 ∨ 127 < diff))

/-- Decimal ADC and SBC of valid BCD bytes (R122, R125, the normative part), under either choice of DECIMAL_FLAGS: A is
the decimal sum or difference modulo 100, C the decimal carry or the absence of a borrow, D and I stay; N, V and Z are
not said here. -/
def Obligations.DecimalAddAndSubtractOfValidBcd : Prop :=
  ∀ (i : Instr) (src : Source) (s : State), i.operand.source = some src → s.cfg.runnable → s.p.d = true →
    let m := (readSource src s).1
    let c : Nat := if s.p.c then 1 else 0
    let dec := fun (b : Byte) => 10 * (b.toNat / 16) + b.toNat % 16
    let sum := dec s.a + dec m + c
    let diff : Int := (dec s.a : Int) - dec m - (1 - c : Nat)
    let bcd := fun (n : Nat) => BitVec.ofNat 8 (n / 10 * 16 + n % 10)
    s.a.toNat / 16 ≤ 9 → s.a.toNat % 16 ≤ 9 → m.toNat / 16 ≤ 9 → m.toNat % 16 ≤ 9 →
    (i.mnemonic = .adc → ∃ n v z, Answers (exec i s) { s with
      a := bcd (sum % 100)
      p := { s.p with n := n, v := v, z := z, c := decide (99 < sum) }
      pc := s.pc + BitVec.ofNat 16 i.length }) ∧
    (i.mnemonic = .sbc → ∃ n v z, Answers (exec i s) { s with
      a := bcd (diff % 100).toNat
      p := { s.p with n := n, v := v, z := z, c := decide (0 ≤ diff) }
      pc := s.pc + BitVec.ofNat 16 i.length })

/-- Decimal ADC and SBC of any bytes, valid BCD or not, complete: only A, N, V, Z, C and PC change (R122, R125, D8). Under
DECIMAL_FLAGS = nmos_exact all five are those of the algorithm of R122 (ADC: A, N, V, C of the decimal sum, Z of the binary
one) or of R125 (SBC: A by the algorithm, the flags of the binary subtraction), for every operand. The values under `draw`
are free values, of which nothing is said; that C is one of them for SBC of invalid BCD is the model's reading (log 13). -/
def Obligations.DecimalAddAndSubtractAlwaysComplete : Prop :=
  ∀ (i : Instr) (src : Source) (s : State), i.operand.source = some src → s.cfg.runnable → s.p.d = true →
    i.mnemonic = .adc ∨ i.mnemonic = .sbc →
    let m := (readSource src s).1
    let c : Nat := if s.p.c then 1 else 0
    let high := fun (b : Byte) => b.toNat / 16 * 16
    let low := fun (b : Byte) => b.toNat % 16
    let signed := fun (n : Nat) => if n < 128 then (n : Int) else (n : Int) - 256
    ∃ r n v z k, Answers (exec i s) { s with
        a := r
        p := { s.p with n := n, v := v, z := z, c := k }
        pc := s.pc + BitVec.ofNat 16 i.length } ∧
      (s.cfg.decimalFlags = .nmosExact → i.mnemonic = .adc →
        let al := if 10 ≤ low s.a + low m + c then (low s.a + low m + c + 6) % 16 + 16 else low s.a + low m + c
        let sum := high s.a + high m + al
        let adjusted := if 0xA0 ≤ sum then sum + 0x60 else sum
        let signedSum := signed (high s.a) + signed (high m) + al
        r = BitVec.ofNat 8 adjusted ∧ n = decide (128 ≤ sum % 256) ∧
        v = decide (signedSum < -128 ∨ 127 < signedSum) ∧ k = decide (256 ≤ adjusted) ∧
        z = decide ((s.a.toNat + m.toNat + c) % 256 = 0)) ∧
      (s.cfg.decimalFlags = .nmosExact → i.mnemonic = .sbc →
        let al0 : Int := (low s.a : Int) - low m + c - 1
        let al := if al0 < 0 then (al0 - 6) % 16 - 16 else al0
        let diff := (high s.a : Int) - high m + al
        let bin := s.a.toNat + (255 - m.toNat) + c
        r = BitVec.ofInt 8 (if diff < 0 then diff - 0x60 else diff) ∧
        k = decide (255 < bin) ∧ z = decide (bin % 256 = 0) ∧ n = decide (128 ≤ bin % 256) ∧
        v = ((s.a ^^^ m) &&& (s.a ^^^ BitVec.ofNat 8 bin)).getLsbD 7)

/-- R129, for CMP, CPX and CPY in every mode: C is the unsigned comparison, Z equality, N bit 7 of the difference; V, D, I
and every register but PC stay, whatever D is. Completion of cmpInx cmpZp cmpImm cmpAbs cmpIny cmpZpx cmpAby cmpAbx cpxImm
cpxZp cpxAbs cpyImm cpyZp cpyAbs. -/
def Obligations.ComparesWriteCarryZeroNegative : Prop :=
  ∀ (i : Instr) (src : Source) (s : State), i.operand.source = some src → s.cfg.runnable →
    let m := (readSource src s).1
    let compared := fun (r : Byte) => { s with
      p := { s.p with c := decide (m.toNat ≤ r.toNat), z := decide (r.toNat = m.toNat),
                      n := decide (128 ≤ (r.toNat + 256 - m.toNat) % 256) }
      pc := s.pc + BitVec.ofNat 16 i.length }
    (i.mnemonic = .cmp → Answers (exec i s) (compared s.a)) ∧
    (i.mnemonic = .cpx → Answers (exec i s) (compared s.x)) ∧
    (i.mnemonic = .cpy → Answers (exec i s) (compared s.y))

/-- DEX, DEY, INX, INY: one more or one less modulo 256, with N and Z; C, V, D, I stay (R131, R132, R134, R135).
Completion of dex dey inx iny. -/
def Obligations.IndexIncrementAndDecrement : Prop :=
  ∀ s : State, s.cfg.runnable →
    Answers (exec .dex s) { s with x := s.x - 1, p := s.p.ofResult (s.x - 1), pc := s.pc + 1 } ∧
    Answers (exec .dey s) { s with y := s.y - 1, p := s.p.ofResult (s.y - 1), pc := s.pc + 1 } ∧
    Answers (exec .inx s) { s with x := s.x + 1, p := s.p.ofResult (s.x + 1), pc := s.pc + 1 } ∧
    Answers (exec .iny s) { s with y := s.y + 1, p := s.p.ofResult (s.y + 1), pc := s.pc + 1 }

/-- The six read-modify-write instructions in every memory mode (R130, R133, R155 to R159): the byte at the effective
address is replaced, every other byte of memory reads as before, N and Z are the result's, C is the bit shifted out
(INC and DEC leave it), V, D, I and every register but PC stay. Completion of incZp incAbs incZpx incAbx decZp decAbs
decZpx decAbx aslZp aslAbs aslZpx aslAbx lsrZp lsrAbs lsrZpx lsrAbx rolZp rolAbs rolZpx rolAbx rorZp rorAbs rorZpx
rorAbx. -/
def Obligations.ReadModifyWriteReplacesOneByte : Prop :=
  ∀ (i : Instr) (m : Addr) (s : State), i.operand = .memory m → s.cfg.runnable →
    let v := rmwOperand m s
    let carry : Nat := if s.p.c then 1 else 0
    let stores := fun (res : Byte) (c : Bool) =>
      AnswersStoring (exec i s)
        { s with p := { s.p.ofResult res with c := c }, pc := s.pc + BitVec.ofNat 16 i.length } (storeAddress m s) res
    (i.mnemonic = .inc → stores (v + 1) s.p.c) ∧
    (i.mnemonic = .dec → stores (v - 1) s.p.c) ∧
    (i.mnemonic = .asl → stores (BitVec.ofNat 8 (v.toNat * 2)) (decide (128 ≤ v.toNat))) ∧
    (i.mnemonic = .lsr → stores (BitVec.ofNat 8 (v.toNat / 2)) (decide (v.toNat % 2 = 1))) ∧
    (i.mnemonic = .rol → stores (BitVec.ofNat 8 (v.toNat * 2 + carry)) (decide (128 ≤ v.toNat))) ∧
    (i.mnemonic = .ror → stores (BitVec.ofNat 8 (v.toNat / 2 + carry * 128)) (decide (v.toNat % 2 = 1)))

/-- R159: the last three bus cycles of a read-modify-write are the read of the old byte, its write back, and the write of
the result of the operation, all at the effective address, whether memory, a device or nothing answers there. -/
def Obligations.ReadModifyWriteWritesTwice : Prop :=
  ∀ (i : Instr) (m : Addr) (s : State), i.operand = .memory m → s.cfg.runnable → s.edges.res = false →
    let ea := s.cfg.busAddr (storeAddress m s)
    let v := rmwOperand m s
    let carry : Nat := if s.p.c then 1 else 0
    let ends := fun (res : Byte) => ∃ t, exec i s = .next t ∧
      t.bus.take 3 = [⟨.write false, ea, res⟩, ⟨.write false, ea, v⟩, ⟨.read false, ea, v⟩]
    (i.mnemonic = .inc → ends (v + 1)) ∧
    (i.mnemonic = .dec → ends (v - 1)) ∧
    (i.mnemonic = .asl → ends (BitVec.ofNat 8 (v.toNat * 2))) ∧
    (i.mnemonic = .lsr → ends (BitVec.ofNat 8 (v.toNat / 2))) ∧
    (i.mnemonic = .rol → ends (BitVec.ofNat 8 (v.toNat * 2 + carry))) ∧
    (i.mnemonic = .ror → ends (BitVec.ofNat 8 (v.toNat / 2 + carry * 128)))

/-! ## Logic, bit test, shifts of the accumulator -/

/-- AND, EOR, ORA in every mode: bit by bit on A and the operand, N and Z of the result, nothing else (R151, R153, R154).
Completion of andInx andZp andImm andAbs andIny andZpx andAby andAbx eorInx eorZp eorImm eorAbs eorIny eorZpx eorAby
eorAbx oraInx oraZp oraImm oraAbs oraIny oraZpx oraAby oraAbx. -/
def Obligations.LogicWorksBitByBit : Prop :=
  ∀ (i : Instr) (src : Source) (s : State), i.operand.source = some src → s.cfg.runnable →
    let m := (readSource src s).1
    let makes := fun (f : Bool → Bool → Bool) =>
      ∃ res : Byte, (∀ k, k < 8 → res.getLsbD k = f (s.a.getLsbD k) (m.getLsbD k)) ∧
        Answers (exec i s) { s with a := res, p := s.p.ofResult res, pc := s.pc + BitVec.ofNat 16 i.length }
    (i.mnemonic = .and → makes (fun x y => x && y)) ∧
    (i.mnemonic = .eor → makes (fun x y => x ^^ y)) ∧
    (i.mnemonic = .ora → makes (fun x y => x || y))

/-- BIT: N and V are the bits 7 and 6 of the operand, Z says that A and the operand share no bit; A, C, D, I and memory
stay (R152). Completion of bitZp bitAbs. -/
def Obligations.BitTestsTheOperand : Prop :=
  ∀ (i : Instr) (src : Source) (s : State), i.operand.source = some src → s.cfg.runnable → i.mnemonic = .bit →
    let m := (readSource src s).1
    Answers (exec i s) { s with
      p := { s.p with n := m.getLsbD 7, v := m.getLsbD 6, z := decide (s.a &&& m = 0) }
      pc := s.pc + BitVec.ofNat 16 i.length }

/-- ASL, LSR, ROL, ROR of the accumulator: A moves one bit, C is the bit that leaves, N and Z are the result's; LSR's N is
0 and ROR's N is the old C (R155 to R158, R74). Completion of aslAcc lsrAcc rolAcc rorAcc. -/
def Obligations.AccumulatorShiftsAndRotates : Prop :=
  ∀ s : State, s.cfg.runnable →
    let v := s.a.toNat
    let carry : Nat := if s.p.c then 1 else 0
    let becomes := fun (i : Instr) (res : Byte) (n c : Bool) =>
      Answers (exec i s) { s with a := res, p := { s.p.ofResult res with n := n, c := c }, pc := s.pc + 1 }
    becomes .aslAcc (BitVec.ofNat 8 (v * 2)) (decide (64 ≤ v % 128)) (decide (128 ≤ v)) ∧
    becomes .lsrAcc (BitVec.ofNat 8 (v / 2)) false (decide (v % 2 = 1)) ∧
    becomes .rolAcc (BitVec.ofNat 8 (v * 2 + carry)) (decide (64 ≤ v % 128)) (decide (128 ≤ v)) ∧
    becomes .rorAcc (BitVec.ofNat 8 (v / 2 + carry * 128)) s.p.c (decide (v % 2 = 1))

/-! ## Branches, jumps, subroutines -/

/-- The eight branches (R84, R170 to R179): with the condition true PC is the next instruction's address plus the signed
offset, modulo 65,536, otherwise the next instruction's address; nothing else changes. Completion of bcc bcs beq bmi bne
bpl bvc bvs. -/
def Obligations.BranchesGoToTheSignedOffset : Prop :=
  ∀ (off : Byte) (s : State), s.cfg.runnable →
    ∀ branch ∈ [(Instr.bcc off, !s.p.c), (.bcs off, s.p.c), (.beq off, s.p.z), (.bmi off, s.p.n),
        (.bne off, !s.p.z), (.bpl off, !s.p.n), (.bvc off, !s.p.v), (.bvs off, s.p.v)],
      Answers (exec branch.1 s)
        { s with pc := if branch.2 then BitVec.ofInt 16 (s.pc.toNat + 2 + off.toInt) else s.pc + 2 }

/-- JMP absolute goes to its address; JMP (indirect) goes to the word at its pointer, whose high byte is at the next
location (R180, R76, R85), and with the pointer on the last byte of a page JMP_IND_WRAP decides (R181): the first byte of
the same page, which D7 takes as the default against the source's literal words (log 12), the next location, or the
refusal. Nothing but PC changes. Completion of jmpAbs jmpInd. -/
def Obligations.JumpsAndTheIndirectPointer : Prop :=
  ∀ (addr ptr : Word) (s : State), s.cfg.runnable →
    let goesTo := fun (high : Word) =>
      Answers (exec (.jmpInd ptr) s) { s with pc := readWord .pointer ptr high s }
    Answers (exec (.jmpAbs addr) s) { s with pc := addr } ∧
    (ptr.toNat % 256 ≠ 255 → goesTo (ptr + 1)) ∧
    (ptr.toNat % 256 = 255 → s.cfg.jmpIndWrap = .pageWrap → goesTo (ptr - 255)) ∧
    (ptr.toNat % 256 = 255 → s.cfg.jmpIndWrap = .carry → goesTo (ptr + 1)) ∧
    (ptr.toNat % 256 = 255 → s.cfg.jmpIndWrap = .refuse →
      exec (.jmpInd ptr) s = .refused (.jumpPointerAtPageEnd ptr))

/-- JSR (R183): the address of its third byte is pushed, high byte first; the third byte is fetched after the pushes and
with the second byte makes the new PC, so that PC is `addr` unless the pushes overwrote that third byte; A, X, Y, P and
every other byte of memory stay. Completion of jsr. -/
def Obligations.JsrPushesItsLastByteAddress : Prop :=
  ∀ (addr : Word) (s : State), s.cfg.runnable → s.steady → s.isMemory (s.pc + 2) →
    ∃ u, exec (.jsr addr) s = .next u ∧
      u = { s with sp := s.sp - 2, pc := word (u.memByte (s.pc + 2)) (loByte addr), mem := u.mem, clock := u.clock,
                   bus := u.bus, gaps := u.gaps } ∧
      PushedOnto s u [hiByte (s.pc + 2), loByte (s.pc + 2)] ∧
      (s.memByte (s.pc + 2) = hiByte addr → s.cfg.busAddr (s.pc + 2) ≠ s.cfg.busAddr (stackAddr s.sp) →
        s.cfg.busAddr (s.pc + 2) ≠ s.cfg.busAddr (stackAddr (s.sp - 1)) → u.pc = addr)

/-- RTS (R184): the pulled word, low byte first, plus 1; S two higher; nothing else changes. Completion of rts. -/
def Obligations.RtsReturnsPastThePulledAddress : Prop :=
  ∀ s : State, s.cfg.runnable → s.alone → s.isMemory (stackAddr (s.sp + 1)) → s.isMemory (stackAddr (s.sp + 2)) →
    Answers (exec .rts s)
      { s with sp := s.sp + 2, pc := s.memWord (stackAddr (s.sp + 2)) (stackAddr (s.sp + 1)) + 1 }

/-- JSR followed by RTS is the identity on control flow, whatever the subroutine did, if it leaves S and the two
return bytes as it found them (R183, R184; R185, which the spec derives from these two). -/
def Obligations.JsrThenRtsComesBack : Prop :=
  ∀ (addr : Word) (s : State), s.cfg.runnable → s.steady → s.lands (stackAddr s.sp) →
    s.lands (stackAddr (s.sp - 1)) →
    ∃ t, exec (.jsr addr) s = .next t ∧
      ∀ u, u.cfg = t.cfg → u.alone → u.sp = t.sp →
        u.memByte (stackAddr s.sp) = t.memByte (stackAddr s.sp) →
        u.memByte (stackAddr (s.sp - 1)) = t.memByte (stackAddr (s.sp - 1)) →
        ∃ w, exec .rts u = .next w ∧ w.pc = s.pc + 3 ∧ w.sp = s.sp

/-! ## Stack, flags, break, return -/

/-- PHA and PHP (R200, R201, R15, R18): one byte at $0100 + S, S one lower modulo 256, no flag or register else; the
byte of PHP has bits 5 and 4 set and the six flags in their places. Completion of pha php. -/
def Obligations.PushesWriteTheStackPage : Prop :=
  ∀ s : State, s.cfg.runnable →
    let pushes := fun (i : Instr) (v : Byte) =>
      ∃ u, exec i s = .next u ∧
        u = { s with sp := s.sp - 1, pc := s.pc + 1, mem := u.mem, clock := u.clock, bus := u.bus, gaps := u.gaps } ∧
        (s.steady → PushedOnto s u [v])
    let bit := fun (b : Bool) => if b then 1 else 0
    (stackAddr s.sp).toNat = 256 + s.sp.toNat ∧ pushes .pha s.a ∧
    pushes .php (BitVec.ofNat 8 (bit s.p.n * 128 + bit s.p.v * 64 + 32 + 16 + bit s.p.d * 8 + bit s.p.i * 4 +
      bit s.p.z * 2 + bit s.p.c))

/-- PLA and PLP (R202, R203, R15, R18): S one higher modulo 256, the byte at $0100 + S; PLA writes A, N and Z; PLP writes
the six flags from bits 7, 6, 3, 2, 1, 0 and ignores bits 5 and 4. The field `heldI` keeps the old I for the IRQ test
(R238). Completion of pla plp. -/
def Obligations.PullsReadTheStackPage : Prop :=
  ∀ s : State, s.cfg.runnable → s.alone → s.isMemory (stackAddr (s.sp + 1)) →
    let v := s.memByte (stackAddr (s.sp + 1))
    Answers (exec .pla s) { s with a := v, p := s.p.ofResult v, sp := s.sp + 1, pc := s.pc + 1 } ∧
    Answers (exec .plp s) { s with
      p := { n := v.getLsbD 7, v := v.getLsbD 6, d := v.getLsbD 3, i := v.getLsbD 2, z := v.getLsbD 1,
             c := v.getLsbD 0 }
      heldI := some s.p.i, sp := s.sp + 1, pc := s.pc + 1 }

/-- The seven flag instructions each write one flag, and NOP writes nothing but PC (R204 to R211). CLI and SEI leave
the old I in `heldI` for the IRQ test (R238). Completion of clc cld cli clv sec sed sei nop. -/
def Obligations.FlagInstructionsWriteOneFlag : Prop :=
  ∀ s : State, s.cfg.runnable →
    Answers (exec .clc s) { s with p := { s.p with c := false }, pc := s.pc + 1 } ∧
    Answers (exec .cld s) { s with p := { s.p with d := false }, pc := s.pc + 1 } ∧
    Answers (exec .cli s) { s with p := { s.p with i := false }, heldI := some s.p.i, pc := s.pc + 1 } ∧
    Answers (exec .clv s) { s with p := { s.p with v := false }, pc := s.pc + 1 } ∧
    Answers (exec .sec s) { s with p := { s.p with c := true }, pc := s.pc + 1 } ∧
    Answers (exec .sed s) { s with p := { s.p with d := true }, pc := s.pc + 1 } ∧
    Answers (exec .sei s) { s with p := { s.p with i := true }, heldI := some s.p.i, pc := s.pc + 1 } ∧
    Answers (exec .nop s) { s with pc := s.pc + 1 }

/-- BRK (R212): PC + 2 pushed high byte first, then the status byte with bits 5 and 4 set and the old I; I set; PC from the
vector at $FFFE; D and the rest stay. It is not masked. No NMI edge falls inside it (with one, see
NmiEdgeInsideASequence). Completion of brk. -/
def Obligations.BreakTakesTheIrqVector : Prop :=
  ∀ s : State, s.cfg.runnable → s.steady → s.edges.nmi = false → s.isMemory 0xFFFE → s.isMemory 0xFFFF →
    let bit := fun (b : Bool) => if b then 1 else 0
    ∃ u, exec .brk s = .next u ∧
      u = { s with sp := s.sp - 3, pc := u.memWord 0xFFFF 0xFFFE, p := { s.p with i := true }, heldI := none,
                   mem := u.mem, clock := u.clock, bus := u.bus, gaps := u.gaps } ∧
      PushedOnto s u [hiByte (s.pc + 2), loByte (s.pc + 2),
        BitVec.ofNat 8 (bit s.p.n * 128 + bit s.p.v * 64 + 32 + 16 + bit s.p.d * 8 + bit s.p.i * 4 + bit s.p.z * 2 +
          bit s.p.c)]

/-- RTI (R213): the six flags from the pulled byte, then PC from the pulled word with nothing added; S three higher.
Completion of rti. -/
def Obligations.RtiPullsStatusThenAddress : Prop :=
  ∀ s : State, s.cfg.runnable → s.alone → s.isMemory (stackAddr (s.sp + 1)) → s.isMemory (stackAddr (s.sp + 2)) →
    s.isMemory (stackAddr (s.sp + 3)) →
    let v := s.memByte (stackAddr (s.sp + 1))
    Answers (exec .rti s) { s with
      p := { n := v.getLsbD 7, v := v.getLsbD 6, d := v.getLsbD 3, i := v.getLsbD 2, z := v.getLsbD 1,
             c := v.getLsbD 0 }
      sp := s.sp + 3
      pc := s.memWord (stackAddr (s.sp + 3)) (stackAddr (s.sp + 2)) }

/-- RTI undoes the entry of an interrupt and of a break (R244, R213): whatever the handler did, if it leaves S and the
three bytes as it found them, RTI restores S and all six flags and goes to the interrupted instruction, after BRK to the
address of BRK plus 2. -/
def Obligations.RtiResumesWhereInterrupted : Prop :=
  ∀ s : State, s.cfg.runnable → s.steady →
    s.lands (stackAddr s.sp) → s.lands (stackAddr (s.sp - 1)) → s.lands (stackAddr (s.sp - 2)) →
    ∀ entry ∈ [(finish (takeNmi s), s.pc), (finish (takeIrq s), s.pc), (exec .brk s, s.pc + 2)],
      ∃ t, entry.1 = .next t ∧ t.a = s.a ∧ t.x = s.x ∧ t.y = s.y ∧ t.p = { s.p with i := true } ∧
        ∀ u, u.cfg = t.cfg → u.alone → u.sp = t.sp →
          (∀ k, k < 3 → u.memByte (stackAddr (s.sp - BitVec.ofNat 8 k)) =
            t.memByte (stackAddr (s.sp - BitVec.ofNat 8 k))) →
          ∃ w, exec .rti u = .next w ∧ w.pc = entry.2 ∧ w.p = s.p ∧ w.sp = s.sp

/-! ## Interrupts -/

/-- R237, R239, R270, R274: what comes next at a boundary. RES low: nothing runs. RDY low: the core is held, also before
the reset sequence. A reset sequence that is due, RES having been low. Then NMI, then IRQ if the mask lets it, then the next
instruction. That a reset sequence is due from the moment RES has been low is what the environment's move leaves. -/
def Obligations.BoundaryRule : Prop :=
  ∀ s : State,
    (sample s).resetDue = (s.resetDue || s.pins.resLow) ∧
    (s.pins.resLow = true → eventOf s = .inReset) ∧
    (s.pins.resLow = false →
      (s.cfg.member.hasRdy = true ∧ s.pins.rdyLow = true → eventOf s = .held) ∧
      (¬ (s.cfg.member.hasRdy = true ∧ s.pins.rdyLow = true) →
        (s.resetDue = true → eventOf s = .reset) ∧
        (s.resetDue = false →
          (s.nmiPending = true → eventOf s = .nmi) ∧
          (s.nmiPending = false →
            (s.cfg.member.hasIrq = true ∧ s.pins.irqLow = true ∧ s.iEffective = false → eventOf s = .irq) ∧
            (¬ (s.cfg.member.hasIrq = true ∧ s.pins.irqLow = true ∧ s.iEffective = false) →
              eventOf s = .instruction)))))

/-- NMI entry (R240, R241): taken whatever the mask and the IRQ line, the latch cleared, PC and the status byte with bit 5
set and bit 4 clear pushed, I set, PC from $FFFA; A, X, Y, N, V, D, Z, C stay; seven cycles where RDY does not halt it. -/
def Obligations.NmiEntry : Prop :=
  ∀ s : State, let s1 := sample s
    s1.cfg.runnable → s1.pins.resLow = false → s1.rdyHolds = false → s1.resetDue = false → s1.nmiPending = true →
    s1.edges = .quiet → s1.alone → s1.isMemory 0xFFFA → s1.isMemory 0xFFFB →
    let bit := fun (b : Bool) => if b then 1 else 0
    ∃ u, step s = .next u ∧
      u = { s1 with sp := s1.sp - 3, pc := u.memWord 0xFFFB 0xFFFA, p := { s1.p with i := true }, nmiPending := false,
                    heldI := none, mem := u.mem, clock := u.clock, bus := u.bus, gaps := [] } ∧
      PushedOnto s1 u [hiByte s1.pc, loByte s1.pc,
        BitVec.ofNat 8 (bit s1.p.n * 128 + bit s1.p.v * 64 + 32 + 0 + bit s1.p.d * 8 + bit s1.p.i * 4 + bit s1.p.z * 2 +
          bit s1.p.c)] ∧
      (s1.gaps = [] → u.clock = s.clock + 7)

/-- IRQ entry (R242, R241): with the line low, the mask clear and no NMI pending, PC and the status byte with bit 5 set and
bit 4 clear are pushed, I is set, PC comes from $FFFE; the line is not changed by the core; seven cycles where RDY does not
halt it. -/
def Obligations.IrqEntry : Prop :=
  ∀ s : State, let s1 := sample s
    s1.cfg.runnable → s1.pins.resLow = false → s1.rdyHolds = false → s1.resetDue = false → s1.nmiPending = false →
    s1.irqAsserted = true → s1.iEffective = false →
    s1.edges = .quiet → s1.alone → s1.isMemory 0xFFFE → s1.isMemory 0xFFFF →
    let bit := fun (b : Bool) => if b then 1 else 0
    ∃ u, step s = .next u ∧
      u = { s1 with sp := s1.sp - 3, pc := u.memWord 0xFFFF 0xFFFE, p := { s1.p with i := true }, heldI := none,
                    mem := u.mem, clock := u.clock, bus := u.bus, gaps := [] } ∧
      PushedOnto s1 u [hiByte s1.pc, loByte s1.pc,
        BitVec.ofNat 8 (bit s1.p.n * 128 + bit s1.p.v * 64 + 32 + 0 + bit s1.p.d * 8 + bit s1.p.i * 4 + bit s1.p.z * 2 +
          bit s1.p.c)] ∧
      (s1.gaps = [] → u.clock = s.clock + 7)

/-- The value of I the IRQ test uses (R238, D11). After CLI, SEI and PLP it is the old I under IRQ_POLL_I = old, the new
one under `new`, and under `either` the one that a free value chooses; after every other instruction, RTI included, it is I
as it is now. That the old I is kept in `heldI` is the model's way (log 14). -/
def Obligations.IrqTestAfterCliSeiPlp : Prop :=
  ∀ (i : Instr) (s t : State), exec i { s with heldI := none } = .next t →
    (i.mnemonic ∈ [Mnemonic.cli, .sei, .plp] →
      (s.cfg.irqPollI = .old → t.iEffective = s.p.i) ∧ (s.cfg.irqPollI = .new → t.iEffective = t.p.i) ∧
      (s.cfg.irqPollI = .either → t.iEffective = if Config.pollsOldI t.clock then s.p.i else t.p.i)) ∧
    (i.mnemonic ∉ [Mnemonic.cli, .sei, .plp] → t.iEffective = t.p.i)

/-- An NMI edge inside a BRK or inside an IRQ entry (R246, D19). The pushes are those of the sequence itself; then either PC
comes from $FFFE and the NMI is pending, or PC comes from $FFFA and the latch is clear. Which of the two happens is a free
value (log 15), so that nothing says one of them never does. -/
def Obligations.NmiEdgeInsideASequence : Prop :=
  ∀ s : State, s.cfg.runnable → s.steady → s.cfg.member.hasNmi = true → s.edges.nmi = true →
    s.nmiPending = false → s.isMemory 0xFFFA → s.isMemory 0xFFFB → s.isMemory 0xFFFE → s.isMemory 0xFFFF →
    let bit := fun (b : Bool) => if b then 1 else 0
    let status := fun (brk : Nat) => BitVec.ofNat 8 (bit s.p.n * 128 + bit s.p.v * 64 + 32 + brk * 16 + bit s.p.d * 8 +
      bit s.p.i * 4 + bit s.p.z * 2 + bit s.p.c)
    ∀ entry ∈ [(exec .brk s, s.pc + 2, 1), (finish (takeIrq s), s.pc, 0)],
      ∃ u, settleResult false entry.1 = .next u ∧ u.sp = s.sp - 3 ∧ u.p.i = true ∧
        PushedOnto s u [hiByte entry.2.1, loByte entry.2.1, status entry.2.2] ∧
        ((u.pc = u.memWord 0xFFFF 0xFFFE ∧ u.nmiPending = true) ∨
         (u.pc = u.memWord 0xFFFB 0xFFFA ∧ u.nmiPending = false))

/-- The NMI latch (R25). Between two steps: a negative edge of the line sets it, a line that stays low makes no second
request, and without an edge, or on a member without the pin, it stays. Through a step: it stays while RES is low; a held
cycle keeps it or sets it by an edge of its own; the NMI entry leaves it clear but for an edge of its own; the reset sequence
clears it; an IRQ entry without an edge and an instruction find it clear, and an edge inside the instruction sets it. An edge
inside BRK or an IRQ entry is NmiEdgeInsideASequence's; one inside the reset sequence is left open (log 31). That an edge
inside a step is heard at its end is the model's choice (log 31). -/
def Obligations.NmiLatchIsSetByTheEdge : Prop :=
  (∀ (s : State) (inp : Inputs) (rest : List Inputs), s.script = inp :: rest →
    (s.cfg.member.hasNmi = true → s.pins.nmiLow = false → inp.pins.nmiLow = true → (sample s).nmiPending = true) ∧
    (s.pins.nmiLow = true ∨ inp.pins.nmiLow = false ∨ s.cfg.member.hasNmi = false →
      (sample s).nmiPending = s.nmiPending)) ∧
  (∀ s t : State, step s = .next t →
    let s1 := sample s
    let edge := s.cfg.member.hasNmi && s1.edges.nmi
    (eventOf s1 = .inReset → t.nmiPending = s1.nmiPending) ∧
    (eventOf s1 = .held → t.nmiPending = (s1.nmiPending || edge)) ∧
    (eventOf s1 = .reset → edge = false → t.nmiPending = false) ∧
    (eventOf s1 = .nmi → t.nmiPending = edge) ∧
    (eventOf s1 = .irq → edge = false → s1.nmiPending = false ∧ t.nmiPending = false) ∧
    (eventOf s1 = .instruction → ∀ i s2, fetch { s1 with heldI := none } = .ok (i, s2) → i ≠ .brk ∨ edge = false →
      s1.nmiPending = false ∧ t.nmiPending = edge))

/-- R27: a negative edge on S.O., where the member has the pin and the platform drives it, sets V: between two
instructions always; inside an instruction always if the instruction does not write V, and otherwise V is the
instruction's value or 1. Where S.O. is not heard, an edge does nothing. -/
def Obligations.SetOverflowPin : Prop :=
  (∀ (s : State) (inp : Inputs) (rest : List Inputs), s.script = inp :: rest →
    (s.hearsSo = true ∧ s.pins.soLow = false ∧ inp.pins.soLow = true → (sample s).p.v = true) ∧
    (¬ (s.hearsSo = true ∧ s.pins.soLow = false ∧ inp.pins.soLow = true) → (sample s).p.v = s.p.v)) ∧
  (∀ (s s2 u : State) (i : Instr), eventOf (sample s) = .instruction →
    fetch { sample s with heldI := none } = .ok (i, s2) → exec i s2 = .next u →
    ∃ t, step s = .next t ∧
      (s.hearsSo = true → (sample s).edges.so = true → writesV i.mnemonic = false → t.p.v = true) ∧
      (s.hearsSo = true → (sample s).edges.so = true → t.p.v = true ∨ t.p.v = u.p.v) ∧
      (s.hearsSo = false ∨ (sample s).edges.so = false → t.p.v = u.p.v))

/-- R28, R57, R59: while RDY holds the core at an opcode fetch no register, flag or memory location changes, neither NMI nor
IRQ is recognised, and a reset sequence that is due has to wait (R274). -/
def Obligations.RdyLowHoldsTheCore : Prop :=
  ∀ s : State, let s1 := sample s
    s1.pins.resLow = false → s1.rdyHolds = true → s1.edges = .quiet →
      ∃ c b, step s = .next { s1 with clock := c, bus := b, gaps := [] }

/-- RDY low inside an instruction or a sequence (R57, R58, R294). At a read cycle the core repeats that cycle, the address
held, for as long as RDY is low; a write cycle ignores it. And on a platform of ram and rom a step that RDY halts, wherever
and for however long, ends in the state it ends in without, but for the clock and the record, as long as no other bus master
writes, no edge falls inside it and it draws no decimal result. That the halts of a step are given cycle by cycle, and that
the repeated cycles stand in the record, is the model's choice (log 18). -/
def Obligations.RdyInsideAStepOnlyCostsTime : Prop :=
  (∀ (s : State) (k : CycleKind) (a : Word) (v : Byte) (gap : Gap) (rest : List Gap), s.gaps = gap :: rest →
    s.cfg.member.hasRdy = true →
    let t := (busRead k a s).2
    t.clock = s.clock + gap.waits + 1 ∧ t.gaps = rest ∧ t.bus.drop (gap.waits + 1) = s.bus ∧
    (t.bus.take (gap.waits + 1)).map (fun cycle => (cycle.kind, cycle.addr)) =
      List.replicate (gap.waits + 1) (k, s.cfg.busAddr a) ∧
    (busWrite k a v s).clock = s.clock + 1) ∧
  (∀ (s t : State) (inp : Inputs) (rest : List Inputs) (gaps : List Gap), s.script = inp :: rest → inp.edges = .quiet →
    (∀ gap ∈ gaps, gap.dma = []) → s.cfg.runnable → (∀ a, s.isMemory a) →
    s.cfg.decimalFlags = .nmosExact ∨ s.p.d = false →
    step { s with script := { inp with gaps := [] } :: rest } = .next t →
    ∃ c b, step { s with script := { inp with gaps := gaps } :: rest } = .next { t with clock := c, bus := b })

/-! ## Reset -/

/-- R271: while RES is low no instruction runs, no interrupt is taken and memory is not written by the core. -/
def Obligations.ResLowStopsTheCore : Prop :=
  ∀ s : State, (sample s).pins.resLow = true →
    ∃ c, step s = .next { sample s with edges := .quiet, gaps := [], clock := c }

/-- The reset sequence (R270): once RES is high again, and RDY with it, whatever the flags and whatever was pending, I is
set, the NMI latch is clear, PC comes from $FFFC/$FFFD, and no memory write is made; the other registers are not said (R31).
It takes seven cycles where RDY does not halt it: the source says six and then the vector load, R274 and R290 count seven from
general knowledge (C15). -/
def Obligations.ResetSequenceStartsAtTheVector : Prop :=
  ∀ s : State, let s1 := sample s
    s1.cfg.runnable → s.pins.resLow = true ∨ s.resetDue = true → s1.pins.resLow = false → s1.rdyHolds = false →
    s1.edges = .quiet → s1.alone → s1.isMemory 0xFFFC → s1.isMemory 0xFFFD →
    ∃ u, step s = .next u ∧ u.p.i = true ∧ u.nmiPending = false ∧ u.pc = s1.memWord 0xFFFD 0xFFFC ∧
      u.mem = s1.mem ∧ u.cfg = s1.cfg ∧ u.pins = s1.pins ∧ u.resetDue = false ∧
      (∀ cycle ∈ u.bus, cycle.kind.isWrite = false) ∧ (s1.gaps = [] → u.clock = s.clock + 7)

/-- R31: the state right after reset has I set, the NMI latch clear and PC at the word of the reset vector. -/
def Obligations.ResetStateHasTheSpecsValues : Prop :=
  State.reset.p.i = true ∧ State.reset.nmiPending = false ∧ State.reset.pc = State.reset.memWord 0xFFFD 0xFFFC

/-- R273, R29: RES falling inside an instruction, seen beside the same instruction with no fall of RES. RES is low
afterwards; each bus address holds its old byte or the byte the instruction would have left there; and the devices have
received, in order, some of the bytes it would have written to them. Which of them is a free value (log 17). -/
def Obligations.ResetAbandonsAnInstruction : Prop :=
  ∀ (s s2 u : State) (i : Instr), eventOf (sample s) = .instruction → (sample s).edges.res = true → (sample s).alone →
    fetch { sample s with heldI := none } = .ok (i, s2) →
    exec i { s2 with edges := { s2.edges with res := false } } = .next u →
    ∃ t, step s = .next t ∧ t.pins.resLow = true ∧
      (∀ b, t.mem.read b = (sample s).mem.read b ∨ t.mem.read b = u.mem.read b) ∧
      t.deviceWrites.Sublist u.deviceWrites

/-! ## The machine as a whole -/

/-- Every step keeps the configuration, one member on one platform (R3, R52), and keeps the invariant: memory in canonical
form, the NMI latch 0 on a member without the pin (R25), no edge and no gap outliving its step. -/
def Obligations.EveryStepKeepsTheInvariant : Prop :=
  ∀ s t : State, step s = .next t → t.cfg = s.cfg ∧ (s.inv → t.inv)

/-- The state right after reset meets the invariant. -/
def Obligations.ResetMeetsTheInvariant : Prop := State.reset.inv

/-- R24, the entries that say a flag is left alone: an instruction changes a flag only if the row says it writes it. -/
def Obligations.OnlyTheNamedInstructionsWriteAFlag : Prop :=
  ∀ (i : Instr) (s t : State), exec i s = .next t →
    (writesN i.mnemonic = false → t.p.n = s.p.n) ∧ (writesV i.mnemonic = false → t.p.v = s.p.v) ∧
    (writesD i.mnemonic = false → t.p.d = s.p.d) ∧ (writesIFlag i.mnemonic = false → t.p.i = s.p.i) ∧
    (writesZ i.mnemonic = false → t.p.z = s.p.z) ∧ (writesC i.mnemonic = false → t.p.c = s.p.c)

/-- The column "written by" of R10, memory beside it, and the pins: an instruction changes A, X, Y, S or memory only if
it is one of the named ones (memory in a step of the core's own); none changes the configuration, what the environment
will do, or whether a reset is due; only BRK touches the NMI
latch and the lines (R246). -/
def Obligations.OnlyTheNamedInstructionsWriteARegister : Prop :=
  ∀ (i : Instr) (s t : State), exec i s = .next t →
    (writesA i = false → t.a = s.a) ∧ (writesX i.mnemonic = false → t.x = s.x) ∧
    (writesY i.mnemonic = false → t.y = s.y) ∧ (writesSp i.mnemonic = false → t.sp = s.sp) ∧
    (writesMemory i = false → s.alone → t.mem = s.mem) ∧ t.cfg = s.cfg ∧ t.script = s.script ∧
    t.resetDue = s.resetDue ∧
    (i ≠ .brk → t.nmiPending = s.nmiPending ∧ t.pins = s.pins ∧ t.edges = s.edges)

/-- Other bus masters (R47, R54, R59, R262). Before a step and in each gap of a step, ram takes the bytes they write, the
last at an address standing, and nothing else changes. Inside a step that is so at a read cycle at which RDY halts the core,
and the read delivers the byte then in memory; otherwise before every cycle, reads and writes alike, or before none, as the
platform shares the bus. So the two bytes of a pointer need not be read from one memory, and under RDY alone nothing comes
between the read and the writes of a read-modify-write. The gaps and the parameter `sharing` are the model's own (log 19). -/
def Obligations.OtherBusMastersWriteRam : Prop :=
  (∀ (cfg : Config) (cells : List Host.Cell) (m : Memory) (b : Nat),
    let place := fun (cell : Host.Cell) => cell.1 % 2 ^ cfg.member.addrPins
    (cfg.kindAt b ≠ .ram → (applyDma cfg cells m).read b = m.read b) ∧
    ((∀ cell ∈ cells, place cell ≠ b) → (applyDma cfg cells m).read b = m.read b) ∧
    (∀ before cell after, cells = before ++ cell :: after → place cell = b → (∀ d ∈ after, place d ≠ b) →
      cfg.kindAt b = .ram → (applyDma cfg cells m).read b = cell.2)) ∧
  (∀ (s : State) (inp : Inputs) (rest : List Inputs), s.script = inp :: rest →
    (sample s).mem = applyDma s.cfg inp.dma s.mem ∧ (sample s).gaps = inp.gaps) ∧
  (∀ (s : State) (k : CycleKind) (a : Word) (v : Byte) (gap : Gap) (rest : List Gap), s.gaps = gap :: rest →
    let shared := applyDma s.cfg gap.dma s.mem
    let letOn := (s.cfg.member.hasRdy = true ∧ 0 < gap.waits) ∨ s.cfg.sharing = .everyCycle
    (letOn → (busRead k a s).2.mem = shared ∧ (s.isMemory a → (busRead k a s).1 = shared.read (s.cfg.busAddr a))) ∧
    (¬ letOn → (busRead k a s).2.mem = s.mem ∧ (s.isMemory a → (busRead k a s).1 = s.memByte a)) ∧
    (s.cfg.sharing = .everyCycle → s.edges.res = false →
      (busWrite k a v s).mem = State.memAfterWrite { s with mem := shared } a v) ∧
    (s.cfg.sharing = .rdyHalts → s.edges.res = false →
      (busWrite k a v s).mem = s.memAfterWrite a v ∧ (busWrite k a v s).gaps = s.gaps)) ∧
  (∀ (s : State) (k : CycleKind) (lo hi : Word) (gap : Gap) (rest : List Gap), s.gaps = ⟨0, []⟩ :: gap :: rest →
    s.cfg.member.hasRdy = true → 0 < gap.waits → s.isMemory lo → s.isMemory hi →
    readWord k lo hi s = word ((applyDma s.cfg gap.dma s.mem).read (s.cfg.busAddr hi)) (s.memByte lo))

/-- R247 and the model's refusals: every instruction completes on a platform without inexact devices, but for JMP
(indirect) at the end of a page under JMP_IND_WRAP = refuse; no other stop exists. -/
def Obligations.EveryInstructionCompletes : Prop :=
  ∀ (i : Instr) (s : State),
    (s.cfg.runnable → jumpRefused i s = false → Completes (exec i s)) ∧
    (∀ why, exec i s = .refused why →
      (jumpRefused i s = true ∧ ∃ ptr, i = .jmpInd ptr ∧ why = .jumpPointerAtPageEnd ptr) ∨
      (why = .deviceNeedsBusExact ∧ s.cfg.busExact = false)) ∧
    (∀ f, exec i s ≠ .fault f)

/-- R290, R291: the cycles an instruction spends, fetch included, are those of the table, one more for a page crossed
by a reading instruction, and one or two more for a taken branch, where RDY does not halt
it. -/
def Obligations.CyclesAreThoseOfTheTable : Prop :=
  ∀ (i : Instr) (s : State), s.cfg.runnable → s.gaps = [] → jumpRefused i s = false →
    ∃ t, exec i s = .next t ∧ t.clock + fetchCycles i = s.clock + cycles i s

/-- BUS_EXACT (R61): with BUS_EXACT = false an instruction is refused exactly when one of its cycles, needed or extra, touched
a device other than by a plain load or store. That otherwise it does what it does with BUS_EXACT = true, all cycles on the
record, where R61 lets it perform the needed ones only, is the model's choice (log 10, DEDUCED). -/
def Obligations.BusExactDecidesOnlyTheRefusal : Prop :=
  ∀ (i : Instr) (s t : State), s.cfg.busExact = false →
    exec i { s with cfg := { s.cfg with busExact := true } } = .next t →
    exec i s =
      if t.bus.any (fun cycle => !cycle.kind.plain && decide (s.cfg.kindAt cycle.addr = .device)) then
        .refused .deviceNeedsBusExact
      else .next { t with cfg := s.cfg }
end

