-- ==== Sys2Proof/Laws/Memory.lean ====
section
/-!
SUPPORT. The laws of memory: a read after a write, and the canonical form, which every operation over memory keeps.
-/

namespace Sys2Proof.Machine

/-! ## A read after a write -/

theorem Memory.read_insert_same (m : Memory) (a : Nat) (v : Byte) (h : ∀ c ∈ m, c.1 ≠ a) :
    Memory.read (Memory.insert a v m) a = v := by
  induction m with
  | nil => simp [Memory.insert, Memory.read]
  | cons c rest ih =>
    have hc : c.1 ≠ a := h c (by simp)
    have hr : ∀ d ∈ rest, d.1 ≠ a := fun d hd => h d (by simp [hd])
    simp only [Memory.insert]
    split
    · simp [Memory.read]
    · simp [Memory.read, hc, ih hr]

theorem Memory.read_insert_other (m : Memory) (a b : Nat) (v : Byte) (h : a ≠ b) :
    Memory.read (Memory.insert a v m) b = Memory.read m b := by
  induction m with
  | nil => simp [Memory.insert, Memory.read, h]
  | cons c rest ih =>
    simp only [Memory.insert]
    split
    · simp [Memory.read, h]
    · simp [Memory.read, ih]

theorem Memory.read_filter_same (m : Memory) (a : Nat) :
    Memory.read (m.filter (fun cell => decide (cell.1 ≠ a))) a = Memory.unlisted := by
  induction m with
  | nil => rfl
  | cons c rest ih =>
    by_cases hc : c.1 = a
    · simpa [List.filter_cons, hc] using ih
    · simpa [List.filter_cons, hc, Memory.read] using ih

theorem Memory.read_filter_other (m : Memory) (a b : Nat) (h : a ≠ b) :
    Memory.read (m.filter (fun cell => decide (cell.1 ≠ a))) b = Memory.read m b := by
  induction m with
  | nil => rfl
  | cons c rest ih =>
    by_cases hc : c.1 = a
    · have hb : c.1 ≠ b := by rw [hc]; exact h
      have ih' := ih
      simp only [List.filter_cons, hc, ne_eq, not_true_eq_false, decide_false, Bool.false_eq_true, if_false]
      simpa [Memory.read, hb] using ih'
    · by_cases hb : c.1 = b
      · simp [Memory.read, hb, Ne.symm h]
      · simpa [List.filter_cons, hc, Memory.read, hb] using ih

/-- A read of the address just written answers the byte written. -/
@[simp] theorem Memory.read_write_same (m : Memory) (a : Nat) (v : Byte) :
    Memory.read (Memory.write m a v) a = v := by
  unfold Memory.write
  split
  · rename_i h
    rw [Memory.read_filter_same, h]
  · exact Memory.read_insert_same _ a v (fun c hc => by simpa using (List.mem_filter.mp hc).2)

/-- A read of another address answers what it answered before. -/
theorem Memory.read_write_other (m : Memory) (a b : Nat) (v : Byte) (h : a ≠ b) :
    Memory.read (Memory.write m a v) b = Memory.read m b := by
  unfold Memory.write
  split
  · exact Memory.read_filter_other m a b h
  · simp only [Memory.read_insert_other _ a b v h]
    exact Memory.read_filter_other m a b h

/-- What a write can do, in one equation. -/
theorem Memory.read_write (m : Memory) (a b : Nat) (v : Byte) :
    Memory.read (Memory.write m a v) b = if a = b then v else Memory.read m b := by
  split
  · rename_i h
    rw [h, Memory.read_write_same]
  · rename_i h
    exact Memory.read_write_other m a b v h

theorem Memory.filter_insert (m : Memory) (a : Nat) (v : Byte) (h : ∀ c ∈ m, c.1 ≠ a) :
    (Memory.insert a v m).filter (fun cell => decide (cell.1 ≠ a)) = m := by
  induction m with
  | nil => simp [Memory.insert]
  | cons c rest ih =>
    have hc : c.1 ≠ a := h c (by simp)
    have hr : ∀ d ∈ rest, d.1 ≠ a := fun d hd => h d (by simp [hd])
    simp only [Memory.insert]
    split
    · have hf : rest.filter (fun cell => decide (cell.1 ≠ a)) = rest :=
        List.filter_eq_self.mpr (fun d hd => by simpa using hr d hd)
      simpa [List.filter_cons, hc] using hf
    · simpa [List.filter_cons, hc] using ih hr

/-- The second of two writes to one address is the one that counts. -/
theorem Memory.write_write (m : Memory) (a : Nat) (v w : Byte) : (m.write a v).write a w = m.write a w := by
  have hne : ∀ c ∈ m.filter (fun cell => decide (cell.1 ≠ a)), c.1 ≠ a :=
    fun c hc => by simpa using (List.mem_filter.mp hc).2
  have hf : (m.write a v).filter (fun cell => decide (cell.1 ≠ a)) = m.filter (fun cell => decide (cell.1 ≠ a)) := by
    unfold Memory.write
    split
    · rw [List.filter_filter]
      simp
    · exact Memory.filter_insert _ a v hne
  unfold Memory.write at hf ⊢
  simp only [hf]

/-! ## The canonical form -/

theorem Memory.wfFrom_mono (m : Memory) (lo lo' : Nat) (hle : lo' ≤ lo) (h : Memory.wfFrom lo m = true) :
    Memory.wfFrom lo' m = true := by
  cases m with
  | nil => rfl
  | cons c rest =>
    simp only [Memory.wfFrom, Bool.and_eq_true, decide_eq_true_eq] at h ⊢
    exact ⟨⟨⟨by omega, h.1.1.2⟩, h.1.2⟩, h.2⟩

theorem Memory.wfFrom_filter (m : Memory) (a lo : Nat) (h : Memory.wfFrom lo m = true) :
    Memory.wfFrom lo (m.filter (fun cell => decide (cell.1 ≠ a))) = true := by
  induction m generalizing lo with
  | nil => rfl
  | cons c rest ih =>
    simp only [Memory.wfFrom, Bool.and_eq_true, decide_eq_true_eq] at h
    by_cases hc : c.1 = a
    · have hr := Memory.wfFrom_mono _ _ lo (by omega) (ih (c.1 + 1) h.2)
      simpa [List.filter_cons, hc] using hr
    · have hr := ih (c.1 + 1) h.2
      simp only [List.filter_cons, hc, ne_eq, not_false_eq_true, decide_true, if_true, Memory.wfFrom,
        Bool.and_eq_true, decide_eq_true_eq]
      exact ⟨h.1, hr⟩

theorem Memory.wfFrom_insert (m : Memory) (a lo : Nat) (v : Byte) (hlo : lo ≤ a) (ha : a < 65536)
    (hv : v ≠ Memory.unlisted) (hne : ∀ c ∈ m, c.1 ≠ a) (h : Memory.wfFrom lo m = true) :
    Memory.wfFrom lo (Memory.insert a v m) = true := by
  induction m generalizing lo with
  | nil => simp [Memory.insert, Memory.wfFrom, hlo, ha, hv]
  | cons c rest ih =>
    have hc : c.1 ≠ a := hne c (by simp)
    have hr : ∀ d ∈ rest, d.1 ≠ a := fun d hd => hne d (by simp [hd])
    simp only [Memory.wfFrom, Bool.and_eq_true, decide_eq_true_eq] at h
    simp only [Memory.insert]
    split
    · rename_i hlt
      simp only [Memory.wfFrom, Bool.and_eq_true, decide_eq_true_eq]
      exact ⟨⟨⟨hlo, ha⟩, hv⟩, ⟨⟨⟨by omega, h.1.1.2⟩, h.1.2⟩, h.2⟩⟩
    · rename_i hge
      simp only [Memory.wfFrom, Bool.and_eq_true, decide_eq_true_eq]
      exact ⟨h.1, ih (c.1 + 1) (by omega) hr h.2⟩

/-- A write inside the address space keeps the canonical form. -/
theorem Memory.wf_write (m : Memory) (a : Nat) (v : Byte) (ha : a < 65536) (h : m.wf = true) :
    (m.write a v).wf = true := by
  unfold Memory.write
  have hf : Memory.wfFrom 0 (m.filter (fun cell => decide (cell.1 ≠ a))) = true := Memory.wfFrom_filter m a 0 h
  split
  · exact hf
  · rename_i hv
    exact Memory.wfFrom_insert _ a 0 v (by omega) ha hv (fun c hc => by simpa using (List.mem_filter.mp hc).2) hf

/-- A bus address is inside the address space. -/
theorem busAddr_lt (cfg : Config) (a : Word) : cfg.busAddr a < 65536 := by
  unfold Config.busAddr
  exact Nat.lt_of_le_of_lt (Nat.mod_le _ _) a.isLt

/-- A bus address truncated to the pins is inside the address space. -/
theorem mod_addrPins_lt (m : Member) (n : Nat) : n % 2 ^ m.addrPins < 65536 := by
  cases m <;> simp only [Member.addrPins] <;> omega

/-- Another bus master's bytes keep the canonical form. -/
theorem wf_applyDma (cfg : Config) (cells : List Host.Cell) (m : Memory) (h : m.wf = true) :
    (applyDma cfg cells m).wf = true := by
  unfold applyDma
  induction cells generalizing m with
  | nil => exact h
  | cons c rest ih =>
    simp only [List.foldl_cons]
    refine ih _ ?_
    split
    · exact Memory.wf_write m _ _ (mod_addrPins_lt cfg.member c.1) h
    · exact h

/-- Bytes that another bus master writes elsewhere, or outside ram, leave a bus address alone (R46, R54). -/
theorem read_applyDma_other (cfg : Config) (cells : List Host.Cell) (m : Memory) (b : Nat)
    (h : (∀ c ∈ cells, c.1 % 2 ^ cfg.member.addrPins ≠ b) ∨ cfg.kindAt b ≠ .ram) :
    (applyDma cfg cells m).read b = m.read b := by
  unfold applyDma
  induction cells generalizing m with
  | nil => rfl
  | cons c rest ih =>
    simp only [List.foldl_cons]
    rw [ih _ (h.imp (fun h d hd => h d (by simp [hd])) id)]
    split
    · rename_i hk
      rw [Memory.read_write, if_neg]
      rintro rfl
      rcases h with h | h
      · exact h c (by simp) rfl
      · exact h (by simpa using hk)
    · rfl

/-- The last byte that another bus master writes at a ram address is what stands there (R54, R59). -/
theorem read_applyDma_last (cfg : Config) (before after : List Host.Cell) (c : Host.Cell) (m : Memory)
    (hk : cfg.kindAt (c.1 % 2 ^ cfg.member.addrPins) = .ram)
    (h : ∀ d ∈ after, d.1 % 2 ^ cfg.member.addrPins ≠ c.1 % 2 ^ cfg.member.addrPins) :
    (applyDma cfg (before ++ c :: after) m).read (c.1 % 2 ^ cfg.member.addrPins) = c.2 := by
  have hs : applyDma cfg (before ++ c :: after) m =
      applyDma cfg after ((applyDma cfg before m).write (c.1 % 2 ^ cfg.member.addrPins) c.2) := by
    simp [applyDma, List.foldl_append, hk]
  rw [hs, read_applyDma_other cfg after _ _ (.inl h), Memory.read_write_same]

/-- What another bus master writes before a cycle keeps the canonical form. -/
theorem wf_memShared (s : State) (letOn : Bool) (h : s.mem.wf = true) : (s.memShared letOn).wf = true := by
  unfold State.memShared
  split
  · exact h
  · split
    · exact wf_applyDma _ _ _ h
    · exact h

/-- A write of the core keeps the canonical form. -/
theorem wf_memAfterWrite (s : State) (a : Word) (v : Byte) (h : s.mem.wf = true) :
    (s.memAfterWrite a v).wf = true := by
  unfold State.memAfterWrite
  split
  · split
    · exact h
    · exact Memory.wf_write _ _ _ (busAddr_lt _ _) h
  · exact h
  · exact h
  · exact h

/-- The memory of the state after reset is in canonical form. -/
theorem wf_reset : State.reset.mem.wf = true := rfl

end Sys2Proof.Machine
end

