-- ==== Sys2Proof/Laws/State.lean ====
section
/-!
SUPPORT. One lemma for each field of State and each operation on it, true by computation, so that no later proof
unfolds a record update.
-/

namespace Sys2Proof.Machine

/-! ## A clock cycle -/

@[simp] theorem State.tick_a (s : State) (cycle : BusCycle) : (s.tick cycle).a = s.a := rfl
@[simp] theorem State.tick_x (s : State) (cycle : BusCycle) : (s.tick cycle).x = s.x := rfl
@[simp] theorem State.tick_y (s : State) (cycle : BusCycle) : (s.tick cycle).y = s.y := rfl
@[simp] theorem State.tick_sp (s : State) (cycle : BusCycle) : (s.tick cycle).sp = s.sp := rfl
@[simp] theorem State.tick_pc (s : State) (cycle : BusCycle) : (s.tick cycle).pc = s.pc := rfl
@[simp] theorem State.tick_p (s : State) (cycle : BusCycle) : (s.tick cycle).p = s.p := rfl
@[simp] theorem State.tick_nmiPending (s : State) (cycle : BusCycle) : (s.tick cycle).nmiPending = s.nmiPending := rfl
@[simp] theorem State.tick_heldI (s : State) (cycle : BusCycle) : (s.tick cycle).heldI = s.heldI := rfl
@[simp] theorem State.tick_resetDue (s : State) (cycle : BusCycle) : (s.tick cycle).resetDue = s.resetDue := rfl
@[simp] theorem State.tick_mem (s : State) (cycle : BusCycle) : (s.tick cycle).mem = s.mem := rfl
@[simp] theorem State.tick_pins (s : State) (cycle : BusCycle) : (s.tick cycle).pins = s.pins := rfl
@[simp] theorem State.tick_edges (s : State) (cycle : BusCycle) : (s.tick cycle).edges = s.edges := rfl
@[simp] theorem State.tick_gaps (s : State) (cycle : BusCycle) : (s.tick cycle).gaps = s.gaps := rfl
@[simp] theorem State.tick_script (s : State) (cycle : BusCycle) : (s.tick cycle).script = s.script := rfl
@[simp] theorem State.tick_cfg (s : State) (cycle : BusCycle) : (s.tick cycle).cfg = s.cfg := rfl
@[simp] theorem State.tick_clock (s : State) (cycle : BusCycle) : (s.tick cycle).clock = s.clock + 1 := rfl
@[simp] theorem State.tick_bus (s : State) (cycle : BusCycle) : (s.tick cycle).bus = cycle :: s.bus := rfl

/-! ## Before a read cycle -/

@[simp] theorem State.beforeRead_a (s : State) (k : CycleKind) (a : Word) : (s.beforeRead k a).a = s.a := rfl
@[simp] theorem State.beforeRead_x (s : State) (k : CycleKind) (a : Word) : (s.beforeRead k a).x = s.x := rfl
@[simp] theorem State.beforeRead_y (s : State) (k : CycleKind) (a : Word) : (s.beforeRead k a).y = s.y := rfl
@[simp] theorem State.beforeRead_sp (s : State) (k : CycleKind) (a : Word) : (s.beforeRead k a).sp = s.sp := rfl
@[simp] theorem State.beforeRead_pc (s : State) (k : CycleKind) (a : Word) : (s.beforeRead k a).pc = s.pc := rfl
@[simp] theorem State.beforeRead_p (s : State) (k : CycleKind) (a : Word) : (s.beforeRead k a).p = s.p := rfl
@[simp] theorem State.beforeRead_nmiPending (s : State) (k : CycleKind) (a : Word) : (s.beforeRead k a).nmiPending = s.nmiPending := rfl
@[simp] theorem State.beforeRead_heldI (s : State) (k : CycleKind) (a : Word) : (s.beforeRead k a).heldI = s.heldI := rfl
@[simp] theorem State.beforeRead_resetDue (s : State) (k : CycleKind) (a : Word) : (s.beforeRead k a).resetDue = s.resetDue := rfl
@[simp] theorem State.beforeRead_mem (s : State) (k : CycleKind) (a : Word) : (s.beforeRead k a).mem = s.memShared (decide (0 < s.waits) || decide (s.cfg.sharing = .everyCycle)) := rfl
@[simp] theorem State.beforeRead_pins (s : State) (k : CycleKind) (a : Word) : (s.beforeRead k a).pins = s.pins := rfl
@[simp] theorem State.beforeRead_edges (s : State) (k : CycleKind) (a : Word) : (s.beforeRead k a).edges = s.edges := rfl
@[simp] theorem State.beforeRead_gaps (s : State) (k : CycleKind) (a : Word) : (s.beforeRead k a).gaps = s.gaps.tail := rfl
@[simp] theorem State.beforeRead_script (s : State) (k : CycleKind) (a : Word) : (s.beforeRead k a).script = s.script := rfl
@[simp] theorem State.beforeRead_cfg (s : State) (k : CycleKind) (a : Word) : (s.beforeRead k a).cfg = s.cfg := rfl
@[simp] theorem State.beforeRead_clock (s : State) (k : CycleKind) (a : Word) : (s.beforeRead k a).clock = s.clock + s.waits := rfl
@[simp] theorem State.beforeRead_bus (s : State) (k : CycleKind) (a : Word) : (s.beforeRead k a).bus = s.repeated k a s.waits ++ s.bus := rfl

/-! ## Before a write cycle -/

@[simp] theorem State.beforeWrite_a (s : State) : (s.beforeWrite).a = s.a := rfl
@[simp] theorem State.beforeWrite_x (s : State) : (s.beforeWrite).x = s.x := rfl
@[simp] theorem State.beforeWrite_y (s : State) : (s.beforeWrite).y = s.y := rfl
@[simp] theorem State.beforeWrite_sp (s : State) : (s.beforeWrite).sp = s.sp := rfl
@[simp] theorem State.beforeWrite_pc (s : State) : (s.beforeWrite).pc = s.pc := rfl
@[simp] theorem State.beforeWrite_p (s : State) : (s.beforeWrite).p = s.p := rfl
@[simp] theorem State.beforeWrite_nmiPending (s : State) : (s.beforeWrite).nmiPending = s.nmiPending := rfl
@[simp] theorem State.beforeWrite_heldI (s : State) : (s.beforeWrite).heldI = s.heldI := rfl
@[simp] theorem State.beforeWrite_resetDue (s : State) : (s.beforeWrite).resetDue = s.resetDue := rfl
@[simp] theorem State.beforeWrite_mem (s : State) : (s.beforeWrite).mem = s.memShared (decide (s.cfg.sharing = .everyCycle)) := rfl
@[simp] theorem State.beforeWrite_pins (s : State) : (s.beforeWrite).pins = s.pins := rfl
@[simp] theorem State.beforeWrite_edges (s : State) : (s.beforeWrite).edges = s.edges := rfl
@[simp] theorem State.beforeWrite_gaps (s : State) : (s.beforeWrite).gaps = (if s.cfg.sharing = .everyCycle then s.gaps.tail else s.gaps) := rfl
@[simp] theorem State.beforeWrite_script (s : State) : (s.beforeWrite).script = s.script := rfl
@[simp] theorem State.beforeWrite_cfg (s : State) : (s.beforeWrite).cfg = s.cfg := rfl
@[simp] theorem State.beforeWrite_clock (s : State) : (s.beforeWrite).clock = s.clock := rfl
@[simp] theorem State.beforeWrite_bus (s : State) : (s.beforeWrite).bus = s.bus := rfl

/-! ## A read cycle -/

@[simp] theorem busRead_fst (k : CycleKind) (a : Word) (s : State) : (busRead k a s).1 = (s.beforeRead k a).dataAt a := rfl

/-! ## The state after a read cycle -/

@[simp] theorem busRead_snd_a (k : CycleKind) (a : Word) (s : State) : ((busRead k a s).2).a = s.a := rfl
@[simp] theorem busRead_snd_x (k : CycleKind) (a : Word) (s : State) : ((busRead k a s).2).x = s.x := rfl
@[simp] theorem busRead_snd_y (k : CycleKind) (a : Word) (s : State) : ((busRead k a s).2).y = s.y := rfl
@[simp] theorem busRead_snd_sp (k : CycleKind) (a : Word) (s : State) : ((busRead k a s).2).sp = s.sp := rfl
@[simp] theorem busRead_snd_pc (k : CycleKind) (a : Word) (s : State) : ((busRead k a s).2).pc = s.pc := rfl
@[simp] theorem busRead_snd_p (k : CycleKind) (a : Word) (s : State) : ((busRead k a s).2).p = s.p := rfl
@[simp] theorem busRead_snd_nmiPending (k : CycleKind) (a : Word) (s : State) : ((busRead k a s).2).nmiPending = s.nmiPending := rfl
@[simp] theorem busRead_snd_heldI (k : CycleKind) (a : Word) (s : State) : ((busRead k a s).2).heldI = s.heldI := rfl
@[simp] theorem busRead_snd_resetDue (k : CycleKind) (a : Word) (s : State) : ((busRead k a s).2).resetDue = s.resetDue := rfl
@[simp] theorem busRead_snd_mem (k : CycleKind) (a : Word) (s : State) : ((busRead k a s).2).mem = (s.beforeRead k a).mem := rfl
@[simp] theorem busRead_snd_pins (k : CycleKind) (a : Word) (s : State) : ((busRead k a s).2).pins = s.pins := rfl
@[simp] theorem busRead_snd_edges (k : CycleKind) (a : Word) (s : State) : ((busRead k a s).2).edges = s.edges := rfl
@[simp] theorem busRead_snd_gaps (k : CycleKind) (a : Word) (s : State) : ((busRead k a s).2).gaps = s.gaps.tail := rfl
@[simp] theorem busRead_snd_script (k : CycleKind) (a : Word) (s : State) : ((busRead k a s).2).script = s.script := rfl
@[simp] theorem busRead_snd_cfg (k : CycleKind) (a : Word) (s : State) : ((busRead k a s).2).cfg = s.cfg := rfl
@[simp] theorem busRead_snd_clock (k : CycleKind) (a : Word) (s : State) : ((busRead k a s).2).clock = s.clock + s.waits + 1 := rfl
@[simp] theorem busRead_snd_bus (k : CycleKind) (a : Word) (s : State) : ((busRead k a s).2).bus = ⟨k, s.cfg.busAddr a, (s.beforeRead k a).dataAt a⟩ :: (s.beforeRead k a).bus := rfl

/-! ## A discarded read -/

@[simp] theorem discard_a (a : Word) (s : State) : (discard a s).a = s.a := rfl
@[simp] theorem discard_x (a : Word) (s : State) : (discard a s).x = s.x := rfl
@[simp] theorem discard_y (a : Word) (s : State) : (discard a s).y = s.y := rfl
@[simp] theorem discard_sp (a : Word) (s : State) : (discard a s).sp = s.sp := rfl
@[simp] theorem discard_pc (a : Word) (s : State) : (discard a s).pc = s.pc := rfl
@[simp] theorem discard_p (a : Word) (s : State) : (discard a s).p = s.p := rfl
@[simp] theorem discard_nmiPending (a : Word) (s : State) : (discard a s).nmiPending = s.nmiPending := rfl
@[simp] theorem discard_heldI (a : Word) (s : State) : (discard a s).heldI = s.heldI := rfl
@[simp] theorem discard_resetDue (a : Word) (s : State) : (discard a s).resetDue = s.resetDue := rfl
@[simp] theorem discard_mem (a : Word) (s : State) : (discard a s).mem = (s.beforeRead .discard a).mem := rfl
@[simp] theorem discard_pins (a : Word) (s : State) : (discard a s).pins = s.pins := rfl
@[simp] theorem discard_edges (a : Word) (s : State) : (discard a s).edges = s.edges := rfl
@[simp] theorem discard_gaps (a : Word) (s : State) : (discard a s).gaps = s.gaps.tail := rfl
@[simp] theorem discard_script (a : Word) (s : State) : (discard a s).script = s.script := rfl
@[simp] theorem discard_cfg (a : Word) (s : State) : (discard a s).cfg = s.cfg := rfl
@[simp] theorem discard_clock (a : Word) (s : State) : (discard a s).clock = s.clock + s.waits + 1 := rfl
@[simp] theorem discard_bus (a : Word) (s : State) : (discard a s).bus = ⟨.discard, s.cfg.busAddr a, (s.beforeRead .discard a).dataAt a⟩ :: (s.beforeRead .discard a).bus := rfl

/-! ## A write cycle -/

@[simp] theorem busWrite_a (k : CycleKind) (a : Word) (v : Byte) (s : State) : (busWrite k a v s).a = s.a := rfl
@[simp] theorem busWrite_x (k : CycleKind) (a : Word) (v : Byte) (s : State) : (busWrite k a v s).x = s.x := rfl
@[simp] theorem busWrite_y (k : CycleKind) (a : Word) (v : Byte) (s : State) : (busWrite k a v s).y = s.y := rfl
@[simp] theorem busWrite_sp (k : CycleKind) (a : Word) (v : Byte) (s : State) : (busWrite k a v s).sp = s.sp := rfl
@[simp] theorem busWrite_pc (k : CycleKind) (a : Word) (v : Byte) (s : State) : (busWrite k a v s).pc = s.pc := rfl
@[simp] theorem busWrite_p (k : CycleKind) (a : Word) (v : Byte) (s : State) : (busWrite k a v s).p = s.p := rfl
@[simp] theorem busWrite_nmiPending (k : CycleKind) (a : Word) (v : Byte) (s : State) : (busWrite k a v s).nmiPending = s.nmiPending := rfl
@[simp] theorem busWrite_heldI (k : CycleKind) (a : Word) (v : Byte) (s : State) : (busWrite k a v s).heldI = s.heldI := rfl
@[simp] theorem busWrite_resetDue (k : CycleKind) (a : Word) (v : Byte) (s : State) : (busWrite k a v s).resetDue = s.resetDue := rfl
@[simp] theorem busWrite_mem (k : CycleKind) (a : Word) (v : Byte) (s : State) : (busWrite k a v s).mem = s.beforeWrite.memAfterWrite a v := rfl
@[simp] theorem busWrite_pins (k : CycleKind) (a : Word) (v : Byte) (s : State) : (busWrite k a v s).pins = s.pins := rfl
@[simp] theorem busWrite_edges (k : CycleKind) (a : Word) (v : Byte) (s : State) : (busWrite k a v s).edges = s.edges := rfl
@[simp] theorem busWrite_gaps (k : CycleKind) (a : Word) (v : Byte) (s : State) : (busWrite k a v s).gaps = s.beforeWrite.gaps := rfl
@[simp] theorem busWrite_script (k : CycleKind) (a : Word) (v : Byte) (s : State) : (busWrite k a v s).script = s.script := rfl
@[simp] theorem busWrite_cfg (k : CycleKind) (a : Word) (v : Byte) (s : State) : (busWrite k a v s).cfg = s.cfg := rfl
@[simp] theorem busWrite_clock (k : CycleKind) (a : Word) (v : Byte) (s : State) : (busWrite k a v s).clock = s.clock + 1 := rfl
@[simp] theorem busWrite_bus (k : CycleKind) (a : Word) (v : Byte) (s : State) : (busWrite k a v s).bus = ⟨s.beforeWrite.writeKind k a, s.cfg.busAddr a, v⟩ :: s.bus := rfl

/-! ## The advance of PC -/

@[simp] theorem advance_a (n : Nat) (s : State) : (advance n s).a = s.a := rfl
@[simp] theorem advance_x (n : Nat) (s : State) : (advance n s).x = s.x := rfl
@[simp] theorem advance_y (n : Nat) (s : State) : (advance n s).y = s.y := rfl
@[simp] theorem advance_sp (n : Nat) (s : State) : (advance n s).sp = s.sp := rfl
@[simp] theorem advance_pc (n : Nat) (s : State) : (advance n s).pc = s.pc + BitVec.ofNat 16 n := rfl
@[simp] theorem advance_p (n : Nat) (s : State) : (advance n s).p = s.p := rfl
@[simp] theorem advance_nmiPending (n : Nat) (s : State) : (advance n s).nmiPending = s.nmiPending := rfl
@[simp] theorem advance_heldI (n : Nat) (s : State) : (advance n s).heldI = s.heldI := rfl
@[simp] theorem advance_resetDue (n : Nat) (s : State) : (advance n s).resetDue = s.resetDue := rfl
@[simp] theorem advance_mem (n : Nat) (s : State) : (advance n s).mem = s.mem := rfl
@[simp] theorem advance_pins (n : Nat) (s : State) : (advance n s).pins = s.pins := rfl
@[simp] theorem advance_edges (n : Nat) (s : State) : (advance n s).edges = s.edges := rfl
@[simp] theorem advance_gaps (n : Nat) (s : State) : (advance n s).gaps = s.gaps := rfl
@[simp] theorem advance_script (n : Nat) (s : State) : (advance n s).script = s.script := rfl
@[simp] theorem advance_cfg (n : Nat) (s : State) : (advance n s).cfg = s.cfg := rfl
@[simp] theorem advance_clock (n : Nat) (s : State) : (advance n s).clock = s.clock := rfl
@[simp] theorem advance_bus (n : Nat) (s : State) : (advance n s).bus = s.bus := rfl

/-! ## A push -/

@[simp] theorem push_a (v : Byte) (s : State) : (push v s).a = s.a := rfl
@[simp] theorem push_x (v : Byte) (s : State) : (push v s).x = s.x := rfl
@[simp] theorem push_y (v : Byte) (s : State) : (push v s).y = s.y := rfl
@[simp] theorem push_sp (v : Byte) (s : State) : (push v s).sp = s.sp - 1 := rfl
@[simp] theorem push_pc (v : Byte) (s : State) : (push v s).pc = s.pc := rfl
@[simp] theorem push_p (v : Byte) (s : State) : (push v s).p = s.p := rfl
@[simp] theorem push_nmiPending (v : Byte) (s : State) : (push v s).nmiPending = s.nmiPending := rfl
@[simp] theorem push_heldI (v : Byte) (s : State) : (push v s).heldI = s.heldI := rfl
@[simp] theorem push_resetDue (v : Byte) (s : State) : (push v s).resetDue = s.resetDue := rfl
@[simp] theorem push_mem (v : Byte) (s : State) : (push v s).mem = s.beforeWrite.memAfterWrite (stackAddr s.sp) v := rfl
@[simp] theorem push_pins (v : Byte) (s : State) : (push v s).pins = s.pins := rfl
@[simp] theorem push_edges (v : Byte) (s : State) : (push v s).edges = s.edges := rfl
@[simp] theorem push_gaps (v : Byte) (s : State) : (push v s).gaps = s.beforeWrite.gaps := rfl
@[simp] theorem push_script (v : Byte) (s : State) : (push v s).script = s.script := rfl
@[simp] theorem push_cfg (v : Byte) (s : State) : (push v s).cfg = s.cfg := rfl
@[simp] theorem push_clock (v : Byte) (s : State) : (push v s).clock = s.clock + 1 := rfl
@[simp] theorem push_bus (v : Byte) (s : State) : (push v s).bus = ⟨s.beforeWrite.writeKind .push (stackAddr s.sp), s.cfg.busAddr (stackAddr s.sp), v⟩ :: s.bus := rfl

/-! ## The state after a pull -/

@[simp] theorem pull_snd_a (s : State) : ((pull s).2).a = s.a := rfl
@[simp] theorem pull_snd_x (s : State) : ((pull s).2).x = s.x := rfl
@[simp] theorem pull_snd_y (s : State) : ((pull s).2).y = s.y := rfl
@[simp] theorem pull_snd_sp (s : State) : ((pull s).2).sp = s.sp + 1 := rfl
@[simp] theorem pull_snd_pc (s : State) : ((pull s).2).pc = s.pc := rfl
@[simp] theorem pull_snd_p (s : State) : ((pull s).2).p = s.p := rfl
@[simp] theorem pull_snd_nmiPending (s : State) : ((pull s).2).nmiPending = s.nmiPending := rfl
@[simp] theorem pull_snd_heldI (s : State) : ((pull s).2).heldI = s.heldI := rfl
@[simp] theorem pull_snd_resetDue (s : State) : ((pull s).2).resetDue = s.resetDue := rfl
@[simp] theorem pull_snd_pins (s : State) : ((pull s).2).pins = s.pins := rfl
@[simp] theorem pull_snd_edges (s : State) : ((pull s).2).edges = s.edges := rfl
@[simp] theorem pull_snd_gaps (s : State) : ((pull s).2).gaps = s.gaps.tail := rfl
@[simp] theorem pull_snd_script (s : State) : ((pull s).2).script = s.script := rfl
@[simp] theorem pull_snd_cfg (s : State) : ((pull s).2).cfg = s.cfg := rfl
@[simp] theorem pull_snd_clock (s : State) : ((pull s).2).clock = s.clock + s.waits + 1 := rfl

/-! ## The vector load -/

@[simp] theorem loadVector_a (v : Word) (s : State) : (loadVector v s).a = s.a := rfl
@[simp] theorem loadVector_x (v : Word) (s : State) : (loadVector v s).x = s.x := rfl
@[simp] theorem loadVector_y (v : Word) (s : State) : (loadVector v s).y = s.y := rfl
@[simp] theorem loadVector_sp (v : Word) (s : State) : (loadVector v s).sp = s.sp := rfl
@[simp] theorem loadVector_p (v : Word) (s : State) : (loadVector v s).p = s.p := rfl
@[simp] theorem loadVector_nmiPending (v : Word) (s : State) : (loadVector v s).nmiPending = s.nmiPending := rfl
@[simp] theorem loadVector_heldI (v : Word) (s : State) : (loadVector v s).heldI = s.heldI := rfl
@[simp] theorem loadVector_resetDue (v : Word) (s : State) : (loadVector v s).resetDue = s.resetDue := rfl
@[simp] theorem loadVector_pins (v : Word) (s : State) : (loadVector v s).pins = s.pins := rfl
@[simp] theorem loadVector_edges (v : Word) (s : State) : (loadVector v s).edges = s.edges := rfl
@[simp] theorem loadVector_gaps (v : Word) (s : State) : (loadVector v s).gaps = s.gaps.tail.tail := rfl
@[simp] theorem loadVector_script (v : Word) (s : State) : (loadVector v s).script = s.script := rfl
@[simp] theorem loadVector_cfg (v : Word) (s : State) : (loadVector v s).cfg = s.cfg := rfl

/-! ## The end of a step -/

@[simp] theorem settle_a (w : Bool) (s : State) : (settle w s).a = s.a := rfl
@[simp] theorem settle_x (w : Bool) (s : State) : (settle w s).x = s.x := rfl
@[simp] theorem settle_y (w : Bool) (s : State) : (settle w s).y = s.y := rfl
@[simp] theorem settle_sp (w : Bool) (s : State) : (settle w s).sp = s.sp := rfl
@[simp] theorem settle_pc (w : Bool) (s : State) : (settle w s).pc = s.pc := rfl
@[simp] theorem settle_nmiPending (w : Bool) (s : State) : (settle w s).nmiPending = (s.nmiPending || (s.cfg.member.hasNmi && s.edges.nmi)) := rfl
@[simp] theorem settle_heldI (w : Bool) (s : State) : (settle w s).heldI = s.heldI := rfl
@[simp] theorem settle_resetDue (w : Bool) (s : State) : (settle w s).resetDue = s.resetDue := rfl
@[simp] theorem settle_mem (w : Bool) (s : State) : (settle w s).mem = s.mem := rfl
@[simp] theorem settle_edges (w : Bool) (s : State) : (settle w s).edges = .quiet := rfl
@[simp] theorem settle_gaps (w : Bool) (s : State) : (settle w s).gaps = [] := rfl
@[simp] theorem settle_script (w : Bool) (s : State) : (settle w s).script = s.script := rfl
@[simp] theorem settle_cfg (w : Bool) (s : State) : (settle w s).cfg = s.cfg := rfl
@[simp] theorem settle_clock (w : Bool) (s : State) : (settle w s).clock = s.clock := rfl
@[simp] theorem settle_bus (w : Bool) (s : State) : (settle w s).bus = s.bus := rfl

end Sys2Proof.Machine
end

