-- ==== Sys2Proof/Laws/Bus.lean ====
section
/-!
SUPPORT. What each shared operation over the bus and an addressing mode can do, said once: reads let cycles pass and
change nothing else of the core, a write changes one byte at most, a sequence ends in a next state where no device can
be touched out of turn.
-/

namespace Sys2Proof.Machine

/-! ## Between two cycles -/

/-- Where no other master writes, memory is its own before every cycle. -/
theorem memShared_alone (s : State) (letOn : Bool) (h : s.alone) : s.memShared letOn = s.mem := by
  unfold State.memShared
  cases hg : s.gaps with
  | nil => rfl
  | cons gap rest =>
    have hd : gap.dma = [] := h gap (by simp [hg])
    cases letOn <;> simp [hd, applyDma]

@[simp] theorem waits_nil (s : State) (h : s.gaps = []) : s.waits = 0 := by
  unfold State.waits
  rw [h]

/-! ## Cycles that pass -/

/-- What read cycles can do: the clock and the record move on, gaps are used up, and other masters may write memory. No
register, flag, line or latch changes; memory stays canonical; and without another master it does not change. -/
def Elapsed (s t : State) : Prop :=
  ∃ m c b g, t = { s with mem := m, clock := c, bus := b, gaps := g } ∧
    g <:+ s.gaps ∧ (s.alone → m = s.mem) ∧ (s.mem.wf = true → m.wf = true)

theorem Elapsed.refl (s : State) : Elapsed s s := ⟨_, _, _, _, rfl, List.suffix_refl _, fun _ => rfl, id⟩

/-- A step that is the core's own stays so as its cycles pass. -/
theorem alone_of_suffix (s t : State) (h : s.alone) (hg : t.gaps <:+ s.gaps) : t.alone :=
  fun gap hm => h gap (hg.subset hm)

theorem Elapsed.alone {s t : State} (h : Elapsed s t) (ha : s.alone) : t.alone := by
  obtain ⟨m, c, b, g, rfl, hg, -, -⟩ := h
  exact alone_of_suffix s _ ha hg

/-- In a step without another master only the model's own fields move. -/
theorem Elapsed.state {s t : State} (h : Elapsed s t) (ha : s.alone) :
    ∃ c b g, t = { s with clock := c, bus := b, gaps := g } ∧ t.alone := by
  have hta := h.alone ha
  obtain ⟨m, c, b, g, rfl, -, hm, -⟩ := h
  obtain rfl := hm ha
  exact ⟨c, b, g, rfl, hta⟩

theorem Elapsed.trans {s t u : State} (h : Elapsed s t) (k : Elapsed t u) : Elapsed s u := by
  have ha := h.alone
  obtain ⟨m, c, b, g, rfl, hg, hm, hw⟩ := h
  obtain ⟨m', c', b', g', rfl, hg', hm', hw'⟩ := k
  exact ⟨m', c', b', g', rfl, hg'.trans hg, fun h => (hm' (ha h)).trans (hm h), fun h => hw' (hw h)⟩

/-- A next state that is `t` after cycles that pass answers `t`. -/
theorem Elapsed.answers {t u : State} (h : Elapsed t u) {r : Result} (hr : r = .next u) : Answers r t := by
  obtain ⟨m, c, b, g, rfl, -, hm, -⟩ := h
  exact ⟨m, c, b, g, hr, hm⟩

/-- Before a cycle memory changes at most by another master (R47, R54). -/
theorem beforeRead_elapsed (s : State) (k : CycleKind) (a : Word) : Elapsed s (s.beforeRead k a) :=
  ⟨_, _, _, _, rfl, List.tail_suffix _, memShared_alone s _, wf_memShared s _⟩

theorem beforeWrite_elapsed (s : State) : Elapsed s s.beforeWrite := by
  refine ⟨_, _, _, _, rfl, ?_, memShared_alone s _, wf_memShared s _⟩
  split
  · exact List.tail_suffix _
  · exact List.suffix_refl _

theorem tick_elapsed (s : State) (cycle : BusCycle) : Elapsed s (s.tick cycle) :=
  ⟨_, _, _, _, rfl, List.suffix_refl _, fun _ => rfl, id⟩

theorem busRead_elapsed (k : CycleKind) (a : Word) (s : State) : Elapsed s (busRead k a s).2 :=
  (beforeRead_elapsed s k a).trans (tick_elapsed _ _)

theorem discard_elapsed (a : Word) (s : State) : Elapsed s (discard a s) := busRead_elapsed .discard a s

theorem zeroPagePointer_elapsed (z : Byte) (s : State) : Elapsed s (zeroPagePointer z s).2 :=
  (busRead_elapsed .pointer (zeroPage z) s).trans (busRead_elapsed .pointer (zeroPage (z + 1)) _)

theorem resolveIndexed_elapsed (use : Use) (base : Word) (idx : Byte) (s : State) :
    Elapsed s (resolveIndexed use base idx s).2 := by
  unfold resolveIndexed
  dsimp only
  split
  · exact discard_elapsed _ s
  · exact .refl s

/-- The address of an indexed operand is the sum, whatever the cycles (R79, R80). -/
@[simp] theorem resolveIndexed_fst (use : Use) (base : Word) (idx : Byte) (s : State) :
    (resolveIndexed use base idx s).1 = indexed base idx := by
  unfold resolveIndexed
  dsimp only
  split <;> rfl

/-- Forming an address only lets cycles pass. -/
theorem resolve_elapsed (use : Use) (m : Addr) (s : State) : Elapsed s (resolve use m s).2 := by
  cases m with
  | zeroPage z => exact .refl s
  | zeroPageX z => exact discard_elapsed _ s
  | zeroPageY z => exact discard_elapsed _ s
  | absolute w => exact .refl s
  | absoluteX w => exact resolveIndexed_elapsed use w s.x s
  | absoluteY w => exact resolveIndexed_elapsed use w s.y s
  | indirectX z => exact (discard_elapsed _ s).trans (zeroPagePointer_elapsed _ _)
  | indirectY z => exact (zeroPagePointer_elapsed z s).trans (resolveIndexed_elapsed use _ s.y _)

/-- Reading an operand only lets cycles pass. -/
theorem readSource_elapsed (src : Source) (s : State) : Elapsed s (readSource src s).2 := by
  cases src with
  | imm v => exact .refl s
  | mem m => exact (resolve_elapsed .load m s).trans (busRead_elapsed _ _ _)

/-! ## Cycles without gaps -/

/-- With no gap before it a read cycle is one cycle. -/
theorem busRead_noGaps (k : CycleKind) (a : Word) (s : State) (h : s.gaps = []) :
    ∃ b, (busRead k a s).2 = { s with clock := s.clock + 1, bus := b } := by
  have he : s.beforeRead k a = s := by
    unfold State.beforeRead State.memShared
    rw [waits_nil s h, h]
    cases s
    simp_all [State.repeated]
  exact ⟨_, by unfold busRead; rw [he]; rfl⟩

theorem discard_noGaps (a : Word) (s : State) (h : s.gaps = []) :
    ∃ b, discard a s = { s with clock := s.clock + 1, bus := b } := busRead_noGaps .discard a s h

/-- With no gap before it a write cycle is one cycle, and memory is as the write leaves it. -/
theorem busWrite_noGaps (k : CycleKind) (a : Word) (v : Byte) (s : State) (h : s.gaps = []) :
    ∃ b, busWrite k a v s = { s with mem := s.memAfterWrite a v, clock := s.clock + 1, bus := b } := by
  have he : s.beforeWrite = s := by
    unfold State.beforeWrite State.memShared
    rw [h]
    cases s
    simp_all
  exact ⟨_, by unfold busWrite; rw [he]; rfl⟩

/-- A step without gaps is the core's own. -/
theorem alone_of_noGaps (s : State) (h : s.gaps = []) : s.alone := by
  intro gap hg
  rw [h] at hg
  cases hg

/-! ## The byte a read delivers -/

/-- A read of ram or rom answers memory's byte (R45). -/
theorem dataAt_memory (s : State) (a : Word) (h : s.isMemory a) : s.dataAt a = s.memByte a := by
  unfold State.isMemory at h
  unfold State.dataAt State.memByte
  rcases h with h | h <;> simp [h]

/-- After any number of the core's own cycles a read of ram or rom answers the byte memory holds (R54). -/
theorem busRead_memory {s u : State} (h : Elapsed s u) (ha : s.alone) (k : CycleKind) (a : Word) (hm : s.isMemory a) :
    (busRead k a u).1 = s.memByte a := by
  have hb := h.trans (beforeRead_elapsed u k a)
  obtain ⟨c, b, g, he, -⟩ := hb.state ha
  rw [busRead_fst, he]
  exact dataAt_memory { s with clock := c, bus := b, gaps := g } a hm

/-- Two read cycles of ram or rom deliver memory's word (R42, R45). -/
theorem readWord_memory {s u : State} (h : Elapsed s u) (ha : s.alone) (k : CycleKind) (lo hi : Word)
    (hl : s.isMemory lo) (hh : s.isMemory hi) : readWord k lo hi u = s.memWord hi lo := by
  unfold readWord State.memWord
  rw [busRead_memory (h.trans (busRead_elapsed k lo u)) ha k hi hh, busRead_memory h ha k lo hl]

/-! ## Writes -/

/-- What a write cycle of the core does to memory, byte by byte (R44, R46, R60, R29). -/
theorem read_memAfterWrite (s : State) (a : Word) (v : Byte) (b : Nat) :
    (s.memAfterWrite a v).read b =
      if s.cfg.kindAt (s.cfg.busAddr a) = .ram ∧ s.driversOff = false ∧ s.inhibits a = false ∧ s.cfg.busAddr a = b then v
      else s.mem.read b := by
  unfold State.memAfterWrite
  cases hk : s.cfg.kindAt (s.cfg.busAddr a) <;> cases hd : s.driversOff <;> cases hi : s.inhibits a <;>
    simp [Memory.read_write]

/-- A write cycle leaves every other bus address alone. -/
theorem read_memAfterWrite_other (s : State) (a : Word) (v : Byte) (b : Nat) (h : b ≠ s.cfg.busAddr a) :
    (s.memAfterWrite a v).read b = s.mem.read b := by
  rw [read_memAfterWrite, if_neg]
  rintro ⟨-, -, -, hb⟩
  exact h hb.symm

/-- Without a fall of RES nothing inhibits a write (R29, R273). -/
theorem inhibits_eq_false (s : State) (a : Word) (h : s.edges.res = false) : s.inhibits a = false := by
  simp [State.inhibits, h]

/-- A write that lands is read back (R46). -/
theorem read_memAfterWrite_same (s : State) (a : Word) (v : Byte) (hr : s.edges.res = false) (h : s.lands a) :
    (s.memAfterWrite a v).read (s.cfg.busAddr a) = v := by
  rw [read_memAfterWrite, if_pos ⟨h.1, h.2, inhibits_eq_false s a hr, rfl⟩]

/-- A write that does not land changes nothing (R46, R60). -/
theorem memAfterWrite_of_not_lands (s : State) (a : Word) (v : Byte) (h : ¬ s.lands a) :
    s.memAfterWrite a v = s.mem := by
  unfold State.lands at h
  unfold State.memAfterWrite
  cases hk : s.cfg.kindAt (s.cfg.busAddr a) <;> cases hd : s.driversOff <;> simp_all

/-- Which write cycles land depends on the configuration, the lines and memory alone, unless RES falls. -/
theorem memAfterWrite_congr (s u : State) (a : Word) (v : Byte) (hc : u.cfg = s.cfg) (hp : u.pins = s.pins)
    (hm : u.mem = s.mem) (hs : s.edges.res = false) (hu : u.edges.res = false) :
    u.memAfterWrite a v = s.memAfterWrite a v := by
  unfold State.memAfterWrite State.driversOff
  rw [hc, hp, hm, inhibits_eq_false s a hs, inhibits_eq_false u a hu]

/-- In a step of the core's own, what a write cycle leaves in memory. -/
theorem busWrite_mem_steady {s u : State} (h : Elapsed s u) (hs : s.steady) (k : CycleKind) (a : Word) (v : Byte) :
    (busWrite k a v u).mem = s.memAfterWrite a v := by
  obtain ⟨c, b, g, he, -⟩ := (h.trans (beforeWrite_elapsed u)).state hs.1
  rw [busWrite_mem, he]
  exact memAfterWrite_congr s _ a v rfl rfl rfl hs.2 hs.2

/-- A write cycle changes memory and the model's own fields. -/
theorem busWrite_state (k : CycleKind) (a : Word) (v : Byte) (s : State) :
    ∃ m c b g, busWrite k a v s = { s with mem := m, clock := c, bus := b, gaps := g } ∧ g <:+ s.gaps ∧
      (s.mem.wf = true → m.wf = true) := by
  obtain ⟨m, c, b, g, he, hg, -, hw⟩ := beforeWrite_elapsed s
  refine ⟨s.beforeWrite.memAfterWrite a v, _, _, s.beforeWrite.gaps, rfl, by rw [he]; exact hg, fun h => ?_⟩
  exact wf_memAfterWrite _ _ _ (by rw [he]; exact hw h)

/-- A write in a step of the core's own: the byte, if it lands, and cycles that pass. -/
theorem busWrite_elapsed {s u : State} (h : Elapsed s u) (hs : s.steady) (k : CycleKind) (a : Word) (v : Byte) :
    Elapsed { s with mem := s.memAfterWrite a v } (busWrite k a v u) := by
  have hm := busWrite_mem_steady h hs k a v
  obtain ⟨c, b, g, he, ha⟩ := h.state hs.1
  have hg : g <:+ s.gaps := by
    obtain ⟨_, _, _, g', he', hg', -, -⟩ := h
    rw [he] at he'
    injection he'
    simp_all
  obtain ⟨m, c', b', g', hw, hg', -⟩ := busWrite_state k a v u
  rw [hw] at hm ⊢
  rw [he] at hg' ⊢
  exact ⟨m, c', b', g', rfl, hg'.trans hg, fun _ => hm, fun hwf => by rw [show m = s.memAfterWrite a v from hm]; exact hwf⟩

/-! ## The end of a sequence -/

/-- On a platform without inexact devices a sequence ends in a next state (R61). -/
theorem finish_runnable (s : State) (h : s.cfg.runnable) : finish s = .next s := by
  unfold finish State.inexactDevice
  rcases h with h | h
  · simp [h]
  · have : (s.bus.any fun cycle => !cycle.kind.plain && decide (s.cfg.kindAt cycle.addr = .device)) = false := by
      simp [h]
    simp [this]

/-- A sequence that answers a next state answers the state it has reached. -/
theorem finish_next (s t : State) (h : finish s = .next t) : t = s := by
  unfold finish at h
  split at h
  · cases h
  · cases h
    rfl

/-- A sequence has no other outcome: a next state, or the refusal of R61. -/
theorem finish_cases (s : State) : finish s = .next s ∨ finish s = .refused .deviceNeedsBusExact := by
  unfold finish
  split
  · exact .inr rfl
  · exact .inl rfl

/-! ## The vector -/

/-- Reading a vector changes PC and lets two cycles pass (R50, R241). -/
theorem loadVector_elapsed (v : Word) (s : State) :
    ∃ pc u, loadVector v s = { u with pc := pc } ∧ Elapsed s u ∧
      (s.alone → s.isMemory v → s.isMemory (v + 1) → pc = s.memWord (v + 1) v) :=
  ⟨word (busRead .vector (v + 1) (busRead .vector v s).2).1 (busRead .vector v s).1,
    (busRead .vector (v + 1) (busRead .vector v s).2).2, rfl,
    (busRead_elapsed _ _ _).trans (busRead_elapsed _ _ _),
    fun ha h1 h2 => congrArg₂ word (busRead_memory (busRead_elapsed .vector v s) ha .vector (v + 1) h2)
      (busRead_memory (.refl s) ha .vector v h1)⟩

/-- Without gaps reading a vector takes two cycles. -/
theorem loadVector_noGaps (v : Word) (s : State) (h : s.gaps = []) :
    ∃ pc b, loadVector v s = { s with pc := pc, clock := s.clock + 2, bus := b } ∧
      (s.isMemory v → s.isMemory (v + 1) → pc = s.memWord (v + 1) v) := by
  obtain ⟨b1, h1⟩ := busRead_noGaps .vector v s h
  obtain ⟨b2, h2⟩ := busRead_noGaps .vector (v + 1) { s with clock := s.clock + 1, bus := b1 } h
  refine ⟨word (busRead .vector (v + 1) (busRead .vector v s).2).1 (busRead .vector v s).1, b2, ?_, fun m1 m2 => ?_⟩
  · have he : loadVector v s = { (busRead .vector (v + 1) (busRead .vector v s).2).2 with
        pc := word (busRead .vector (v + 1) (busRead .vector v s).2).1 (busRead .vector v s).1 } := rfl
    rw [he]
    generalize word _ _ = w
    rw [h1, h2]
  · have ha := alone_of_noGaps s h
    exact congrArg₂ word (busRead_memory (busRead_elapsed .vector v s) ha .vector (v + 1) m2)
      (busRead_memory (.refl s) ha .vector v m1)

/-- With no edge on NMI inside the step, the sequence ends through its own vector (R246). -/
theorem fetchVector_quiet (v : Word) (s : State) (h : s.edges.nmi = false) : fetchVector v s = loadVector v s := by
  simp [fetchVector, State.diverted, h]

end Sys2Proof.Machine
end

