-- ==== Sys2Proof/Laws/Decode.lean ====
section
/-!
SUPPORT. Words and their halves, and what the decoder does with each kind of opcode byte, said once.
-/

namespace Sys2Proof

/-! ## A word and its halves -/

@[simp] theorem toNat_word (hi lo : Byte) : (word hi lo).toNat = hi.toNat * 256 + lo.toNat := by
  have := hi.isLt
  have := lo.isLt
  simp only [word, BitVec.toNat_ofNat]
  omega

@[simp] theorem toNat_hiByte (w : Word) : (hiByte w).toNat = w.toNat / 256 := by
  have := w.isLt
  simp only [hiByte, BitVec.toNat_ofNat]
  omega

@[simp] theorem toNat_loByte (w : Word) : (loByte w).toNat = w.toNat % 256 := by
  simp [loByte]

/-- A word is made of its halves. -/
@[simp] theorem word_hiByte_loByte (w : Word) : word (hiByte w) (loByte w) = w := by
  apply BitVec.eq_of_toNat_eq
  rw [toNat_word, toNat_hiByte, toNat_loByte]
  omega

@[simp] theorem hiByte_word (hi lo : Byte) : hiByte (word hi lo) = hi := by
  apply BitVec.eq_of_toNat_eq
  have := lo.isLt
  rw [toNat_hiByte, toNat_word]
  omega

@[simp] theorem loByte_word (hi lo : Byte) : loByte (word hi lo) = lo := by
  apply BitVec.eq_of_toNat_eq
  have := lo.isLt
  rw [toNat_loByte, toNat_word]
  omega

/-! ## The decoder, by the form of the opcode byte -/

theorem decode_undefined (op : Byte) (rest : List Byte) (h : formOf op = none) :
    decode (op :: rest) = .error (.undefinedOpcode op) := by
  unfold decode
  simp [h]

theorem decode_bare (op : Byte) (i : Instr) (rest : List Byte) (h : formOf op = some (.bare i)) :
    decode (op :: rest) = .ok (i, rest) := by
  unfold decode
  simp [h]

theorem decode_byte (op b1 : Byte) (f : Byte → Instr) (rest : List Byte) (h : formOf op = some (.byte f)) :
    decode (op :: b1 :: rest) = .ok (f b1, rest) := by
  unfold decode
  simp [h]

theorem decode_addr (op b1 b2 : Byte) (f : Word → Instr) (rest : List Byte) (h : formOf op = some (.addr f)) :
    decode (op :: b1 :: b2 :: rest) = .ok (f (word b2 b1), rest) := by
  unfold decode
  simp [h]

/-- What the decoder can answer, by the form of the opcode byte. -/
theorem decode_ok_cases (op : Byte) (rest : List Byte) (i : Instr) (left : List Byte)
    (h : decode (op :: rest) = .ok (i, left)) :
    (formOf op = some (.bare i) ∧ left = rest) ∨
    (∃ f b1, formOf op = some (.byte f) ∧ rest = b1 :: left ∧ i = f b1) ∨
    (∃ f b1 b2, formOf op = some (.addr f) ∧ rest = b1 :: b2 :: left ∧ i = f (word b2 b1)) := by
  unfold decode at h
  cases hf : formOf op with
  | none => simp [hf] at h
  | some form =>
    cases form with
    | bare j =>
      simp only [hf, Except.ok.injEq, Prod.mk.injEq] at h
      exact .inl ⟨by rw [h.1], h.2.symm⟩
    | byte f =>
      match rest, h with
      | [], h => simp [hf] at h
      | b1 :: rest', h =>
        simp only [hf, Except.ok.injEq, Prod.mk.injEq] at h
        exact .inr (.inl ⟨f, b1, rfl, by rw [h.2], h.1.symm⟩)
    | addr f =>
      match rest, h with
      | [], h => simp [hf] at h
      | [_], h => simp [hf] at h
      | b1 :: b2 :: rest', h =>
        simp only [hf, Except.ok.injEq, Prod.mk.injEq] at h
        exact .inr (.inr ⟨f, b1, b2, rfl, by rw [h.2], h.1.symm⟩)

end Sys2Proof
end

