-- ==== Sys2Proof/Laws/Stack.lean ====
section
/-!
SUPPORT. The stack page (R15): where it lies on the bus, and what one push leaves in memory.
-/

namespace Sys2Proof.Machine

/-- The stack location of S is 256 + S on the bus of every member (R15, R44). -/
@[simp] theorem busAddr_stackAddr (cfg : Config) (sp : Byte) : cfg.busAddr (stackAddr sp) = 256 + sp.toNat := by
  have h := sp.isLt
  have h1 : (1 : Byte).toNat = 1 := rfl
  unfold Config.busAddr stackAddr
  rw [toNat_word, h1]
  cases cfg.member <;> simp only [Member.addrPins] <;> omega

/-- Two stack locations share a bus address only if they are one. -/
theorem busAddr_stackAddr_inj (cfg : Config) (x y : Byte) (h : cfg.busAddr (stackAddr x) = cfg.busAddr (stackAddr y)) :
    x = y := by
  rw [busAddr_stackAddr, busAddr_stackAddr] at h
  exact BitVec.eq_of_toNat_eq (by omega)

/-! ## Arithmetic of S -/

theorem sub_one_sub_one (x : Byte) : x - 1 - 1 = x - 2 := by
  have := x.isLt
  apply BitVec.eq_of_toNat_eq
  simp [BitVec.toNat_sub]
  omega

theorem sub_one_sub_one_sub_one (x : Byte) : x - 1 - 1 - 1 = x - 3 := by
  have := x.isLt
  apply BitVec.eq_of_toNat_eq
  simp [BitVec.toNat_sub]
  omega

theorem add_one_add_one (x : Byte) : x + 1 + 1 = x + 2 := by
  apply BitVec.eq_of_toNat_eq
  simp [BitVec.toNat_add]

theorem add_one_add_one_add_one (x : Byte) : x + 1 + 1 + 1 = x + 3 := by
  apply BitVec.eq_of_toNat_eq
  simp [BitVec.toNat_add]

/-- Going down the stack one push further. -/
theorem sub_one_sub_ofNat (x : Byte) (k : Nat) : x - 1 - BitVec.ofNat 8 k = x - BitVec.ofNat 8 (k + 1) := by
  have := x.isLt
  apply BitVec.eq_of_toNat_eq
  simp [BitVec.toNat_sub]
  omega

/-! ## Several pushes -/

/-- The state after several pushes, the first byte of the list first. -/
def pushAll (bytes : List Byte) (s : State) : State :=
  match bytes with
  | [] => s
  | v :: rest => pushAll rest (push v s)

/-- What several pushes leave in memory, in a step of the core's own (R15). -/
def memAfterPushes (bytes : List Byte) (s : State) : Memory :=
  match bytes with
  | [] => s.mem
  | v :: rest => memAfterPushes rest { s with mem := s.memAfterWrite (stackAddr s.sp) v, sp := s.sp - 1 }

/-- Pushing an address is pushing its high byte and then its low byte (R40). -/
theorem pushWord_eq (w : Word) (s : State) : pushWord w s = pushAll [hiByte w, loByte w] s := rfl

/-- A push changes S, memory and the model's own fields; gaps may be used up; memory stays canonical. -/
theorem push_state (v : Byte) (s : State) :
    ∃ m b g, push v s = { s with sp := s.sp - 1, mem := m, clock := s.clock + 1, bus := b, gaps := g } ∧ g <:+ s.gaps ∧
      (s.mem.wf = true → m.wf = true) := by
  obtain ⟨m, c, b, g, he, hg, hw⟩ := busWrite_state .push (stackAddr s.sp) v s
  refine ⟨m, b, g, ?_, hg, hw⟩
  have hc : c = s.clock + 1 := (congrArg State.clock he).symm.trans (busWrite_clock _ _ _ _)
  unfold push
  rw [he, hc]

/-- Several pushes change S, memory and the model's own fields; gaps may be used up; memory stays canonical. -/
theorem pushAll_state (bytes : List Byte) (s : State) :
    ∃ m b g, pushAll bytes s =
        { s with sp := s.sp - BitVec.ofNat 8 bytes.length, mem := m, clock := s.clock + bytes.length, bus := b,
                 gaps := g } ∧
      g <:+ s.gaps ∧ (s.mem.wf = true → m.wf = true) := by
  induction bytes generalizing s with
  | nil => exact ⟨s.mem, s.bus, s.gaps, by simp [pushAll], List.suffix_refl _, id⟩
  | cons v rest ih =>
    obtain ⟨m1, b1, g1, h1, hg1, hw1⟩ := push_state v s
    obtain ⟨m, b, g, h, hg, hw⟩ := ih (push v s)
    rw [h1] at hg hw h
    refine ⟨m, b, g, ?_, hg.trans hg1, fun hwf => hw (hw1 hwf)⟩
    show pushAll rest (push v s) = _
    rw [h1, h]
    simp only [sub_one_sub_ofNat, List.length_cons, Nat.add_assoc, Nat.add_comm 1]

/-- A push in a step of the core's own: S, the byte if it lands, and cycles that pass. -/
theorem push_elapsed {s u : State} (h : Elapsed s u) (hs : s.steady) (v : Byte) :
    Elapsed { s with mem := s.memAfterWrite (stackAddr s.sp) v, sp := s.sp - 1 } (push v u) := by
  have hsp : u.sp = s.sp := by
    obtain ⟨_, _, _, _, he, -⟩ := h
    rw [he]
  have hw := busWrite_elapsed h hs .push (stackAddr s.sp) v
  obtain ⟨m, c, b, g, he, hg, hm, hwf⟩ := hw
  refine ⟨m, c, b, g, ?_, hg, hm, hwf⟩
  unfold push
  rw [hsp, he]

/-- Several pushes in a step of the core's own: S, the bytes that land, and cycles that pass (R15). -/
theorem pushAll_elapsed {s u : State} (bytes : List Byte) (h : Elapsed s u) (hs : s.steady) :
    Elapsed { s with mem := memAfterPushes bytes s, sp := s.sp - BitVec.ofNat 8 bytes.length } (pushAll bytes u) := by
  induction bytes generalizing s u with
  | nil => simpa [pushAll, memAfterPushes] using h
  | cons v rest ih =>
    have hr := ih (push_elapsed h hs v) ⟨hs.1, hs.2⟩
    simp only [sub_one_sub_ofNat] at hr
    exact hr

/-! ## What pushes leave in memory -/

/-- A push in one equation, byte by byte. -/
theorem read_push (s : State) (hr : s.edges.res = false) (v : Byte) (b : Nat) :
    (s.memAfterWrite (stackAddr s.sp) v).read b =
      if s.cfg.kindAt (256 + s.sp.toNat) = .ram ∧ s.driversOff = false ∧ 256 + s.sp.toNat = b then v
      else s.mem.read b := by
  rw [read_memAfterWrite, busAddr_stackAddr, inhibits_eq_false s _ hr]
  simp

theorem read_memAfterPushes_other (bytes : List Byte) (s : State) (hr : s.edges.res = false) (b : Nat)
    (hb : ∀ k, k < bytes.length → b ≠ 256 + (s.sp - BitVec.ofNat 8 k).toNat) :
    (memAfterPushes bytes s).read b = s.mem.read b := by
  induction bytes generalizing s with
  | nil => rfl
  | cons w rest ih =>
    have hrest := ih { s with mem := s.memAfterWrite (stackAddr s.sp) w, sp := s.sp - 1 } hr (fun k hk => by
      rw [sub_one_sub_ofNat]
      exact hb (k + 1) (by simpa using hk))
    unfold memAfterPushes
    rw [hrest, read_push s hr, if_neg]
    rintro ⟨-, -, h⟩
    exact hb 0 (by simp) (by simpa using h.symm)

theorem read_memAfterPushes_at (bytes : List Byte) (hl : bytes.length ≤ 256) (s : State) (hr : s.edges.res = false)
    (k : Nat) (v : Byte) (hk : bytes[k]? = some v) :
    (memAfterPushes bytes s).read (256 + (s.sp - BitVec.ofNat 8 k).toNat) =
      if s.cfg.kindAt (256 + (s.sp - BitVec.ofNat 8 k).toNat) = .ram ∧ s.driversOff = false then v
      else s.mem.read (256 + (s.sp - BitVec.ofNat 8 k).toNat) := by
  induction bytes generalizing s k with
  | nil => simp at hk
  | cons w rest ih =>
    have hlr : rest.length + 1 ≤ 256 := by simpa using hl
    unfold memAfterPushes
    cases k with
    | zero =>
      have hw : w = v := by simpa using hk
      rw [read_memAfterPushes_other rest { s with mem := s.memAfterWrite (stackAddr s.sp) w, sp := s.sp - 1 } hr]
      · show (s.memAfterWrite (stackAddr s.sp) w).read _ = _
        rw [read_push s hr, hw]
        simp
      · intro j hj h
        rw [sub_one_sub_ofNat] at h
        have := s.sp.isLt
        simp [BitVec.toNat_sub] at h
        omega
    | succ k =>
      have h := ih (by omega) { s with mem := s.memAfterWrite (stackAddr s.sp) w, sp := s.sp - 1 } hr k
        (by simpa using hk)
      rw [sub_one_sub_ofNat] at h
      rw [h, show State.driversOff { s with mem := s.memAfterWrite (stackAddr s.sp) w, sp := s.sp - 1 } = s.driversOff
        from rfl]
      split
      · rfl
      · rename_i hn
        show (s.memAfterWrite (stackAddr s.sp) w).read _ = _
        rw [read_push s hr, if_neg]
        rintro ⟨h1, h2, h3⟩
        exact hn ⟨h3 ▸ h1, h2⟩

/-- What pushes leave in memory depends on no register but S. -/
theorem memAfterPushes_congr (bytes : List Byte) (s u : State) (hsp : u.sp = s.sp) (hc : u.cfg = s.cfg)
    (hp : u.pins = s.pins) (hm : u.mem = s.mem) (hs : s.edges.res = false) (hu : u.edges.res = false) :
    memAfterPushes bytes u = memAfterPushes bytes s := by
  induction bytes generalizing s u with
  | nil => exact hm
  | cons v rest ih =>
    refine ih _ _ ?_ hc hp ?_ hs hu
    · show u.sp - 1 = s.sp - 1
      rw [hsp]
    · show u.memAfterWrite (stackAddr u.sp) v = s.memAfterWrite (stackAddr s.sp) v
      rw [hsp]
      exact memAfterWrite_congr s u _ v hc hp hm hs hu

/-- What pushes leave in memory (R15): at most 256 of them do not overwrite one another. -/
theorem pushedOnto_memAfterPushes (bytes : List Byte) (hl : bytes.length ≤ 256) (s u : State)
    (hr : s.edges.res = false) (hc : u.cfg = s.cfg) (hm : u.mem = memAfterPushes bytes s) : PushedOnto s u bytes := by
  refine ⟨fun b hb => ?_, fun k v hk => ⟨fun hland => ?_, fun hland => ?_⟩⟩
  · rw [hm]
    exact read_memAfterPushes_other bytes s hr b (fun k hk => by simpa using hb k hk)
  · unfold State.lands at hland
    rw [busAddr_stackAddr] at hland
    unfold State.memByte
    rw [hc, hm, busAddr_stackAddr, read_memAfterPushes_at bytes hl s hr k v hk, if_pos hland]
  · unfold State.lands at hland
    rw [busAddr_stackAddr] at hland
    unfold State.memByte
    rw [hc, hm, busAddr_stackAddr, read_memAfterPushes_at bytes hl s hr k v hk, if_neg hland]

/-! ## The entry of an interrupt or a break -/

/-- The state in which the vector is about to be read: three pushes made, I set (R241). -/
theorem takeException_eq (ret : Word) (brk : Bool) (vector : Word) (s : State) :
    takeException ret brk vector s =
      fetchVector vector
        { pushAll [hiByte ret, loByte ret, s.p.toByte brk] s with p := { s.p with i := true }, heldI := none } := rfl

/-- The vector is read, whether the sequence is diverted or not: PC, the NMI latch and line, one edge, and cycles that
pass (R246). -/
theorem fetchVector_state (v : Word) (s : State) :
    ∃ pc pending e pins u, fetchVector v s =
        { u with pc := pc, nmiPending := pending, edges := e, pins := pins } ∧ Elapsed s u ∧
      e.res = s.edges.res ∧ e.so = s.edges.so ∧ (s.cfg.member.hasNmi = false → pending = s.nmiPending) := by
  unfold fetchVector
  split
  · rename_i hd
    obtain ⟨pc, u, he, hu, -⟩ := loadVector_elapsed nmiVector
      { s with nmiPending := false, edges := { s.edges with nmi := false }, pins := { s.pins with nmiLow := true } }
    obtain ⟨m, c, b, g, rfl, hg, hm, hw⟩ := hu
    refine ⟨pc, false, { s.edges with nmi := false }, { s.pins with nmiLow := true },
      { s with mem := m, clock := c, bus := b, gaps := g }, he, ⟨m, c, b, g, rfl, hg, hm, hw⟩, rfl, rfl, fun h => ?_⟩
    simp [State.diverted, h] at hd
  · obtain ⟨pc, u, he, hu, -⟩ := loadVector_elapsed v s
    obtain ⟨m, c, b, g, rfl, hg, hm, hw⟩ := hu
    exact ⟨pc, s.nmiPending, s.edges, s.pins, _, he, ⟨m, c, b, g, rfl, hg, hm, hw⟩, rfl, rfl, fun _ => rfl⟩

/-- The entry of an exception, whatever happens inside it: three pushes, I set, and the fields the vector's reading may
change. -/
theorem takeException_state (ret : Word) (brk : Bool) (vector : Word) (s : State) :
    ∃ pc pending e pins m c b g, takeException ret brk vector s =
        { s with sp := s.sp - 3, p := { s.p with i := true }, heldI := none, mem := m, nmiPending := pending, edges := e,
                 pins := pins, clock := c, bus := b, gaps := g, pc := pc } ∧
      g <:+ s.gaps ∧ e.res = s.edges.res ∧ e.so = s.edges.so ∧ (s.mem.wf = true → m.wf = true) ∧
      (s.cfg.member.hasNmi = false → pending = s.nmiPending) := by
  obtain ⟨m1, b1, g1, h1, hg1, hw1⟩ := pushAll_state [hiByte ret, loByte ret, s.p.toByte brk] s
  rw [takeException_eq, h1]
  obtain ⟨pc, pending, e, pins, u, he, ⟨m, c, b, g, rfl, hg, -, hw⟩, hr, hso, hp⟩ := fetchVector_state vector
    { s with sp := s.sp - 3, mem := m1, clock := s.clock + 3, bus := b1, gaps := g1, p := { s.p with i := true },
             heldI := none }
  exact ⟨pc, pending, e, pins, m, c, b, g, he, hg.trans hg1, hr, hso, fun hwf => hw (hw1 hwf), hp⟩

/-- The entry in a step of the core's own: the three bytes pushed, and, with no NMI edge inside it, PC from the vector
(R241). -/
theorem takeException_steady {s u : State} (ret : Word) (brk : Bool) (vector : Word) (h : Elapsed s u) (hs : s.steady) :
    (takeException ret brk vector u).mem = memAfterPushes [hiByte ret, loByte ret, s.p.toByte brk] s ∧
    (s.edges.nmi = false → s.isMemory vector → s.isMemory (vector + 1) →
      ∃ c b g, takeException ret brk vector u =
        { s with sp := s.sp - 3, p := { s.p with i := true }, heldI := none, clock := c, bus := b, gaps := g
                 mem := memAfterPushes [hiByte ret, loByte ret, s.p.toByte brk] s
                 pc := word ((memAfterPushes [hiByte ret, loByte ret, s.p.toByte brk] s).read (s.cfg.busAddr (vector + 1)))
                   ((memAfterPushes [hiByte ret, loByte ret, s.p.toByte brk] s).read (s.cfg.busAddr vector)) }) := by
  have hp : u.p = s.p := by
    obtain ⟨_, _, _, _, he, -⟩ := h
    rw [he]
  have hpush := pushAll_elapsed [hiByte ret, loByte ret, s.p.toByte brk] h hs
  rw [takeException_eq, hp]
  generalize memAfterPushes [hiByte ret, loByte ret, s.p.toByte brk] s = m at hpush ⊢
  have ha1 : State.alone { s with mem := m, sp := s.sp - BitVec.ofNat 8 3 } := hs.1
  obtain ⟨c, b, g, he, ha⟩ := hpush.state ha1
  simp only [List.length_cons, List.length_nil, Nat.zero_add, Nat.reduceAdd] at he
  rw [he]
  constructor
  · obtain ⟨_, _, _, _, v, hv, hel, -⟩ := fetchVector_state vector
      { s with mem := m, sp := s.sp - BitVec.ofNat 8 3, clock := c, bus := b, gaps := g, p := { s.p with i := true },
               heldI := none }
    obtain ⟨_, _, _, rfl, -⟩ := hel.state (by rw [he] at ha; exact ha)
    rw [hv]
  · intro hn h1 h2
    rw [fetchVector_quiet _ _ (by exact hn)]
    obtain ⟨pc, v, hv, hel, hpc⟩ := loadVector_elapsed vector
      { s with mem := m, sp := s.sp - BitVec.ofNat 8 3, clock := c, bus := b, gaps := g, p := { s.p with i := true },
               heldI := none }
    have ha' : State.alone { s with mem := m, sp := s.sp - BitVec.ofNat 8 3, clock := c, bus := b, gaps := g,
                                    p := { s.p with i := true }, heldI := none } := by
      rw [he] at ha
      exact ha
    rw [hpc ha' h1 h2] at hv
    obtain ⟨c', b', g', rfl, -⟩ := hel.state ha'
    exact ⟨c', b', g', hv⟩

/-! ## Pulls -/

/-- A pull raises S and lets a cycle pass. -/
theorem pull_elapsed (s : State) : Elapsed { s with sp := s.sp + 1 } (pull s).2 :=
  busRead_elapsed .pull (stackAddr (s.sp + 1)) { s with sp := s.sp + 1 }

/-- In a step of the core's own a pull of ram or rom answers memory's byte. -/
theorem pull_memory {s u : State} (h : Elapsed s u) (ha : s.alone) (hm : s.isMemory (stackAddr (s.sp + 1))) :
    (pull u).1 = s.memByte (stackAddr (s.sp + 1)) := by
  obtain ⟨c, b, g, rfl, ha'⟩ := h.state ha
  exact busRead_memory (.refl { s with sp := s.sp + 1, clock := c, bus := b, gaps := g }) ha' .pull _ hm

/-- A pull after cycles that pass. -/
theorem Elapsed.pull {s u : State} (h : Elapsed s u) : Elapsed { s with sp := s.sp + 1 } (pull u).2 := by
  have hp := pull_elapsed u
  obtain ⟨m, c, b, g, rfl, hg, hm, hw⟩ := h
  exact Elapsed.trans ⟨m, c, b, g, rfl, hg, hm, hw⟩ hp

/-- Two pulls raise S by two and let cycles pass. -/
theorem Elapsed.pullWord {s u : State} (h : Elapsed s u) : Elapsed { s with sp := s.sp + 2 } (pullWord u).2 := by
  have h2 := h.pull.pull
  rwa [show s.sp + 1 + 1 = s.sp + 2 from add_one_add_one s.sp] at h2

/-- Two pulls of ram or rom deliver memory's word, the low byte first (R184). -/
theorem pullWord_memory {s u : State} (h : Elapsed s u) (ha : s.alone) (h1 : s.isMemory (stackAddr (s.sp + 1)))
    (h2 : s.isMemory (stackAddr (s.sp + 2))) :
    (Machine.pullWord u).1 = s.memWord (stackAddr (s.sp + 2)) (stackAddr (s.sp + 1)) := by
  have e2 : s.sp + 1 + 1 = s.sp + 2 := add_one_add_one s.sp
  have hh : (Machine.pull (Machine.pull u).2).1 = s.memByte (stackAddr (s.sp + 2)) := by
    have ha' : State.alone { s with sp := s.sp + 1 } := ha
    have hm : State.isMemory { s with sp := s.sp + 1 } (stackAddr (s.sp + 1 + 1)) := by
      rw [e2]
      exact h2
    have hb := pull_memory h.pull ha' hm
    rw [← e2]
    exact hb
  have hw : (Machine.pullWord u).1 = word (Machine.pull (Machine.pull u).2).1 (Machine.pull u).1 := rfl
  rw [hw, hh, pull_memory h ha h1]
  rfl

end Sys2Proof.Machine
end

