-- ==== Sys2Proof/Laws/Events.lean ====
section
/-!
SUPPORT. What each sequence around the instructions can do, said once: the interrupt entries, the return, the reset
sequence, the sampling of the environment, the settling of the edges, the fetch, and the step at each event.
-/

namespace Sys2Proof.Machine

/-! ## Interrupt entries -/

/-- The two reads with which an entry begins only let cycles pass (R293). -/
theorem entryReads_elapsed (s : State) : Elapsed s (entryReads s) :=
  (busRead_elapsed .opcode s.pc s).trans (discard_elapsed s.pc _)

theorem entryReads_noGaps (s : State) (h : s.gaps = []) :
    ∃ b, entryReads s = { s with clock := s.clock + 2, bus := b } := by
  obtain ⟨b1, h1⟩ := busRead_noGaps .opcode s.pc s h
  obtain ⟨b2, h2⟩ := discard_noGaps s.pc { s with clock := s.clock + 1, bus := b1 } h
  exact ⟨b2, by unfold entryReads; rw [h1, h2]⟩

/-- The vector is read in two cycles where there are no gaps (R241). -/
theorem fetchVector_clock (v : Word) (s : State) (h : s.gaps = []) : (fetchVector v s).clock = s.clock + 2 := by
  unfold fetchVector
  split
  · obtain ⟨_, _, he, -⟩ := loadVector_noGaps nmiVector
      { s with nmiPending := false, edges := { s.edges with nmi := false }, pins := { s.pins with nmiLow := true } } h
    rw [he]
  · obtain ⟨_, _, he, -⟩ := loadVector_noGaps v s h
    rw [he]

/-- Three pushes and the vector take five cycles where there are no gaps (R241). -/
theorem takeException_clock (ret : Word) (brk : Bool) (vector : Word) (s : State) (h : s.gaps = []) :
    (takeException ret brk vector s).clock = s.clock + 5 := by
  obtain ⟨m, b, g, he, hg, -⟩ := pushAll_state [hiByte ret, loByte ret, s.p.toByte brk] s
  rw [h, List.suffix_nil] at hg
  subst hg
  rw [takeException_eq, he, fetchVector_clock _ _ rfl]
  rfl

/-- The NMI entry, whatever happens inside it (R240, R241): PC, S, I, the latch, memory, and the fields that the reading
of the vector may change. -/
theorem takeNmi_state (s : State) :
    ∃ pc m c b g, takeNmi s =
        { s with sp := s.sp - 3, p := { s.p with i := true }, heldI := none, mem := m, nmiPending := false, clock := c,
                 bus := b, gaps := g, pc := pc } ∧ g <:+ s.gaps ∧ (s.mem.wf = true → m.wf = true) := by
  obtain ⟨m0, c0, b0, g0, h0, hg0, -, hw0⟩ := entryReads_elapsed { s with nmiPending := false }
  obtain ⟨m1, b1, g1, h1, hg1, hw1⟩ := pushAll_state [hiByte s.pc, loByte s.pc, s.p.toByte false]
    { s with nmiPending := false, mem := m0, clock := c0, bus := b0, gaps := g0 }
  have hl : takeNmi s = loadVector nmiVector
      { pushAll [hiByte s.pc, loByte s.pc, s.p.toByte false]
          { s with nmiPending := false, mem := m0, clock := c0, bus := b0, gaps := g0 } with
        p := { s.p with i := true }, heldI := none } := by
    unfold takeNmi
    rw [h0]
    rfl
  rw [hl, h1]
  obtain ⟨pc, u, he, ⟨m, c, b, g, rfl, hg, -, hw⟩, -⟩ := loadVector_elapsed nmiVector
    { s with sp := s.sp - 3, mem := m1, nmiPending := false, clock := c0 + 3, bus := b1, gaps := g1,
             p := { s.p with i := true }, heldI := none }
  exact ⟨pc, m, c, b, g, he, (hg.trans hg1).trans hg0, fun h => hw (hw1 (hw0 h))⟩

/-- The IRQ entry, whatever happens inside it (R242, R241). -/
theorem takeIrq_state (s : State) :
    ∃ pc pending e pins m c b g, takeIrq s =
        { s with sp := s.sp - 3, p := { s.p with i := true }, heldI := none, mem := m, nmiPending := pending, edges := e,
                 pins := pins, clock := c, bus := b, gaps := g, pc := pc } ∧
      g <:+ s.gaps ∧ e.res = s.edges.res ∧ e.so = s.edges.so ∧ (s.mem.wf = true → m.wf = true) ∧
      (s.cfg.member.hasNmi = false → pending = s.nmiPending) := by
  obtain ⟨m0, c0, b0, g0, h0, hg0, -, hw0⟩ := entryReads_elapsed s
  obtain ⟨pc, pending, e, pins, m, c, b, g, he, hg, hr, hso, hw, hp⟩ := takeException_state s.pc false irqVector
    { s with mem := m0, clock := c0, bus := b0, gaps := g0 }
  refine ⟨pc, pending, e, pins, m, c, b, g, ?_, hg.trans hg0, hr, hso, fun h => hw (hw0 h), hp⟩
  unfold takeIrq
  rw [h0]
  exact he

/-- The NMI entry in a step of the core's own, with no edge on NMI inside it (R240, R241). -/
theorem takeNmi_steady (s : State) (hs : s.steady) (hn : s.edges.nmi = false) (h1 : s.isMemory nmiVector)
    (h2 : s.isMemory (nmiVector + 1)) :
    let m := memAfterPushes [hiByte s.pc, loByte s.pc, s.p.toByte false] s
    ∃ c b g, takeNmi s =
      { s with sp := s.sp - 3, p := { s.p with i := true }, heldI := none, nmiPending := false, clock := c, bus := b
               gaps := g, mem := m
               pc := word (m.read (s.cfg.busAddr (nmiVector + 1))) (m.read (s.cfg.busAddr nmiVector)) } := by
  dsimp only
  have hpc : (entryReads { s with nmiPending := false }).pc = s.pc := by
    obtain ⟨_, _, _, _, he, -⟩ := entryReads_elapsed { s with nmiPending := false }
    rw [he]
  unfold takeNmi
  dsimp only
  rw [hpc, ← memAfterPushes_congr [hiByte s.pc, loByte s.pc, s.p.toByte false] s { s with nmiPending := false }
    rfl rfl rfl rfl hs.2 hs.2]
  exact (takeException_steady s.pc false nmiVector (entryReads_elapsed { s with nmiPending := false }) ⟨hs.1, hs.2⟩).2
    hn h1 h2

/-- The IRQ entry in a step of the core's own, with no edge on NMI inside it (R242, R241). -/
theorem takeIrq_steady (s : State) (hs : s.steady) (hn : s.edges.nmi = false) (h1 : s.isMemory irqVector)
    (h2 : s.isMemory (irqVector + 1)) :
    let m := memAfterPushes [hiByte s.pc, loByte s.pc, s.p.toByte false] s
    ∃ c b g, takeIrq s =
      { s with sp := s.sp - 3, p := { s.p with i := true }, heldI := none, clock := c, bus := b, gaps := g, mem := m
               pc := word (m.read (s.cfg.busAddr (irqVector + 1))) (m.read (s.cfg.busAddr irqVector)) } := by
  dsimp only
  have hpc : (entryReads s).pc = s.pc := by
    obtain ⟨_, _, _, _, he, -⟩ := entryReads_elapsed s
    rw [he]
  unfold takeIrq
  dsimp only
  rw [hpc]
  exact (takeException_steady s.pc false irqVector (entryReads_elapsed s) hs).2 hn h1 h2

/-- An NMI entry takes seven cycles where there are no gaps (R290). -/
theorem takeNmi_clock (s : State) (h : s.gaps = []) : (takeNmi s).clock = s.clock + 7 := by
  obtain ⟨b, he⟩ := entryReads_noGaps { s with nmiPending := false } h
  unfold takeNmi
  rw [he]
  exact takeException_clock s.pc false nmiVector
    { s with nmiPending := false, clock := s.clock + 2, bus := b } h

/-- An IRQ entry takes seven cycles where there are no gaps (R290). -/
theorem takeIrq_clock (s : State) (h : s.gaps = []) : (takeIrq s).clock = s.clock + 7 := by
  obtain ⟨b, he⟩ := entryReads_noGaps s h
  unfold takeIrq
  rw [he]
  exact takeException_clock s.pc false irqVector { s with clock := s.clock + 2, bus := b } h

/-! ## The reset sequence -/

/-- What the reset sequence sets before it reads the vector (R270): the registers drawn, I set, nothing held or due, the
NMI edge of its own cycles dealt with. -/
def resetRegisters (s : State) (u : State) : State :=
  let draw := Config.resetDraw s.clock
  { u with a := draw.a, x := draw.x, y := draw.y, sp := draw.sp
           p := ⟨draw.n, draw.v, draw.d, true, draw.z, draw.c⟩, heldI := none, resetDue := false
           nmiPending := (s.cfg.member.hasNmi && s.edges.nmi) && Config.resetHearsNmi s.clock
           edges := { u.edges with nmi := false }, pins := { u.pins with nmiLow := u.pins.nmiLow || u.edges.nmi } }

/-- The five reads with which the reset sequence begins, the pushes turned into reads (R270, R274). -/
def resetReads (s : State) : State :=
  discard (stackAddr (s.sp - 2)) (discard (stackAddr (s.sp - 1)) (discard (stackAddr s.sp) (entryReads s)))

theorem resetReads_elapsed (s : State) : Elapsed s (resetReads s) :=
  (((entryReads_elapsed s).trans (discard_elapsed _ _)).trans (discard_elapsed _ _)).trans (discard_elapsed _ _)

theorem resetSequence_eq (s : State) :
    resetSequence s = loadVector resetVector (resetRegisters s (resetReads s)) := rfl

/-- The reset sequence (R270): no write of the core, I set, the registers drawn, and PC from the vector. -/
theorem resetSequence_state (s : State) :
    ∃ pc u, resetSequence s = { u with pc := pc } ∧ Elapsed (resetRegisters s s) u ∧
      (s.alone → s.isMemory resetVector → s.isMemory (resetVector + 1) →
        pc = s.memWord (resetVector + 1) resetVector) := by
  rw [resetSequence_eq]
  have hr := resetReads_elapsed s
  obtain ⟨m0, c0, b0, g0, h0, hg0, hm0, hw0⟩ := hr
  rw [h0]
  obtain ⟨pc, u, he, hu, hpc⟩ := loadVector_elapsed resetVector
    (resetRegisters s { s with mem := m0, clock := c0, bus := b0, gaps := g0 })
  have hr' : Elapsed (resetRegisters s s)
      (resetRegisters s { s with mem := m0, clock := c0, bus := b0, gaps := g0 }) :=
    ⟨m0, c0, b0, g0, rfl, hg0, hm0, hw0⟩
  refine ⟨pc, u, he, hr'.trans hu, fun ha h1 h2 => ?_⟩
  obtain rfl := hm0 ha
  exact hpc (fun gap hg => ha gap (hg0.subset hg)) h1 h2

/-- Without gaps the reset sequence takes seven cycles (R274). -/
theorem resetSequence_clock (s : State) (h : s.gaps = []) : (resetSequence s).clock = s.clock + 7 := by
  rw [resetSequence_eq]
  obtain ⟨b0, h0⟩ := entryReads_noGaps s h
  obtain ⟨b1, h1⟩ := discard_noGaps (stackAddr s.sp) { s with clock := s.clock + 2, bus := b0 } h
  obtain ⟨b2, h2⟩ := discard_noGaps (stackAddr (s.sp - 1)) { s with clock := s.clock + 3, bus := b1 } h
  obtain ⟨b3, h3⟩ := discard_noGaps (stackAddr (s.sp - 2)) { s with clock := s.clock + 4, bus := b2 } h
  have hr : resetReads s = { s with clock := s.clock + 5, bus := b3 } := by
    unfold resetReads
    rw [h0, h1, h2, h3]
  obtain ⟨_, _, he, -⟩ := loadVector_noGaps resetVector
    (resetRegisters s { s with clock := s.clock + 5, bus := b3 }) h
  rw [hr, he]
  rfl

/-! ## Returns -/

/-- The return from an interrupt: P from the first byte pulled, PC from the next two, S three higher (R213, R244). -/
theorem returnFromInterrupt_state {s u : State} (h : Elapsed s u) :
    ∃ p pc v, returnFromInterrupt u = { v with p := p, pc := pc } ∧ Elapsed { s with sp := s.sp + 3 } v ∧
      (s.alone → s.isMemory (stackAddr (s.sp + 1)) → s.isMemory (stackAddr (s.sp + 2)) →
        s.isMemory (stackAddr (s.sp + 3)) →
        p = Flags.ofByte (s.memByte (stackAddr (s.sp + 1))) ∧
        pc = s.memWord (stackAddr (s.sp + 3)) (stackAddr (s.sp + 2))) := by
  have e2 : s.sp + 1 + 1 = s.sp + 2 := add_one_add_one s.sp
  have e3 : s.sp + 1 + 2 = s.sp + 3 := by rw [← add_one_add_one, add_one_add_one_add_one]
  have hp := h.pull
  obtain ⟨m, c, b, g, he, hg, hm, hw⟩ := hp
  have hq : Elapsed { s with sp := s.sp + 1, p := Flags.ofByte (pull u).1 }
      { (pull u).2 with p := Flags.ofByte (pull u).1 } := ⟨m, c, b, g, by rw [he], hg, hm, hw⟩
  have hr := hq.pullWord
  obtain ⟨m', c', b', g', he', hg', hm', hw'⟩ := hr
  refine ⟨Flags.ofByte (pull u).1, (pullWord { (pull u).2 with p := Flags.ofByte (pull u).1 }).1,
    { s with sp := s.sp + 3, mem := m', clock := c', bus := b', gaps := g' }, ?_,
    ⟨m', c', b', g', rfl, hg', hm', hw'⟩, fun ha h1 h2 h3 => ?_⟩
  · have hx : returnFromInterrupt u =
        { (pullWord { (pull u).2 with p := Flags.ofByte (pull u).1 }).2 with
          pc := (pullWord { (pull u).2 with p := Flags.ofByte (pull u).1 }).1 } := rfl
    rw [hx]
    generalize (pullWord { (pull u).2 with p := Flags.ofByte (pull u).1 }).1 = w
    rw [he', ← e3]
  · rw [← e2] at h2
    rw [← e3] at h3
    refine ⟨by rw [pull_memory h ha h1], ?_⟩
    rw [pullWord_memory hq ha h2 h3, ← e2, ← e3]
    rfl

/-! ## The environment -/

@[simp] theorem sample_cfg (s : State) : (sample s).cfg = s.cfg := by
  unfold sample
  cases s.script <;> rfl

@[simp] theorem sample_clock (s : State) : (sample s).clock = s.clock := by
  unfold sample
  cases s.script <;> rfl

@[simp] theorem sample_bus (s : State) : (sample s).bus = [] := by
  unfold sample
  cases s.script <;> rfl

/-- A reset sequence is due where RES was low until now, and stays due (R270). -/
@[simp] theorem sample_resetDue (s : State) : (sample s).resetDue = (s.resetDue || s.pins.resLow) := by
  unfold sample
  cases s.script <;> rfl

/-- What the next input of the script does (R25, R27, R54, R59). -/
theorem sample_cons (s : State) (inp : Inputs) (rest : List Inputs) (h : s.script = inp :: rest) :
    sample s = { s with
      nmiPending := s.nmiPending || (s.cfg.member.hasNmi && !s.pins.nmiLow && inp.pins.nmiLow)
      resetDue := s.resetDue || s.pins.resLow
      p := { s.p with v := s.p.v || (s.hearsSo && !s.pins.soLow && inp.pins.soLow) }
      mem := applyDma s.cfg inp.dma s.mem, pins := inp.pins, edges := inp.edges, gaps := inp.gaps, script := rest
      bus := [] } := by
  unfold sample
  rw [h]

/-- The environment moves lines and memory, and through S.O. the flag V; it touches no other register (R25 to R29). -/
theorem sample_frame (s : State) :
    ∃ v pending due m pins e g script, sample s =
      { s with p := { s.p with v := v }, nmiPending := pending, resetDue := due, mem := m, pins := pins, edges := e,
               gaps := g, script := script, bus := [] } := by
  unfold sample
  cases s.script with
  | nil => exact ⟨_, _, _, _, _, _, _, _, rfl⟩
  | cons inp rest => exact ⟨_, _, _, _, _, _, _, _, rfl⟩

/-- Another bus master keeps memory in canonical form (R54, R59). -/
theorem wf_sample (s : State) (h : s.mem.wf = true) : (sample s).mem.wf = true := by
  unfold sample
  cases s.script with
  | nil => exact h
  | cons inp rest => exact wf_applyDma s.cfg inp.dma s.mem h

/-- The NMI latch of a member without the pin is not set (R25). -/
theorem sample_nmiPending (s : State) (h : s.cfg.member.hasNmi = false) : (sample s).nmiPending = s.nmiPending := by
  unfold sample
  cases s.script <;> simp [h]

/-- With nothing scripted the environment moves nothing. -/
theorem sample_nil (s : State) (h : s.script = []) :
    sample s = { s with resetDue := s.resetDue || s.pins.resLow, edges := .quiet, gaps := [], bus := [] } := by
  unfold sample
  rw [h]

/-! ## The end of a step -/

/-- Without an edge inside the step there is nothing to settle; the gaps go. -/
theorem settle_quiet (v : Bool) (t : State) (h : t.edges = .quiet) : settle v t = { t with gaps := [] } := by
  cases t
  cases h
  simp [settle, Edges.quiet]

/-- The settling of the edges touches V, the NMI latch, the lines, the edges and the gaps; nothing else. -/
theorem settle_frame (w : Bool) (t : State) :
    ∃ v pending pins, settle w t =
      { t with p := { t.p with v := v }, nmiPending := pending, pins := pins, edges := .quiet, gaps := [] } :=
  ⟨_, _, _, rfl⟩

/-- A next state that has been settled was a next state before. -/
theorem settleResult_next (w : Bool) (r : Result) (t : State) (h : settleResult w r = .next t) :
    ∃ u, r = .next u ∧ t = settle w u := by
  cases r with
  | next u =>
    cases h
    exact ⟨u, rfl, rfl⟩
  | fault f => cases h
  | refused why => cases h

/-! ## The fetch -/

/-- Fetching only lets cycles pass (R62). -/
theorem fetchOperands_elapsed (op : Byte) (n : Nat) (s : State) : Elapsed s (fetchOperands op n s).2 := by
  match n with
  | 0 => exact .refl s
  | 1 => exact busRead_elapsed .operand (s.pc + 1) s
  | _ + 2 =>
    by_cases hop : op = jsrOpcode
    · simp only [fetchOperands, hop, if_true]
      exact busRead_elapsed .operand (s.pc + 1) s
    · simp only [fetchOperands, hop, if_false]
      exact (busRead_elapsed .operand (s.pc + 1) s).trans (busRead_elapsed _ _ _)

/-- Fetching an instruction only lets cycles pass (R62). -/
theorem fetch_elapsed (s : State) (i : Instr) (s1 : State) (h : fetch s = .ok (i, s1)) : Elapsed s s1 := by
  unfold fetch at h
  dsimp only at h
  split at h
  · cases h
  · split at h
    · cases h
      exact (busRead_elapsed .opcode s.pc s).trans (fetchOperands_elapsed _ _ _)
    · cases h

/-! ## The step, event by event -/

section
variable (s : State)

theorem step_inReset (h : eventOf (sample s) = .inReset) : step s = .next (idle (sample s)) := by
  simp only [step, h]

theorem step_held (h : eventOf (sample s) = .held) :
    step s = settleResult false (.next (hold (sample s))) := by
  simp only [step, h]

theorem step_reset (h : eventOf (sample s) = .reset) :
    step s = settleResult false (finish (resetSequence (sample s))) := by
  simp only [step, h]

theorem step_nmi (h : eventOf (sample s) = .nmi) :
    step s = settleResult false (finish (takeNmi (sample s))) := by
  simp only [step, h]

theorem step_irq (h : eventOf (sample s) = .irq) :
    step s = settleResult false (finish (takeIrq (sample s))) := by
  simp only [step, h]

theorem step_instruction (h : eventOf (sample s) = .instruction) : step s = runInstruction (sample s) := by
  simp only [step, h]

/-- An instruction step is the fetch, the meaning, and the settling of the edges. -/
theorem runInstruction_of_fetch (i : Instr) (s1 : State) (h : fetch { s with heldI := none } = .ok (i, s1)) :
    runInstruction s = settleResult (writesV i.mnemonic) (exec i s1) := by
  simp only [runInstruction, h]

end

end Sys2Proof.Machine
end

