-- ==== Sys2Proof/Laws/Shapes.lean ====
section
/-!
SUPPORT. What each shape of instruction can do, said once: the state it ends in, the next state it answers where nothing
is refused and the step is the core's own, and that any next state it answers is that one.
-/

namespace Sys2Proof.Machine

/-! ## Writes inside an instruction -/

/-- Of two writes to one address the second is the one that counts (R159). -/
theorem memAfterWrite_twice (s : State) (a : Word) (v w : Byte) (hr : s.edges.res = false) :
    State.memAfterWrite { s with mem := s.memAfterWrite a v } a w = s.memAfterWrite a w := by
  have h1 : State.inhibits { s with mem := s.memAfterWrite a v } a = false := inhibits_eq_false _ a hr
  have h2 := inhibits_eq_false s a hr
  have hd : State.driversOff { s with mem := s.memAfterWrite a v } = s.driversOff := rfl
  unfold State.memAfterWrite at *
  rw [h1, hd]
  simp only [h2]
  cases hk : s.cfg.kindAt (s.cfg.busAddr a) <;> cases s.driversOff <;> simp [Memory.write_write]

/-! ## The state a shape ends in -/

/-- The state a reading instruction ends in. -/
theorem readInstr_eq (src : Source) (e : Byte → State → State) (s : State) :
    readInstr src e s = finish (advance src.length (e (readSource src s).1 (readSource src s).2)) := rfl

/-- The state a store ends in. -/
theorem storeInstr_eq (m : Addr) (v : Byte) (s : State) :
    storeInstr m v s =
      finish (advance (Operand.memory m).length
        (busWrite (.write (isPlainMode m)) (storeAddress m s) v (resolve .store m s).2)) := rfl

/-- The state in which a read-modify-write instruction has read its operand. -/
def afterOperand (m : Addr) (s : State) : State :=
  (busRead (.read false) (storeAddress m s) (resolve .store m s).2).2

theorem afterOperand_elapsed (m : Addr) (s : State) : Elapsed s (afterOperand m s) :=
  (resolve_elapsed .store m s).trans (busRead_elapsed _ _ _)

/-- The state a read-modify-write instruction ends in (R159). -/
theorem rmwInstr_eq (m : Addr) (f : Byte → Flags → ByteAndFlags) (s : State) :
    rmwInstr m f s =
      finish (advance (Operand.memory m).length
        { busWrite (.write false) (storeAddress m s) (f (rmwOperand m s) s.p).1
            (busWrite (.write false) (storeAddress m s) (rmwOperand m s) (afterOperand m s))
          with p := (f (rmwOperand m s) s.p).2 }) := by
  have hp : (afterOperand m s).p = s.p := by
    obtain ⟨_, _, _, _, he, -⟩ := afterOperand_elapsed m s
    rw [he]
  rw [← hp]
  rfl

/-- What the two writes of a read-modify-write instruction leave, in a step of the core's own (R159). -/
theorem rmwWrites_elapsed (m : Addr) (v w : Byte) (s : State) (hs : s.steady) :
    Elapsed { s with mem := s.memAfterWrite (storeAddress m s) w }
      (busWrite (.write false) (storeAddress m s) w (busWrite (.write false) (storeAddress m s) v (afterOperand m s))) := by
  have h1 := busWrite_elapsed (afterOperand_elapsed m s) hs (.write false) (storeAddress m s) v
  have h2 := busWrite_elapsed h1 ⟨hs.1, hs.2⟩ (.write false) (storeAddress m s) w
  rwa [memAfterWrite_twice s (storeAddress m s) v w hs.2] at h2

/-- The state a branch ends in: PC at the target or past the branch, after cycles that pass. -/
theorem branchInstr_eq (taken : Bool) (off : Byte) (s : State) :
    ∃ u, branchInstr taken off s = finish { u with pc := if taken then branchTarget s.pc off else branchNext s.pc } ∧
      Elapsed s u := by
  unfold branchInstr
  cases taken with
  | false => exact ⟨s, rfl, .refl s⟩
  | true =>
    cases hp : pageCross (branchNext s.pc) (branchTarget s.pc off) with
    | false => exact ⟨discard (branchNext s.pc) s, by simp [hp], discard_elapsed _ s⟩
    | true =>
      exact ⟨discard (word (hiByte (branchNext s.pc)) (loByte (branchTarget s.pc off))) (discard (branchNext s.pc) s),
        by simp [hp], (discard_elapsed _ s).trans (discard_elapsed _ _)⟩

/-! ## Next states -/

/-- An effect of an instruction on the registers: it does not look at the model's own fields or at memory, and keeps the
configuration. -/
structure OnRegisters (e : State → State) : Prop where
  cfg : ∀ t, (e t).cfg = t.cfg
  gaps : ∀ t, (e t).gaps = t.gaps
  mem : ∀ t, (e t).mem = t.mem
  commutes : ∀ (t : State) m c b g,
    e { t with mem := m, clock := c, bus := b, gaps := g } = { e t with mem := m, clock := c, bus := b, gaps := g }

/-- An effect on the registers may come before or after cycles that pass. -/
theorem OnRegisters.elapsed {e : State → State} (he : OnRegisters e) {s u : State} (h : Elapsed s u) :
    Elapsed (e s) (e u) := by
  obtain ⟨m, c, b, g, rfl, hg, hm, hw⟩ := h
  refine ⟨m, c, b, g, he.commutes s m c b g, by rw [he.gaps]; exact hg, fun ha => ?_, by rw [he.mem]; exact hw⟩
  rw [he.mem]
  exact hm (fun gap hgap => ha gap (by rw [he.gaps]; exact hgap))

/-- Moving PC may come before or after cycles that pass. -/
theorem Elapsed.withPc {s u : State} (h : Elapsed s u) (pc : Word) : Elapsed { s with pc := pc } { u with pc := pc } := by
  obtain ⟨m, c, b, g, rfl, hg, hm, hw⟩ := h
  exact ⟨m, c, b, g, rfl, hg, hm, hw⟩

/-- So may advancing it. -/
theorem Elapsed.advance {s u : State} (h : Elapsed s u) (n : Nat) :
    Elapsed { s with pc := s.pc + BitVec.ofNat 16 n } (advance n u) := by
  obtain ⟨m, c, b, g, rfl, hg, hm, hw⟩ := h
  exact ⟨m, c, b, g, rfl, hg, hm, hw⟩

/-- What it takes to answer a store: the state up to memory, and memory as one write leaves it where the step is the core's
own. -/
theorem answersStoring_of (s t : State) (a : Word) (v : Byte) (m : Memory) (c : Nat) (b : List BusCycle) (g : List Gap)
    {r : Result} (hr : r = .next { t with mem := m, clock := c, bus := b, gaps := g }) (hc : t.cfg = s.cfg)
    (hm : t.mem = s.mem) (hp : t.pins = s.pins) (hg : t.gaps = s.gaps ∧ t.edges = s.edges)
    (h : s.steady → m = s.memAfterWrite a v) : AnswersStoring r t a v := by
  refine ⟨m, c, b, g, hr, fun ht => ?_⟩
  have hs : s.steady := ⟨fun gap hgap => ht.1 gap (by rw [hg.1]; exact hgap), by rw [← hg.2]; exact ht.2⟩
  have hl : t.lands a ↔ s.lands a := by
    unfold State.lands State.driversOff
    rw [hc, hp]
  rw [h hs, hc, hm, hl]
  exact ⟨fun b hb => read_memAfterWrite_other s a v b hb, read_memAfterWrite_same s a v hs.2,
    memAfterWrite_of_not_lands s a v⟩

section
variable (s : State) (h : s.cfg.runnable)

include h

/-- A reading instruction answers a next state, whatever its effect, if the effect keeps the configuration. -/
theorem readInstr_next (src : Source) (e : Byte → State → State) (he : ∀ m t, (e m t).cfg = t.cfg) :
    readInstr src e s = .next (advance src.length (e (readSource src s).1 (readSource src s).2)) := by
  rw [readInstr_eq]
  apply finish_runnable
  obtain ⟨m, c, b, g, hs, -⟩ := readSource_elapsed src s
  simpa [he, hs] using h

/-- A reading instruction with an effect on the registers answers that effect. -/
theorem readInstr_answers (src : Source) (e : Byte → State → State) (he : OnRegisters (e (readSource src s).1)) :
    Answers (readInstr src e s)
      { e (readSource src s).1 s with pc := (e (readSource src s).1 s).pc + BitVec.ofNat 16 src.length } := by
  refine ((he.elapsed (readSource_elapsed src s)).advance src.length).answers ?_
  rw [readInstr_eq]
  apply finish_runnable
  obtain ⟨_, _, _, _, hs, -⟩ := readSource_elapsed src s
  simpa [he.cfg, hs] using h

/-- A store answers a next state. -/
theorem storeInstr_next (m : Addr) (v : Byte) :
    storeInstr m v s = .next (advance (Operand.memory m).length
      (busWrite (.write (isPlainMode m)) (storeAddress m s) v (resolve .store m s).2)) := by
  rw [storeInstr_eq]
  apply finish_runnable
  obtain ⟨_, c, b, g, hs, -⟩ := resolve_elapsed .store m s
  simpa [hs] using h

/-- A store writes one byte, at the address its mode resolves to, and moves PC. -/
theorem storeInstr_answers (m : Addr) (v : Byte) :
    AnswersStoring (storeInstr m v s) { s with pc := s.pc + BitVec.ofNat 16 (Operand.memory m).length }
      (storeAddress m s) v := by
  obtain ⟨m1, c1, b1, g1, h1, -⟩ := resolve_elapsed .store m s
  obtain ⟨m2, c2, b2, g2, h2, -⟩ :=
    busWrite_state (.write (isPlainMode m)) (storeAddress m s) v (resolve .store m s).2
  refine answersStoring_of s _ (storeAddress m s) v m2 c2 b2 g2 ?_ rfl rfl rfl ⟨rfl, rfl⟩ (fun hs => ?_)
  · rw [storeInstr_next s h, h2, h1]
    rfl
  · have hm := busWrite_mem_steady (resolve_elapsed .store m s) hs (.write (isPlainMode m)) (storeAddress m s) v
    rw [h2] at hm
    exact hm

/-- A read-modify-write instruction answers a next state. -/
theorem rmwInstr_next (m : Addr) (f : Byte → Flags → ByteAndFlags) :
    rmwInstr m f s = .next (advance (Operand.memory m).length
        { busWrite (.write false) (storeAddress m s) (f (rmwOperand m s) s.p).1
            (busWrite (.write false) (storeAddress m s) (rmwOperand m s) (afterOperand m s))
          with p := (f (rmwOperand m s) s.p).2 }) := by
  rw [rmwInstr_eq]
  apply finish_runnable
  obtain ⟨_, c, b, g, hs, -⟩ := afterOperand_elapsed m s
  simpa [hs] using h

/-- A read-modify-write instruction leaves the result at the address its mode resolves to, the flags of the operation, and
PC past the instruction (R159). -/
theorem rmwInstr_answers (m : Addr) (f : Byte → Flags → ByteAndFlags) :
    AnswersStoring (rmwInstr m f s)
      { s with p := (f (rmwOperand m s) s.p).2, pc := s.pc + BitVec.ofNat 16 (Operand.memory m).length }
      (storeAddress m s) (f (rmwOperand m s) s.p).1 := by
  obtain ⟨m1, c1, b1, g1, h1, -⟩ := afterOperand_elapsed m s
  obtain ⟨m2, c2, b2, g2, h2, -⟩ := busWrite_state (.write false) (storeAddress m s) (rmwOperand m s) (afterOperand m s)
  obtain ⟨m3, c3, b3, g3, h3, -⟩ := busWrite_state (.write false) (storeAddress m s) (f (rmwOperand m s) s.p).1
    (busWrite (.write false) (storeAddress m s) (rmwOperand m s) (afterOperand m s))
  refine answersStoring_of s _ (storeAddress m s) _ m3 c3 b3 g3 ?_ rfl rfl rfl ⟨rfl, rfl⟩ (fun hs => ?_)
  · rw [rmwInstr_next s h, h3, h2, h1]
    rfl
  · obtain ⟨_, _, _, he, -⟩ :=
      (rmwWrites_elapsed m (rmwOperand m s) (f (rmwOperand m s) s.p).1 s hs).state hs.1
    rw [h3] at he
    exact congrArg State.mem he

/-- A one-byte instruction answers a next state, whatever its effect, if the effect keeps the configuration. -/
theorem impliedInstr_next (e : State → State) (he : ∀ t, (e t).cfg = t.cfg) :
    impliedInstr e s = .next (advance 1 (e (discard (s.pc + 1) s))) :=
  finish_runnable _ (by simpa [he] using h)

/-- A one-byte instruction with an effect on the registers answers that effect. -/
theorem impliedInstr_answers (e : State → State) (he : OnRegisters e) :
    Answers (impliedInstr e s) { e s with pc := (e s).pc + 1 } :=
  ((he.elapsed (discard_elapsed (s.pc + 1) s)).advance 1).answers (impliedInstr_next s h e he.cfg)

/-- A branch leaves PC at the target or past the branch, and changes nothing else. -/
theorem branchInstr_answers (taken : Bool) (off : Byte) :
    Answers (branchInstr taken off s)
      { s with pc := if taken then branchTarget s.pc off else branchNext s.pc } := by
  obtain ⟨u, he, hu⟩ := branchInstr_eq taken off s
  refine (hu.withPc _).answers ?_
  rw [he]
  obtain ⟨_, _, _, _, rfl, -⟩ := hu
  exact finish_runnable _ h

end

end Sys2Proof.Machine
end

