-- ==== Sys2Proof/Laws/Exec.lean ====
section
/-!
SUPPORT. The shape of each mnemonic's meaning, over all its addressing modes at once.
-/

namespace Sys2Proof.Machine

/-! ## Reading instructions -/

section
variable (i : Instr) (src : Source) (s : State) (hs : i.operand.source = some src)

include hs

/-- The length of a reading instruction is its source's. -/
theorem length_of_source : src.length = i.length := by
  unfold Instr.length
  cases ho : i.operand <;> simp [ho, Operand.source] at hs <;> subst hs <;> simp [Source.length, Operand.length]

theorem exec_lda (hm : i.mnemonic = .lda) : exec i s = readInstr src lda s := by
  cases i <;> cases hm <;> cases hs <;> rfl

theorem exec_ldx (hm : i.mnemonic = .ldx) : exec i s = readInstr src ldx s := by
  cases i <;> cases hm <;> cases hs <;> rfl

theorem exec_ldy (hm : i.mnemonic = .ldy) : exec i s = readInstr src ldy s := by
  cases i <;> cases hm <;> cases hs <;> rfl

theorem exec_adc (hm : i.mnemonic = .adc) : exec i s = readInstr src addWithCarry s := by
  cases i <;> cases hm <;> cases hs <;> rfl

theorem exec_sbc (hm : i.mnemonic = .sbc) : exec i s = readInstr src subtractWithBorrow s := by
  cases i <;> cases hm <;> cases hs <;> rfl

theorem exec_cmp (hm : i.mnemonic = .cmp) : exec i s = readInstr src compareA s := by
  cases i <;> cases hm <;> cases hs <;> rfl

theorem exec_cpx (hm : i.mnemonic = .cpx) : exec i s = readInstr src compareX s := by
  cases i <;> cases hm <;> cases hs <;> rfl

theorem exec_cpy (hm : i.mnemonic = .cpy) : exec i s = readInstr src compareY s := by
  cases i <;> cases hm <;> cases hs <;> rfl

theorem exec_and (hm : i.mnemonic = .and) : exec i s = readInstr src andA s := by
  cases i <;> cases hm <;> cases hs <;> rfl

theorem exec_eor (hm : i.mnemonic = .eor) : exec i s = readInstr src eorA s := by
  cases i <;> cases hm <;> cases hs <;> rfl

theorem exec_ora (hm : i.mnemonic = .ora) : exec i s = readInstr src oraA s := by
  cases i <;> cases hm <;> cases hs <;> rfl

theorem exec_bit (hm : i.mnemonic = .bit) : exec i s = readInstr src testBits s := by
  cases i <;> cases hm <;> cases hs <;> rfl

end

/-! ## Stores and read-modify-write instructions -/

section
variable (i : Instr) (m : Addr) (s : State) (ho : i.operand = .memory m)

include ho

theorem exec_sta (hm : i.mnemonic = .sta) : exec i s = storeInstr m s.a s := by
  cases i <;> cases hm <;> cases ho <;> rfl

theorem exec_stx (hm : i.mnemonic = .stx) : exec i s = storeInstr m s.x s := by
  cases i <;> cases hm <;> cases ho <;> rfl

theorem exec_sty (hm : i.mnemonic = .sty) : exec i s = storeInstr m s.y s := by
  cases i <;> cases hm <;> cases ho <;> rfl

theorem exec_inc (hm : i.mnemonic = .inc) : exec i s = rmwInstr m increment s := by
  cases i <;> cases hm <;> cases ho <;> rfl

theorem exec_dec (hm : i.mnemonic = .dec) : exec i s = rmwInstr m decrement s := by
  cases i <;> cases hm <;> cases ho <;> rfl

theorem exec_asl (hm : i.mnemonic = .asl) : exec i s = rmwInstr m shiftLeft s := by
  cases i <;> cases hm <;> cases ho <;> rfl

theorem exec_lsr (hm : i.mnemonic = .lsr) : exec i s = rmwInstr m shiftRight s := by
  cases i <;> cases hm <;> cases ho <;> rfl

theorem exec_rol (hm : i.mnemonic = .rol) : exec i s = rmwInstr m rotateLeft s := by
  cases i <;> cases hm <;> cases ho <;> rfl

theorem exec_ror (hm : i.mnemonic = .ror) : exec i s = rmwInstr m rotateRight s := by
  cases i <;> cases hm <;> cases ho <;> rfl

end

end Sys2Proof.Machine
end

