-- ==== Sys2Proof/Laws/Forms.lean ====
section
/-!
SUPPORT. The twelve forms a meaning has, over all instructions at once: `exec_cases` says which form an instruction's
meaning is, and one lemma for each form says which next states it can answer.
-/

namespace Sys2Proof.Machine

/-! ## The effect of each mnemonic -/

/-- The effect of a reading instruction on its operand. -/
def readEffect : Mnemonic → Option (Byte → State → State)
  | .lda => some lda
  | .ldx => some ldx
  | .ldy => some ldy
  | .adc => some addWithCarry
  | .sbc => some subtractWithBorrow
  | .cmp => some compareA
  | .cpx => some compareX
  | .cpy => some compareY
  | .and => some andA
  | .eor => some eorA
  | .ora => some oraA
  | .bit => some testBits
  | _ => none

/-- The register a store writes. -/
def storedByte : Mnemonic → Option (State → Byte)
  | .sta => some (fun s => s.a)
  | .stx => some (fun s => s.x)
  | .sty => some (fun s => s.y)
  | _ => none

/-- The operation of a read-modify-write instruction, on memory or on the accumulator. -/
def rmwEffect : Mnemonic → Option (Byte → Flags → ByteAndFlags)
  | .inc => some increment
  | .dec => some decrement
  | .asl => some shiftLeft
  | .lsr => some shiftRight
  | .rol => some rotateLeft
  | .ror => some rotateRight
  | _ => none

/-- The effect of a one-byte instruction that ends at the next byte. -/
def impliedEffect : Mnemonic → Option (State → State)
  | .tax => some tax
  | .tay => some tay
  | .tsx => some tsx
  | .txa => some txa
  | .txs => some txs
  | .tya => some tya
  | .dex => some dex
  | .dey => some dey
  | .inx => some inx
  | .iny => some iny
  | .clc => some (fun s => { s with p := { s.p with c := false } })
  | .cld => some (fun s => { s with p := { s.p with d := false } })
  | .cli => some (writeI false)
  | .clv => some (fun s => { s with p := { s.p with v := false } })
  | .sec => some (fun s => { s with p := { s.p with c := true } })
  | .sed => some (fun s => { s with p := { s.p with d := true } })
  | .sei => some (writeI true)
  | .nop => some (fun s => s)
  | .pha => some (fun s => push s.a s)
  | .php => some (fun s => push (s.p.toByte true) s)
  | .pla => some (fun s => pullA (discard (stackAddr s.sp) s))
  | .plp => some (fun s => pullP (discard (stackAddr s.sp) s))
  | _ => none

/-! ## The form of each instruction -/

/-- The forms of a meaning. -/
inductive ExecForm (i : Instr) : Prop where
  | reads (src : Source) (e : Byte → State → State) (hs : i.operand.source = some src)
      (he : readEffect i.mnemonic = some e) (hx : ∀ s, exec i s = readInstr src e s)
  | stores (m : Addr) (v : State → Byte) (ho : i.operand = .memory m) (hv : storedByte i.mnemonic = some v)
      (hx : ∀ s, exec i s = storeInstr m (v s) s)
  | modifies (m : Addr) (f : Byte → Flags → ByteAndFlags) (ho : i.operand = .memory m)
      (hf : rmwEffect i.mnemonic = some f) (hx : ∀ s, exec i s = rmwInstr m f s)
  | accumulator (f : Byte → Flags → ByteAndFlags) (ho : i.operand = .accumulator)
      (hf : rmwEffect i.mnemonic = some f) (hx : ∀ s, exec i s = accumulatorInstr f s)
  | implied (e : State → State) (ho : i.operand = .implied) (he : impliedEffect i.mnemonic = some e)
      (hx : ∀ s, exec i s = impliedInstr e s)
  | branches (off : Byte) (taken : Flags → Bool) (ho : i.operand = .relative off)
      (ht : ∀ p, branchCondition p i.mnemonic = some (taken p)) (hx : ∀ s, exec i s = branchInstr (taken s.p) off s)
  | jumps (addr : Word) (hi : i = .jmpAbs addr)
  | jumpsIndirect (ptr : Word) (hi : i = .jmpInd ptr)
  | calls (addr : Word) (hi : i = .jsr addr)
  | returns (hi : i = .rts)
  | breaks (hi : i = .brk)
  | returnsFromInterrupt (hi : i = .rti)

/-- Every instruction's meaning has one of the forms. -/
theorem exec_cases (i : Instr) : ExecForm i := by
  cases i with
  | brk =>
    exact .breaks rfl
  | oraInx _ | oraZp _ | oraImm _ | oraAbs _ | oraIny _ | oraZpx _ | oraAby _ | oraAbx _ | andInx _
  | bitZp _ | andZp _ | andImm _ | bitAbs _ | andAbs _ | andIny _ | andZpx _ | andAby _ | andAbx _
  | eorInx _ | eorZp _ | eorImm _ | eorAbs _ | eorIny _ | eorZpx _ | eorAby _ | eorAbx _ | adcInx _
  | adcZp _ | adcImm _ | adcAbs _ | adcIny _ | adcZpx _ | adcAby _ | adcAbx _ | ldyImm _ | ldaInx _
  | ldxImm _ | ldyZp _ | ldaZp _ | ldxZp _ | ldaImm _ | ldyAbs _ | ldaAbs _ | ldxAbs _ | ldaIny _
  | ldyZpx _ | ldaZpx _ | ldxZpy _ | ldaAby _ | ldyAbx _ | ldaAbx _ | ldxAby _ | cpyImm _ | cmpInx _
  | cpyZp _ | cmpZp _ | cmpImm _ | cpyAbs _ | cmpAbs _ | cmpIny _ | cmpZpx _ | cmpAby _ | cmpAbx _
  | cpxImm _ | sbcInx _ | cpxZp _ | sbcZp _ | sbcImm _ | cpxAbs _ | sbcAbs _ | sbcIny _ | sbcZpx _
  | sbcAby _ | sbcAbx _ =>
    exact .reads _ _ rfl rfl (fun _ => rfl)
  | aslZp _ | aslAbs _ | aslZpx _ | aslAbx _ | rolZp _ | rolAbs _ | rolZpx _ | rolAbx _ | lsrZp _
  | lsrAbs _ | lsrZpx _ | lsrAbx _ | rorZp _ | rorAbs _ | rorZpx _ | rorAbx _ | decZp _ | decAbs _
  | decZpx _ | decAbx _ | incZp _ | incAbs _ | incZpx _ | incAbx _ =>
    exact .modifies _ _ rfl rfl (fun _ => rfl)
  | php | clc | plp | sec | pha | cli | pla | sei | dey | txa | tya | txs | tay | tax | clv | tsx | iny
  | dex | cld | inx | nop | sed =>
    exact .implied _ rfl rfl (fun _ => rfl)
  | aslAcc | rolAcc | lsrAcc | rorAcc =>
    exact .accumulator _ rfl rfl (fun _ => rfl)
  | bpl _ | bmi _ | bvc _ | bvs _ | bcc _ | bcs _ | bne _ | beq _ =>
    exact .branches _ _ rfl (fun _ => rfl) (fun _ => rfl)
  | jsr _ =>
    exact .calls _ rfl
  | rti =>
    exact .returnsFromInterrupt rfl
  | jmpAbs _ =>
    exact .jumps _ rfl
  | rts =>
    exact .returns rfl
  | jmpInd _ =>
    exact .jumpsIndirect _ rfl
  | staInx _ | styZp _ | staZp _ | stxZp _ | styAbs _ | staAbs _ | stxAbs _ | staIny _ | styZpx _
  | staZpx _ | stxZpy _ | staAby _ | staAbx _ =>
    exact .stores _ _ rfl rfl (fun _ => rfl)

/-! ## The next states of each form -/

section
variable (s t : State)

theorem readInstr_reaches (src : Source) (e : Byte → State → State) (h : readInstr src e s = .next t) :
    ∃ u, Elapsed s u ∧ t = advance src.length (e (readSource src s).1 u) := by
  rw [readInstr_eq] at h
  exact ⟨_, readSource_elapsed src s, finish_next _ _ h⟩

theorem storeInstr_reaches (m : Addr) (v : Byte) (h : storeInstr m v s = .next t) :
    ∃ mem c b g, t = { s with
        mem := mem, clock := c, bus := b, gaps := g, pc := s.pc + BitVec.ofNat 16 (Operand.memory m).length } ∧
      g <:+ s.gaps ∧ (s.mem.wf = true → mem.wf = true) := by
  rw [storeInstr_eq] at h
  obtain ⟨m1, c1, b1, g1, h1, hg1, -, hw1⟩ := resolve_elapsed .store m s
  obtain ⟨m2, c2, b2, g2, h2, hg2, hw2⟩ :=
    busWrite_state (.write (isPlainMode m)) (storeAddress m s) v (resolve .store m s).2
  rw [h2] at h
  rw [h1] at h hg2 hw2
  exact ⟨m2, c2, b2, g2, finish_next _ _ h, hg2.trans hg1, fun hw => hw2 (hw1 hw)⟩

theorem rmwInstr_reaches (m : Addr) (f : Byte → Flags → ByteAndFlags) (h : rmwInstr m f s = .next t) :
    ∃ mem c b g, t = { s with
        mem := mem, clock := c, bus := b, gaps := g, p := (f (rmwOperand m s) s.p).2
        pc := s.pc + BitVec.ofNat 16 (Operand.memory m).length } ∧
      g <:+ s.gaps ∧ (s.mem.wf = true → mem.wf = true) := by
  rw [rmwInstr_eq] at h
  generalize rmwOperand m s = v at h ⊢
  obtain ⟨m1, c1, b1, g1, h1, hg1, -, hw1⟩ := afterOperand_elapsed m s
  obtain ⟨m2, c2, b2, g2, h2, hg2, hw2⟩ := busWrite_state (.write false) (storeAddress m s) v (afterOperand m s)
  obtain ⟨m3, c3, b3, g3, h3, hg3, hw3⟩ := busWrite_state (.write false) (storeAddress m s) (f v s.p).1
    (busWrite (.write false) (storeAddress m s) v (afterOperand m s))
  rw [h3] at h
  rw [h2] at h hg3 hw3
  rw [h1] at h hg2 hw2
  exact ⟨m3, c3, b3, g3, finish_next _ _ h, (hg3.trans hg2).trans hg1, fun hw => hw3 (hw2 (hw1 hw))⟩

theorem impliedInstr_reaches (e : State → State) (h : impliedInstr e s = .next t) :
    ∃ u, Elapsed s u ∧ t = advance 1 (e u) := ⟨_, discard_elapsed (s.pc + 1) s, finish_next _ _ h⟩

theorem branchInstr_reaches (taken : Bool) (off : Byte) (h : branchInstr taken off s = .next t) :
    ∃ u, Elapsed s u ∧ t = { u with pc := if taken then branchTarget s.pc off else branchNext s.pc } := by
  obtain ⟨u, he, hu⟩ := branchInstr_eq taken off s
  rw [he] at h
  exact ⟨u, hu, finish_next _ _ h⟩

/-- The state JMP (indirect) reaches, where it is not refused (R181). -/
theorem execJmpInd_eq (ptr next : Word) (h : nextOfPointer s.cfg.jmpIndWrap ptr = some next) :
    ∃ u, execJmpInd ptr s = finish { u with pc := readWord .pointer ptr next s } ∧ Elapsed s u := by
  refine ⟨(busRead .pointer next (busRead .pointer ptr s).2).2, ?_,
    (busRead_elapsed .pointer ptr s).trans (busRead_elapsed _ _ _)⟩
  unfold execJmpInd
  simp only [h]
  rfl

theorem execJmpInd_reaches (ptr : Word) (h : execJmpInd ptr s = .next t) :
    ∃ u pc, Elapsed s u ∧ t = { u with pc := pc } := by
  cases hn : nextOfPointer s.cfg.jmpIndWrap ptr with
  | none =>
    unfold execJmpInd at h
    simp only [hn] at h
    cases h
  | some next =>
    obtain ⟨u, he, hu⟩ := execJmpInd_eq s ptr next hn
    rw [he] at h
    exact ⟨u, _, hu, finish_next _ _ h⟩

/-- JSR pushes its return address and then reads its third byte (R183). -/
theorem execJsr_eq (addr : Word) :
    execJsr addr s =
      finish { (busRead .operand (s.pc + 2)
          (pushAll [hiByte (s.pc + 2), loByte (s.pc + 2)] (discard (stackAddr s.sp) s))).2 with
        pc := word (busRead .operand (s.pc + 2)
          (pushAll [hiByte (s.pc + 2), loByte (s.pc + 2)] (discard (stackAddr s.sp) s))).1 (loByte addr) } := by
  rw [← pushWord_eq]
  rfl

/-- The state JSR reaches in a step of the core's own (R183). -/
theorem execJsr_steady (addr : Word) (hs : s.steady) (hm : s.isMemory (s.pc + 2)) :
    let m := memAfterPushes [hiByte (s.pc + 2), loByte (s.pc + 2)] s
    ∃ c b g, execJsr addr s = finish
      { s with sp := s.sp - 2, mem := m, clock := c, bus := b, gaps := g
               pc := word (m.read (s.cfg.busAddr (s.pc + 2))) (loByte addr) } := by
  dsimp only
  have hp := pushAll_elapsed [hiByte (s.pc + 2), loByte (s.pc + 2)] (discard_elapsed (stackAddr s.sp) s) hs
  have ha : State.alone { s with mem := memAfterPushes [hiByte (s.pc + 2), loByte (s.pc + 2)] s
                                 sp := s.sp - BitVec.ofNat 8 2 } := hs.1
  have hb := busRead_memory hp ha .operand (s.pc + 2) hm
  obtain ⟨c, b, g, he, -⟩ := (hp.trans (busRead_elapsed .operand (s.pc + 2) _)).state ha
  refine ⟨c, b, g, ?_⟩
  rw [execJsr_eq, hb, he]
  rfl

theorem execJsr_reaches (addr : Word) (h : execJsr addr s = .next t) :
    ∃ m c b g pc, t = { s with sp := s.sp - 2, mem := m, clock := c, bus := b, gaps := g, pc := pc } ∧
      g <:+ s.gaps ∧ (s.mem.wf = true → m.wf = true) := by
  rw [execJsr_eq] at h
  obtain ⟨m0, c0, b0, g0, h0, hg0, -, hw0⟩ := discard_elapsed (stackAddr s.sp) s
  obtain ⟨m1, b1, g1, h1, hg1, hw1⟩ :=
    pushAll_state [hiByte (s.pc + 2), loByte (s.pc + 2)] (discard (stackAddr s.sp) s)
  obtain ⟨m2, c2, b2, g2, h2, hg2, -, hw2⟩ := busRead_elapsed .operand (s.pc + 2)
    (pushAll [hiByte (s.pc + 2), loByte (s.pc + 2)] (discard (stackAddr s.sp) s))
  have h := finish_next _ _ h
  generalize word _ _ = pc at h
  rw [h2] at h
  rw [h1] at h hg2 hw2
  rw [h0] at h hg1 hw1
  exact ⟨m2, c2, b2, g2, pc, h, (hg2.trans hg1).trans hg0, fun hw => hw2 (hw1 (hw0 hw))⟩

/-- The cycles of RTS: two discarded reads, two pulls, one discarded read (R184, R293). -/
theorem execRts_eq :
    ∃ u v, execRts s = finish { v with pc := (pullWord u).1 + 1 } ∧ Elapsed s u ∧ Elapsed { s with sp := s.sp + 2 } v := by
  have hu := (discard_elapsed (s.pc + 1) s).trans (discard_elapsed (stackAddr s.sp) _)
  exact ⟨_, _, rfl, hu,
    hu.pullWord.trans (discard_elapsed (pullWord (discard (stackAddr s.sp) (discard (s.pc + 1) s))).1 _)⟩

theorem execRts_reaches (h : execRts s = .next t) :
    ∃ u pc, Elapsed { s with sp := s.sp + 2 } u ∧ t = { u with pc := pc } := by
  obtain ⟨u, v, he, -, hv⟩ := execRts_eq s
  rw [he] at h
  exact ⟨v, _, hv, finish_next _ _ h⟩

theorem execRti_reaches (h : execRti s = .next t) :
    ∃ u p pc, Elapsed { s with sp := s.sp + 3 } u ∧ t = { u with p := p, pc := pc } := by
  have h := finish_next _ _ h
  obtain ⟨p, pc, v, he, hv, -⟩ := returnFromInterrupt_state
    ((discard_elapsed (s.pc + 1) s).trans (discard_elapsed (stackAddr s.sp) (discard (s.pc + 1) s)))
  rw [he] at h
  exact ⟨v, p, pc, hv, h⟩

theorem execBrk_reaches (h : execBrk s = .next t) :
    ∃ pc pending e pins m c b g, t =
        { s with sp := s.sp - 3, p := { s.p with i := true }, heldI := none, mem := m, nmiPending := pending, edges := e,
                 pins := pins, clock := c, bus := b, gaps := g, pc := pc } ∧
      g <:+ s.gaps ∧ e.res = s.edges.res ∧ e.so = s.edges.so ∧ (s.mem.wf = true → m.wf = true) ∧
      (s.cfg.member.hasNmi = false → pending = s.nmiPending) := by
  have h := finish_next _ _ h
  obtain ⟨m0, c0, b0, g0, h0, hg0, -, hw0⟩ := discard_elapsed (s.pc + 1) s
  obtain ⟨pc, pending, e, pins, m, c, b, g, he, hg, hr, hso, hw, hp⟩ :=
    takeException_state (s.pc + 2) true irqVector (discard (s.pc + 1) s)
  rw [he] at h
  rw [h0] at h hg hr hso hw hp
  exact ⟨pc, pending, e, pins, m, c, b, g, h, hg.trans hg0, hr, hso, fun hwf => hw (hw0 hwf), hp⟩

end

end Sys2Proof.Machine
end

