-- ==== Sys2Proof/Laws/PerInstr.lean ====
section
/-!
SUPPORT. For each instruction: its opcode byte leads the decoder to the form that builds it from its operand bytes
(R71, R87, R88).
-/

namespace Sys2Proof.Laws

/-- The opcode byte of `i` has a form with as many operand bytes as `i` has, and that form builds `i` from them. -/
def OpcodeForm.Statement (i : Instr) : Prop :=
  match i.operand.bytes with
  | [] => formOf i.opcode = some (.bare i)
  | [b1] => ∃ f, formOf i.opcode = some (.byte f) ∧ f b1 = i
  | [b1, b2] => ∃ f, formOf i.opcode = some (.addr f) ∧ f (word b2 b1) = i
  | _ => False

theorem OpcodeForm.brk : OpcodeForm.Statement .brk :=
  show formOf 0x00 = some (.bare .brk) from rfl

theorem OpcodeForm.oraInx (b : Byte) : OpcodeForm.Statement (.oraInx b) :=
  show ∃ f, formOf 0x01 = some (.byte f) ∧ f b = .oraInx b from ⟨_, rfl, rfl⟩

theorem OpcodeForm.oraZp (b : Byte) : OpcodeForm.Statement (.oraZp b) :=
  show ∃ f, formOf 0x05 = some (.byte f) ∧ f b = .oraZp b from ⟨_, rfl, rfl⟩

theorem OpcodeForm.aslZp (b : Byte) : OpcodeForm.Statement (.aslZp b) :=
  show ∃ f, formOf 0x06 = some (.byte f) ∧ f b = .aslZp b from ⟨_, rfl, rfl⟩

theorem OpcodeForm.php : OpcodeForm.Statement .php :=
  show formOf 0x08 = some (.bare .php) from rfl

theorem OpcodeForm.oraImm (b : Byte) : OpcodeForm.Statement (.oraImm b) :=
  show ∃ f, formOf 0x09 = some (.byte f) ∧ f b = .oraImm b from ⟨_, rfl, rfl⟩

theorem OpcodeForm.aslAcc : OpcodeForm.Statement .aslAcc :=
  show formOf 0x0A = some (.bare .aslAcc) from rfl

theorem OpcodeForm.oraAbs (w : Word) : OpcodeForm.Statement (.oraAbs w) :=
  show ∃ f, formOf 0x0D = some (.addr f) ∧ f (word (hiByte w) (loByte w)) = .oraAbs w from
    ⟨_, rfl, by rw [word_hiByte_loByte]⟩

theorem OpcodeForm.aslAbs (w : Word) : OpcodeForm.Statement (.aslAbs w) :=
  show ∃ f, formOf 0x0E = some (.addr f) ∧ f (word (hiByte w) (loByte w)) = .aslAbs w from
    ⟨_, rfl, by rw [word_hiByte_loByte]⟩

theorem OpcodeForm.bpl (b : Byte) : OpcodeForm.Statement (.bpl b) :=
  show ∃ f, formOf 0x10 = some (.byte f) ∧ f b = .bpl b from ⟨_, rfl, rfl⟩

theorem OpcodeForm.oraIny (b : Byte) : OpcodeForm.Statement (.oraIny b) :=
  show ∃ f, formOf 0x11 = some (.byte f) ∧ f b = .oraIny b from ⟨_, rfl, rfl⟩

theorem OpcodeForm.oraZpx (b : Byte) : OpcodeForm.Statement (.oraZpx b) :=
  show ∃ f, formOf 0x15 = some (.byte f) ∧ f b = .oraZpx b from ⟨_, rfl, rfl⟩

theorem OpcodeForm.aslZpx (b : Byte) : OpcodeForm.Statement (.aslZpx b) :=
  show ∃ f, formOf 0x16 = some (.byte f) ∧ f b = .aslZpx b from ⟨_, rfl, rfl⟩

theorem OpcodeForm.clc : OpcodeForm.Statement .clc :=
  show formOf 0x18 = some (.bare .clc) from rfl

theorem OpcodeForm.oraAby (w : Word) : OpcodeForm.Statement (.oraAby w) :=
  show ∃ f, formOf 0x19 = some (.addr f) ∧ f (word (hiByte w) (loByte w)) = .oraAby w from
    ⟨_, rfl, by rw [word_hiByte_loByte]⟩

theorem OpcodeForm.oraAbx (w : Word) : OpcodeForm.Statement (.oraAbx w) :=
  show ∃ f, formOf 0x1D = some (.addr f) ∧ f (word (hiByte w) (loByte w)) = .oraAbx w from
    ⟨_, rfl, by rw [word_hiByte_loByte]⟩

theorem OpcodeForm.aslAbx (w : Word) : OpcodeForm.Statement (.aslAbx w) :=
  show ∃ f, formOf 0x1E = some (.addr f) ∧ f (word (hiByte w) (loByte w)) = .aslAbx w from
    ⟨_, rfl, by rw [word_hiByte_loByte]⟩

theorem OpcodeForm.jsr (w : Word) : OpcodeForm.Statement (.jsr w) :=
  show ∃ f, formOf 0x20 = some (.addr f) ∧ f (word (hiByte w) (loByte w)) = .jsr w from
    ⟨_, rfl, by rw [word_hiByte_loByte]⟩

theorem OpcodeForm.andInx (b : Byte) : OpcodeForm.Statement (.andInx b) :=
  show ∃ f, formOf 0x21 = some (.byte f) ∧ f b = .andInx b from ⟨_, rfl, rfl⟩

theorem OpcodeForm.bitZp (b : Byte) : OpcodeForm.Statement (.bitZp b) :=
  show ∃ f, formOf 0x24 = some (.byte f) ∧ f b = .bitZp b from ⟨_, rfl, rfl⟩

theorem OpcodeForm.andZp (b : Byte) : OpcodeForm.Statement (.andZp b) :=
  show ∃ f, formOf 0x25 = some (.byte f) ∧ f b = .andZp b from ⟨_, rfl, rfl⟩

theorem OpcodeForm.rolZp (b : Byte) : OpcodeForm.Statement (.rolZp b) :=
  show ∃ f, formOf 0x26 = some (.byte f) ∧ f b = .rolZp b from ⟨_, rfl, rfl⟩

theorem OpcodeForm.plp : OpcodeForm.Statement .plp :=
  show formOf 0x28 = some (.bare .plp) from rfl

theorem OpcodeForm.andImm (b : Byte) : OpcodeForm.Statement (.andImm b) :=
  show ∃ f, formOf 0x29 = some (.byte f) ∧ f b = .andImm b from ⟨_, rfl, rfl⟩

theorem OpcodeForm.rolAcc : OpcodeForm.Statement .rolAcc :=
  show formOf 0x2A = some (.bare .rolAcc) from rfl

theorem OpcodeForm.bitAbs (w : Word) : OpcodeForm.Statement (.bitAbs w) :=
  show ∃ f, formOf 0x2C = some (.addr f) ∧ f (word (hiByte w) (loByte w)) = .bitAbs w from
    ⟨_, rfl, by rw [word_hiByte_loByte]⟩

theorem OpcodeForm.andAbs (w : Word) : OpcodeForm.Statement (.andAbs w) :=
  show ∃ f, formOf 0x2D = some (.addr f) ∧ f (word (hiByte w) (loByte w)) = .andAbs w from
    ⟨_, rfl, by rw [word_hiByte_loByte]⟩

theorem OpcodeForm.rolAbs (w : Word) : OpcodeForm.Statement (.rolAbs w) :=
  show ∃ f, formOf 0x2E = some (.addr f) ∧ f (word (hiByte w) (loByte w)) = .rolAbs w from
    ⟨_, rfl, by rw [word_hiByte_loByte]⟩

theorem OpcodeForm.bmi (b : Byte) : OpcodeForm.Statement (.bmi b) :=
  show ∃ f, formOf 0x30 = some (.byte f) ∧ f b = .bmi b from ⟨_, rfl, rfl⟩

theorem OpcodeForm.andIny (b : Byte) : OpcodeForm.Statement (.andIny b) :=
  show ∃ f, formOf 0x31 = some (.byte f) ∧ f b = .andIny b from ⟨_, rfl, rfl⟩

theorem OpcodeForm.andZpx (b : Byte) : OpcodeForm.Statement (.andZpx b) :=
  show ∃ f, formOf 0x35 = some (.byte f) ∧ f b = .andZpx b from ⟨_, rfl, rfl⟩

theorem OpcodeForm.rolZpx (b : Byte) : OpcodeForm.Statement (.rolZpx b) :=
  show ∃ f, formOf 0x36 = some (.byte f) ∧ f b = .rolZpx b from ⟨_, rfl, rfl⟩

theorem OpcodeForm.sec : OpcodeForm.Statement .sec :=
  show formOf 0x38 = some (.bare .sec) from rfl

theorem OpcodeForm.andAby (w : Word) : OpcodeForm.Statement (.andAby w) :=
  show ∃ f, formOf 0x39 = some (.addr f) ∧ f (word (hiByte w) (loByte w)) = .andAby w from
    ⟨_, rfl, by rw [word_hiByte_loByte]⟩

theorem OpcodeForm.andAbx (w : Word) : OpcodeForm.Statement (.andAbx w) :=
  show ∃ f, formOf 0x3D = some (.addr f) ∧ f (word (hiByte w) (loByte w)) = .andAbx w from
    ⟨_, rfl, by rw [word_hiByte_loByte]⟩

theorem OpcodeForm.rolAbx (w : Word) : OpcodeForm.Statement (.rolAbx w) :=
  show ∃ f, formOf 0x3E = some (.addr f) ∧ f (word (hiByte w) (loByte w)) = .rolAbx w from
    ⟨_, rfl, by rw [word_hiByte_loByte]⟩

theorem OpcodeForm.rti : OpcodeForm.Statement .rti :=
  show formOf 0x40 = some (.bare .rti) from rfl

theorem OpcodeForm.eorInx (b : Byte) : OpcodeForm.Statement (.eorInx b) :=
  show ∃ f, formOf 0x41 = some (.byte f) ∧ f b = .eorInx b from ⟨_, rfl, rfl⟩

theorem OpcodeForm.eorZp (b : Byte) : OpcodeForm.Statement (.eorZp b) :=
  show ∃ f, formOf 0x45 = some (.byte f) ∧ f b = .eorZp b from ⟨_, rfl, rfl⟩

theorem OpcodeForm.lsrZp (b : Byte) : OpcodeForm.Statement (.lsrZp b) :=
  show ∃ f, formOf 0x46 = some (.byte f) ∧ f b = .lsrZp b from ⟨_, rfl, rfl⟩

theorem OpcodeForm.pha : OpcodeForm.Statement .pha :=
  show formOf 0x48 = some (.bare .pha) from rfl

theorem OpcodeForm.eorImm (b : Byte) : OpcodeForm.Statement (.eorImm b) :=
  show ∃ f, formOf 0x49 = some (.byte f) ∧ f b = .eorImm b from ⟨_, rfl, rfl⟩

theorem OpcodeForm.lsrAcc : OpcodeForm.Statement .lsrAcc :=
  show formOf 0x4A = some (.bare .lsrAcc) from rfl

theorem OpcodeForm.jmpAbs (w : Word) : OpcodeForm.Statement (.jmpAbs w) :=
  show ∃ f, formOf 0x4C = some (.addr f) ∧ f (word (hiByte w) (loByte w)) = .jmpAbs w from
    ⟨_, rfl, by rw [word_hiByte_loByte]⟩

theorem OpcodeForm.eorAbs (w : Word) : OpcodeForm.Statement (.eorAbs w) :=
  show ∃ f, formOf 0x4D = some (.addr f) ∧ f (word (hiByte w) (loByte w)) = .eorAbs w from
    ⟨_, rfl, by rw [word_hiByte_loByte]⟩

theorem OpcodeForm.lsrAbs (w : Word) : OpcodeForm.Statement (.lsrAbs w) :=
  show ∃ f, formOf 0x4E = some (.addr f) ∧ f (word (hiByte w) (loByte w)) = .lsrAbs w from
    ⟨_, rfl, by rw [word_hiByte_loByte]⟩

theorem OpcodeForm.bvc (b : Byte) : OpcodeForm.Statement (.bvc b) :=
  show ∃ f, formOf 0x50 = some (.byte f) ∧ f b = .bvc b from ⟨_, rfl, rfl⟩

theorem OpcodeForm.eorIny (b : Byte) : OpcodeForm.Statement (.eorIny b) :=
  show ∃ f, formOf 0x51 = some (.byte f) ∧ f b = .eorIny b from ⟨_, rfl, rfl⟩

theorem OpcodeForm.eorZpx (b : Byte) : OpcodeForm.Statement (.eorZpx b) :=
  show ∃ f, formOf 0x55 = some (.byte f) ∧ f b = .eorZpx b from ⟨_, rfl, rfl⟩

theorem OpcodeForm.lsrZpx (b : Byte) : OpcodeForm.Statement (.lsrZpx b) :=
  show ∃ f, formOf 0x56 = some (.byte f) ∧ f b = .lsrZpx b from ⟨_, rfl, rfl⟩

theorem OpcodeForm.cli : OpcodeForm.Statement .cli :=
  show formOf 0x58 = some (.bare .cli) from rfl

theorem OpcodeForm.eorAby (w : Word) : OpcodeForm.Statement (.eorAby w) :=
  show ∃ f, formOf 0x59 = some (.addr f) ∧ f (word (hiByte w) (loByte w)) = .eorAby w from
    ⟨_, rfl, by rw [word_hiByte_loByte]⟩

theorem OpcodeForm.eorAbx (w : Word) : OpcodeForm.Statement (.eorAbx w) :=
  show ∃ f, formOf 0x5D = some (.addr f) ∧ f (word (hiByte w) (loByte w)) = .eorAbx w from
    ⟨_, rfl, by rw [word_hiByte_loByte]⟩

theorem OpcodeForm.lsrAbx (w : Word) : OpcodeForm.Statement (.lsrAbx w) :=
  show ∃ f, formOf 0x5E = some (.addr f) ∧ f (word (hiByte w) (loByte w)) = .lsrAbx w from
    ⟨_, rfl, by rw [word_hiByte_loByte]⟩

theorem OpcodeForm.rts : OpcodeForm.Statement .rts :=
  show formOf 0x60 = some (.bare .rts) from rfl

theorem OpcodeForm.adcInx (b : Byte) : OpcodeForm.Statement (.adcInx b) :=
  show ∃ f, formOf 0x61 = some (.byte f) ∧ f b = .adcInx b from ⟨_, rfl, rfl⟩

theorem OpcodeForm.adcZp (b : Byte) : OpcodeForm.Statement (.adcZp b) :=
  show ∃ f, formOf 0x65 = some (.byte f) ∧ f b = .adcZp b from ⟨_, rfl, rfl⟩

theorem OpcodeForm.rorZp (b : Byte) : OpcodeForm.Statement (.rorZp b) :=
  show ∃ f, formOf 0x66 = some (.byte f) ∧ f b = .rorZp b from ⟨_, rfl, rfl⟩

theorem OpcodeForm.pla : OpcodeForm.Statement .pla :=
  show formOf 0x68 = some (.bare .pla) from rfl

theorem OpcodeForm.adcImm (b : Byte) : OpcodeForm.Statement (.adcImm b) :=
  show ∃ f, formOf 0x69 = some (.byte f) ∧ f b = .adcImm b from ⟨_, rfl, rfl⟩

theorem OpcodeForm.rorAcc : OpcodeForm.Statement .rorAcc :=
  show formOf 0x6A = some (.bare .rorAcc) from rfl

theorem OpcodeForm.jmpInd (w : Word) : OpcodeForm.Statement (.jmpInd w) :=
  show ∃ f, formOf 0x6C = some (.addr f) ∧ f (word (hiByte w) (loByte w)) = .jmpInd w from
    ⟨_, rfl, by rw [word_hiByte_loByte]⟩

theorem OpcodeForm.adcAbs (w : Word) : OpcodeForm.Statement (.adcAbs w) :=
  show ∃ f, formOf 0x6D = some (.addr f) ∧ f (word (hiByte w) (loByte w)) = .adcAbs w from
    ⟨_, rfl, by rw [word_hiByte_loByte]⟩

theorem OpcodeForm.rorAbs (w : Word) : OpcodeForm.Statement (.rorAbs w) :=
  show ∃ f, formOf 0x6E = some (.addr f) ∧ f (word (hiByte w) (loByte w)) = .rorAbs w from
    ⟨_, rfl, by rw [word_hiByte_loByte]⟩

theorem OpcodeForm.bvs (b : Byte) : OpcodeForm.Statement (.bvs b) :=
  show ∃ f, formOf 0x70 = some (.byte f) ∧ f b = .bvs b from ⟨_, rfl, rfl⟩

theorem OpcodeForm.adcIny (b : Byte) : OpcodeForm.Statement (.adcIny b) :=
  show ∃ f, formOf 0x71 = some (.byte f) ∧ f b = .adcIny b from ⟨_, rfl, rfl⟩

theorem OpcodeForm.adcZpx (b : Byte) : OpcodeForm.Statement (.adcZpx b) :=
  show ∃ f, formOf 0x75 = some (.byte f) ∧ f b = .adcZpx b from ⟨_, rfl, rfl⟩

theorem OpcodeForm.rorZpx (b : Byte) : OpcodeForm.Statement (.rorZpx b) :=
  show ∃ f, formOf 0x76 = some (.byte f) ∧ f b = .rorZpx b from ⟨_, rfl, rfl⟩

theorem OpcodeForm.sei : OpcodeForm.Statement .sei :=
  show formOf 0x78 = some (.bare .sei) from rfl

theorem OpcodeForm.adcAby (w : Word) : OpcodeForm.Statement (.adcAby w) :=
  show ∃ f, formOf 0x79 = some (.addr f) ∧ f (word (hiByte w) (loByte w)) = .adcAby w from
    ⟨_, rfl, by rw [word_hiByte_loByte]⟩

theorem OpcodeForm.adcAbx (w : Word) : OpcodeForm.Statement (.adcAbx w) :=
  show ∃ f, formOf 0x7D = some (.addr f) ∧ f (word (hiByte w) (loByte w)) = .adcAbx w from
    ⟨_, rfl, by rw [word_hiByte_loByte]⟩

theorem OpcodeForm.rorAbx (w : Word) : OpcodeForm.Statement (.rorAbx w) :=
  show ∃ f, formOf 0x7E = some (.addr f) ∧ f (word (hiByte w) (loByte w)) = .rorAbx w from
    ⟨_, rfl, by rw [word_hiByte_loByte]⟩

theorem OpcodeForm.staInx (b : Byte) : OpcodeForm.Statement (.staInx b) :=
  show ∃ f, formOf 0x81 = some (.byte f) ∧ f b = .staInx b from ⟨_, rfl, rfl⟩

theorem OpcodeForm.styZp (b : Byte) : OpcodeForm.Statement (.styZp b) :=
  show ∃ f, formOf 0x84 = some (.byte f) ∧ f b = .styZp b from ⟨_, rfl, rfl⟩

theorem OpcodeForm.staZp (b : Byte) : OpcodeForm.Statement (.staZp b) :=
  show ∃ f, formOf 0x85 = some (.byte f) ∧ f b = .staZp b from ⟨_, rfl, rfl⟩

theorem OpcodeForm.stxZp (b : Byte) : OpcodeForm.Statement (.stxZp b) :=
  show ∃ f, formOf 0x86 = some (.byte f) ∧ f b = .stxZp b from ⟨_, rfl, rfl⟩

theorem OpcodeForm.dey : OpcodeForm.Statement .dey :=
  show formOf 0x88 = some (.bare .dey) from rfl

theorem OpcodeForm.txa : OpcodeForm.Statement .txa :=
  show formOf 0x8A = some (.bare .txa) from rfl

theorem OpcodeForm.styAbs (w : Word) : OpcodeForm.Statement (.styAbs w) :=
  show ∃ f, formOf 0x8C = some (.addr f) ∧ f (word (hiByte w) (loByte w)) = .styAbs w from
    ⟨_, rfl, by rw [word_hiByte_loByte]⟩

theorem OpcodeForm.staAbs (w : Word) : OpcodeForm.Statement (.staAbs w) :=
  show ∃ f, formOf 0x8D = some (.addr f) ∧ f (word (hiByte w) (loByte w)) = .staAbs w from
    ⟨_, rfl, by rw [word_hiByte_loByte]⟩

theorem OpcodeForm.stxAbs (w : Word) : OpcodeForm.Statement (.stxAbs w) :=
  show ∃ f, formOf 0x8E = some (.addr f) ∧ f (word (hiByte w) (loByte w)) = .stxAbs w from
    ⟨_, rfl, by rw [word_hiByte_loByte]⟩

theorem OpcodeForm.bcc (b : Byte) : OpcodeForm.Statement (.bcc b) :=
  show ∃ f, formOf 0x90 = some (.byte f) ∧ f b = .bcc b from ⟨_, rfl, rfl⟩

theorem OpcodeForm.staIny (b : Byte) : OpcodeForm.Statement (.staIny b) :=
  show ∃ f, formOf 0x91 = some (.byte f) ∧ f b = .staIny b from ⟨_, rfl, rfl⟩

theorem OpcodeForm.styZpx (b : Byte) : OpcodeForm.Statement (.styZpx b) :=
  show ∃ f, formOf 0x94 = some (.byte f) ∧ f b = .styZpx b from ⟨_, rfl, rfl⟩

theorem OpcodeForm.staZpx (b : Byte) : OpcodeForm.Statement (.staZpx b) :=
  show ∃ f, formOf 0x95 = some (.byte f) ∧ f b = .staZpx b from ⟨_, rfl, rfl⟩

theorem OpcodeForm.stxZpy (b : Byte) : OpcodeForm.Statement (.stxZpy b) :=
  show ∃ f, formOf 0x96 = some (.byte f) ∧ f b = .stxZpy b from ⟨_, rfl, rfl⟩

theorem OpcodeForm.tya : OpcodeForm.Statement .tya :=
  show formOf 0x98 = some (.bare .tya) from rfl

theorem OpcodeForm.staAby (w : Word) : OpcodeForm.Statement (.staAby w) :=
  show ∃ f, formOf 0x99 = some (.addr f) ∧ f (word (hiByte w) (loByte w)) = .staAby w from
    ⟨_, rfl, by rw [word_hiByte_loByte]⟩

theorem OpcodeForm.txs : OpcodeForm.Statement .txs :=
  show formOf 0x9A = some (.bare .txs) from rfl

theorem OpcodeForm.staAbx (w : Word) : OpcodeForm.Statement (.staAbx w) :=
  show ∃ f, formOf 0x9D = some (.addr f) ∧ f (word (hiByte w) (loByte w)) = .staAbx w from
    ⟨_, rfl, by rw [word_hiByte_loByte]⟩

theorem OpcodeForm.ldyImm (b : Byte) : OpcodeForm.Statement (.ldyImm b) :=
  show ∃ f, formOf 0xA0 = some (.byte f) ∧ f b = .ldyImm b from ⟨_, rfl, rfl⟩

theorem OpcodeForm.ldaInx (b : Byte) : OpcodeForm.Statement (.ldaInx b) :=
  show ∃ f, formOf 0xA1 = some (.byte f) ∧ f b = .ldaInx b from ⟨_, rfl, rfl⟩

theorem OpcodeForm.ldxImm (b : Byte) : OpcodeForm.Statement (.ldxImm b) :=
  show ∃ f, formOf 0xA2 = some (.byte f) ∧ f b = .ldxImm b from ⟨_, rfl, rfl⟩

theorem OpcodeForm.ldyZp (b : Byte) : OpcodeForm.Statement (.ldyZp b) :=
  show ∃ f, formOf 0xA4 = some (.byte f) ∧ f b = .ldyZp b from ⟨_, rfl, rfl⟩

theorem OpcodeForm.ldaZp (b : Byte) : OpcodeForm.Statement (.ldaZp b) :=
  show ∃ f, formOf 0xA5 = some (.byte f) ∧ f b = .ldaZp b from ⟨_, rfl, rfl⟩

theorem OpcodeForm.ldxZp (b : Byte) : OpcodeForm.Statement (.ldxZp b) :=
  show ∃ f, formOf 0xA6 = some (.byte f) ∧ f b = .ldxZp b from ⟨_, rfl, rfl⟩

theorem OpcodeForm.tay : OpcodeForm.Statement .tay :=
  show formOf 0xA8 = some (.bare .tay) from rfl

theorem OpcodeForm.ldaImm (b : Byte) : OpcodeForm.Statement (.ldaImm b) :=
  show ∃ f, formOf 0xA9 = some (.byte f) ∧ f b = .ldaImm b from ⟨_, rfl, rfl⟩

theorem OpcodeForm.tax : OpcodeForm.Statement .tax :=
  show formOf 0xAA = some (.bare .tax) from rfl

theorem OpcodeForm.ldyAbs (w : Word) : OpcodeForm.Statement (.ldyAbs w) :=
  show ∃ f, formOf 0xAC = some (.addr f) ∧ f (word (hiByte w) (loByte w)) = .ldyAbs w from
    ⟨_, rfl, by rw [word_hiByte_loByte]⟩

theorem OpcodeForm.ldaAbs (w : Word) : OpcodeForm.Statement (.ldaAbs w) :=
  show ∃ f, formOf 0xAD = some (.addr f) ∧ f (word (hiByte w) (loByte w)) = .ldaAbs w from
    ⟨_, rfl, by rw [word_hiByte_loByte]⟩

theorem OpcodeForm.ldxAbs (w : Word) : OpcodeForm.Statement (.ldxAbs w) :=
  show ∃ f, formOf 0xAE = some (.addr f) ∧ f (word (hiByte w) (loByte w)) = .ldxAbs w from
    ⟨_, rfl, by rw [word_hiByte_loByte]⟩

theorem OpcodeForm.bcs (b : Byte) : OpcodeForm.Statement (.bcs b) :=
  show ∃ f, formOf 0xB0 = some (.byte f) ∧ f b = .bcs b from ⟨_, rfl, rfl⟩

theorem OpcodeForm.ldaIny (b : Byte) : OpcodeForm.Statement (.ldaIny b) :=
  show ∃ f, formOf 0xB1 = some (.byte f) ∧ f b = .ldaIny b from ⟨_, rfl, rfl⟩

theorem OpcodeForm.ldyZpx (b : Byte) : OpcodeForm.Statement (.ldyZpx b) :=
  show ∃ f, formOf 0xB4 = some (.byte f) ∧ f b = .ldyZpx b from ⟨_, rfl, rfl⟩

theorem OpcodeForm.ldaZpx (b : Byte) : OpcodeForm.Statement (.ldaZpx b) :=
  show ∃ f, formOf 0xB5 = some (.byte f) ∧ f b = .ldaZpx b from ⟨_, rfl, rfl⟩

theorem OpcodeForm.ldxZpy (b : Byte) : OpcodeForm.Statement (.ldxZpy b) :=
  show ∃ f, formOf 0xB6 = some (.byte f) ∧ f b = .ldxZpy b from ⟨_, rfl, rfl⟩

theorem OpcodeForm.clv : OpcodeForm.Statement .clv :=
  show formOf 0xB8 = some (.bare .clv) from rfl

theorem OpcodeForm.ldaAby (w : Word) : OpcodeForm.Statement (.ldaAby w) :=
  show ∃ f, formOf 0xB9 = some (.addr f) ∧ f (word (hiByte w) (loByte w)) = .ldaAby w from
    ⟨_, rfl, by rw [word_hiByte_loByte]⟩

theorem OpcodeForm.tsx : OpcodeForm.Statement .tsx :=
  show formOf 0xBA = some (.bare .tsx) from rfl

theorem OpcodeForm.ldyAbx (w : Word) : OpcodeForm.Statement (.ldyAbx w) :=
  show ∃ f, formOf 0xBC = some (.addr f) ∧ f (word (hiByte w) (loByte w)) = .ldyAbx w from
    ⟨_, rfl, by rw [word_hiByte_loByte]⟩

theorem OpcodeForm.ldaAbx (w : Word) : OpcodeForm.Statement (.ldaAbx w) :=
  show ∃ f, formOf 0xBD = some (.addr f) ∧ f (word (hiByte w) (loByte w)) = .ldaAbx w from
    ⟨_, rfl, by rw [word_hiByte_loByte]⟩

theorem OpcodeForm.ldxAby (w : Word) : OpcodeForm.Statement (.ldxAby w) :=
  show ∃ f, formOf 0xBE = some (.addr f) ∧ f (word (hiByte w) (loByte w)) = .ldxAby w from
    ⟨_, rfl, by rw [word_hiByte_loByte]⟩

theorem OpcodeForm.cpyImm (b : Byte) : OpcodeForm.Statement (.cpyImm b) :=
  show ∃ f, formOf 0xC0 = some (.byte f) ∧ f b = .cpyImm b from ⟨_, rfl, rfl⟩

theorem OpcodeForm.cmpInx (b : Byte) : OpcodeForm.Statement (.cmpInx b) :=
  show ∃ f, formOf 0xC1 = some (.byte f) ∧ f b = .cmpInx b from ⟨_, rfl, rfl⟩

theorem OpcodeForm.cpyZp (b : Byte) : OpcodeForm.Statement (.cpyZp b) :=
  show ∃ f, formOf 0xC4 = some (.byte f) ∧ f b = .cpyZp b from ⟨_, rfl, rfl⟩

theorem OpcodeForm.cmpZp (b : Byte) : OpcodeForm.Statement (.cmpZp b) :=
  show ∃ f, formOf 0xC5 = some (.byte f) ∧ f b = .cmpZp b from ⟨_, rfl, rfl⟩

theorem OpcodeForm.decZp (b : Byte) : OpcodeForm.Statement (.decZp b) :=
  show ∃ f, formOf 0xC6 = some (.byte f) ∧ f b = .decZp b from ⟨_, rfl, rfl⟩

theorem OpcodeForm.iny : OpcodeForm.Statement .iny :=
  show formOf 0xC8 = some (.bare .iny) from rfl

theorem OpcodeForm.cmpImm (b : Byte) : OpcodeForm.Statement (.cmpImm b) :=
  show ∃ f, formOf 0xC9 = some (.byte f) ∧ f b = .cmpImm b from ⟨_, rfl, rfl⟩

theorem OpcodeForm.dex : OpcodeForm.Statement .dex :=
  show formOf 0xCA = some (.bare .dex) from rfl

theorem OpcodeForm.cpyAbs (w : Word) : OpcodeForm.Statement (.cpyAbs w) :=
  show ∃ f, formOf 0xCC = some (.addr f) ∧ f (word (hiByte w) (loByte w)) = .cpyAbs w from
    ⟨_, rfl, by rw [word_hiByte_loByte]⟩

theorem OpcodeForm.cmpAbs (w : Word) : OpcodeForm.Statement (.cmpAbs w) :=
  show ∃ f, formOf 0xCD = some (.addr f) ∧ f (word (hiByte w) (loByte w)) = .cmpAbs w from
    ⟨_, rfl, by rw [word_hiByte_loByte]⟩

theorem OpcodeForm.decAbs (w : Word) : OpcodeForm.Statement (.decAbs w) :=
  show ∃ f, formOf 0xCE = some (.addr f) ∧ f (word (hiByte w) (loByte w)) = .decAbs w from
    ⟨_, rfl, by rw [word_hiByte_loByte]⟩

theorem OpcodeForm.bne (b : Byte) : OpcodeForm.Statement (.bne b) :=
  show ∃ f, formOf 0xD0 = some (.byte f) ∧ f b = .bne b from ⟨_, rfl, rfl⟩

theorem OpcodeForm.cmpIny (b : Byte) : OpcodeForm.Statement (.cmpIny b) :=
  show ∃ f, formOf 0xD1 = some (.byte f) ∧ f b = .cmpIny b from ⟨_, rfl, rfl⟩

theorem OpcodeForm.cmpZpx (b : Byte) : OpcodeForm.Statement (.cmpZpx b) :=
  show ∃ f, formOf 0xD5 = some (.byte f) ∧ f b = .cmpZpx b from ⟨_, rfl, rfl⟩

theorem OpcodeForm.decZpx (b : Byte) : OpcodeForm.Statement (.decZpx b) :=
  show ∃ f, formOf 0xD6 = some (.byte f) ∧ f b = .decZpx b from ⟨_, rfl, rfl⟩

theorem OpcodeForm.cld : OpcodeForm.Statement .cld :=
  show formOf 0xD8 = some (.bare .cld) from rfl

theorem OpcodeForm.cmpAby (w : Word) : OpcodeForm.Statement (.cmpAby w) :=
  show ∃ f, formOf 0xD9 = some (.addr f) ∧ f (word (hiByte w) (loByte w)) = .cmpAby w from
    ⟨_, rfl, by rw [word_hiByte_loByte]⟩

theorem OpcodeForm.cmpAbx (w : Word) : OpcodeForm.Statement (.cmpAbx w) :=
  show ∃ f, formOf 0xDD = some (.addr f) ∧ f (word (hiByte w) (loByte w)) = .cmpAbx w from
    ⟨_, rfl, by rw [word_hiByte_loByte]⟩

theorem OpcodeForm.decAbx (w : Word) : OpcodeForm.Statement (.decAbx w) :=
  show ∃ f, formOf 0xDE = some (.addr f) ∧ f (word (hiByte w) (loByte w)) = .decAbx w from
    ⟨_, rfl, by rw [word_hiByte_loByte]⟩

theorem OpcodeForm.cpxImm (b : Byte) : OpcodeForm.Statement (.cpxImm b) :=
  show ∃ f, formOf 0xE0 = some (.byte f) ∧ f b = .cpxImm b from ⟨_, rfl, rfl⟩

theorem OpcodeForm.sbcInx (b : Byte) : OpcodeForm.Statement (.sbcInx b) :=
  show ∃ f, formOf 0xE1 = some (.byte f) ∧ f b = .sbcInx b from ⟨_, rfl, rfl⟩

theorem OpcodeForm.cpxZp (b : Byte) : OpcodeForm.Statement (.cpxZp b) :=
  show ∃ f, formOf 0xE4 = some (.byte f) ∧ f b = .cpxZp b from ⟨_, rfl, rfl⟩

theorem OpcodeForm.sbcZp (b : Byte) : OpcodeForm.Statement (.sbcZp b) :=
  show ∃ f, formOf 0xE5 = some (.byte f) ∧ f b = .sbcZp b from ⟨_, rfl, rfl⟩

theorem OpcodeForm.incZp (b : Byte) : OpcodeForm.Statement (.incZp b) :=
  show ∃ f, formOf 0xE6 = some (.byte f) ∧ f b = .incZp b from ⟨_, rfl, rfl⟩

theorem OpcodeForm.inx : OpcodeForm.Statement .inx :=
  show formOf 0xE8 = some (.bare .inx) from rfl

theorem OpcodeForm.sbcImm (b : Byte) : OpcodeForm.Statement (.sbcImm b) :=
  show ∃ f, formOf 0xE9 = some (.byte f) ∧ f b = .sbcImm b from ⟨_, rfl, rfl⟩

theorem OpcodeForm.nop : OpcodeForm.Statement .nop :=
  show formOf 0xEA = some (.bare .nop) from rfl

theorem OpcodeForm.cpxAbs (w : Word) : OpcodeForm.Statement (.cpxAbs w) :=
  show ∃ f, formOf 0xEC = some (.addr f) ∧ f (word (hiByte w) (loByte w)) = .cpxAbs w from
    ⟨_, rfl, by rw [word_hiByte_loByte]⟩

theorem OpcodeForm.sbcAbs (w : Word) : OpcodeForm.Statement (.sbcAbs w) :=
  show ∃ f, formOf 0xED = some (.addr f) ∧ f (word (hiByte w) (loByte w)) = .sbcAbs w from
    ⟨_, rfl, by rw [word_hiByte_loByte]⟩

theorem OpcodeForm.incAbs (w : Word) : OpcodeForm.Statement (.incAbs w) :=
  show ∃ f, formOf 0xEE = some (.addr f) ∧ f (word (hiByte w) (loByte w)) = .incAbs w from
    ⟨_, rfl, by rw [word_hiByte_loByte]⟩

theorem OpcodeForm.beq (b : Byte) : OpcodeForm.Statement (.beq b) :=
  show ∃ f, formOf 0xF0 = some (.byte f) ∧ f b = .beq b from ⟨_, rfl, rfl⟩

theorem OpcodeForm.sbcIny (b : Byte) : OpcodeForm.Statement (.sbcIny b) :=
  show ∃ f, formOf 0xF1 = some (.byte f) ∧ f b = .sbcIny b from ⟨_, rfl, rfl⟩

theorem OpcodeForm.sbcZpx (b : Byte) : OpcodeForm.Statement (.sbcZpx b) :=
  show ∃ f, formOf 0xF5 = some (.byte f) ∧ f b = .sbcZpx b from ⟨_, rfl, rfl⟩

theorem OpcodeForm.incZpx (b : Byte) : OpcodeForm.Statement (.incZpx b) :=
  show ∃ f, formOf 0xF6 = some (.byte f) ∧ f b = .incZpx b from ⟨_, rfl, rfl⟩

theorem OpcodeForm.sed : OpcodeForm.Statement .sed :=
  show formOf 0xF8 = some (.bare .sed) from rfl

theorem OpcodeForm.sbcAby (w : Word) : OpcodeForm.Statement (.sbcAby w) :=
  show ∃ f, formOf 0xF9 = some (.addr f) ∧ f (word (hiByte w) (loByte w)) = .sbcAby w from
    ⟨_, rfl, by rw [word_hiByte_loByte]⟩

theorem OpcodeForm.sbcAbx (w : Word) : OpcodeForm.Statement (.sbcAbx w) :=
  show ∃ f, formOf 0xFD = some (.addr f) ∧ f (word (hiByte w) (loByte w)) = .sbcAbx w from
    ⟨_, rfl, by rw [word_hiByte_loByte]⟩

theorem OpcodeForm.incAbx (w : Word) : OpcodeForm.Statement (.incAbx w) :=
  show ∃ f, formOf 0xFE = some (.addr f) ∧ f (word (hiByte w) (loByte w)) = .incAbx w from
    ⟨_, rfl, by rw [word_hiByte_loByte]⟩

end Sys2Proof.Laws
end

