-- ==== Sys2Proof/Machine/Assembler.lean ====
section
/-!
DEFINITION. The assembler spelling of an instruction (spec/30_encoding.md R91, spec/92_eei_decisions.md D23). No meaning
depends on it.
-/

namespace Sys2Proof.Machine

/-- The three upper-case letters of a mnemonic (R88, R91). -/
def mnemonicText : Mnemonic → String
  | .adc => "ADC"
  | .and => "AND"
  | .asl => "ASL"
  | .bcc => "BCC"
  | .bcs => "BCS"
  | .beq => "BEQ"
  | .bit => "BIT"
  | .bmi => "BMI"
  | .bne => "BNE"
  | .bpl => "BPL"
  | .brk => "BRK"
  | .bvc => "BVC"
  | .bvs => "BVS"
  | .clc => "CLC"
  | .cld => "CLD"
  | .cli => "CLI"
  | .clv => "CLV"
  | .cmp => "CMP"
  | .cpx => "CPX"
  | .cpy => "CPY"
  | .dec => "DEC"
  | .dex => "DEX"
  | .dey => "DEY"
  | .eor => "EOR"
  | .inc => "INC"
  | .inx => "INX"
  | .iny => "INY"
  | .jmp => "JMP"
  | .jsr => "JSR"
  | .lda => "LDA"
  | .ldx => "LDX"
  | .ldy => "LDY"
  | .lsr => "LSR"
  | .nop => "NOP"
  | .ora => "ORA"
  | .pha => "PHA"
  | .php => "PHP"
  | .pla => "PLA"
  | .plp => "PLP"
  | .rol => "ROL"
  | .ror => "ROR"
  | .rti => "RTI"
  | .rts => "RTS"
  | .sbc => "SBC"
  | .sec => "SEC"
  | .sed => "SED"
  | .sei => "SEI"
  | .sta => "STA"
  | .stx => "STX"
  | .sty => "STY"
  | .tax => "TAX"
  | .tay => "TAY"
  | .tsx => "TSX"
  | .txa => "TXA"
  | .txs => "TXS"
  | .tya => "TYA"

/-- One hexadecimal digit. -/
def hexDigit (n : Nat) : String :=
  match n with
  | 0 => "0" | 1 => "1" | 2 => "2" | 3 => "3" | 4 => "4" | 5 => "5" | 6 => "6" | 7 => "7"
  | 8 => "8" | 9 => "9" | 10 => "A" | 11 => "B" | 12 => "C" | 13 => "D" | 14 => "E" | _ => "F"

/-- `$nn` (R91). -/
def hexByte (b : Byte) : String := "$" ++ hexDigit (b.toNat / 16) ++ hexDigit (b.toNat % 16)

/-- `$nnnn` (R91). -/
def hexWord (w : Word) : String :=
  "$" ++ hexDigit (w.toNat / 4096) ++ hexDigit (w.toNat / 256 % 16) ++ hexDigit (w.toNat / 16 % 16) ++
    hexDigit (w.toNat % 16)

/-- The spelling of a memory operand in each mode (R91). -/
def addrText : Addr → String
  | .zeroPage z => hexByte z
  | .zeroPageX z => hexByte z ++ ",X"
  | .zeroPageY z => hexByte z ++ ",Y"
  | .absolute w => hexWord w
  | .absoluteX w => hexWord w ++ ",X"
  | .absoluteY w => hexWord w ++ ",Y"
  | .indirectX z => "(" ++ hexByte z ++ ",X)"
  | .indirectY z => "(" ++ hexByte z ++ "),Y"

/-- The spelling of an operand; that of a branch is its target, which depends on the branch's own address (R91). -/
def operandText (pc : Word) : Operand → String
  | .implied => ""
  | .accumulator => " A"
  | .immediate v => " #" ++ hexByte v
  | .memory m => " " ++ addrText m
  | .relative off => " " ++ hexWord (branchTarget pc off)
  | .absoluteIndirect ptr => " (" ++ hexWord ptr ++ ")"

/-- The spelling of an instruction at an address (R91). -/
def assembly (pc : Word) (i : Instr) : String := mnemonicText i.mnemonic ++ operandText pc i.operand

end Sys2Proof.Machine
end

