-- ==== Sys2Proof/Tests/Slice0.lean ====
section
/-!
SUPPORT. Tests and witnesses. The well-formedness smoke tests; a word of every row of the opcode table, written out from
the spec's table, and what it decodes to; at most two one-step vectors of spec/95_test_vectors.md for an instruction;
the sequences around the instructions; and for each statement with premises a state that meets them together.
-/

namespace Sys2Proof.Machine

/-! ## Well-formedness -/

/-- A configuration of the 6502 with another map. -/
def mapped (map : List Region) : Config := { Config.default6502 with map := map }

theorem test_wellFormed_default : Config.default6502.wellFormed = true := by decide

theorem test_wellFormed_two_regions : (mapped [⟨0, 0x7FFF, .ram⟩, ⟨0x8000, 0xFFFF, .rom⟩]).wellFormed = true := by decide

theorem test_illFormed_region_upside_down : (mapped [⟨0x10, 0x0F, .ram⟩]).wellFormed = false := by decide

theorem test_illFormed_region_outside : ({ mapped [⟨0, 0x2000, .ram⟩] with member := .m6504 }).wellFormed = false := by decide

theorem test_illFormed_regions_overlap : (mapped [⟨0, 0x10, .ram⟩, ⟨0x10, 0x20, .rom⟩]).wellFormed = false := by decide

theorem test_illFormed_so_without_pin :
    ({ Config.default6502 with member := .m6504, map := [], soActive := true }).wellFormed = false := by decide

theorem test_wellFormed_instr : (Instr.jmpInd 0xFFFF).wellFormed = true := by decide

/-! ## The decoder rejects by name -/

theorem test_decode_empty : decode [] = .error .truncated := rfl

theorem test_decode_undefined : decode [0x02, 0x00] = .error (.undefinedOpcode 0x02) := rfl

theorem test_decode_truncated : decode [0x20, 0x34] = .error .truncated := rfl

/-! ## Every row of the opcode table

Bytes from spec/opcode_table.json and R72: the opcode, then $34, then $12. -/

theorem test_decode_row_0 :
    decode [0x00] = .ok (.brk, []) ∧
    decode [0x01, 0x34] = .ok (.oraInx 0x34, []) ∧
    decode [0x05, 0x34] = .ok (.oraZp 0x34, []) ∧
    decode [0x06, 0x34] = .ok (.aslZp 0x34, []) ∧
    decode [0x08] = .ok (.php, []) ∧
    decode [0x09, 0x34] = .ok (.oraImm 0x34, []) ∧
    decode [0x0A] = .ok (.aslAcc, []) ∧
    decode [0x0D, 0x34, 0x12] = .ok (.oraAbs 0x1234, []) ∧
    decode [0x0E, 0x34, 0x12] = .ok (.aslAbs 0x1234, []) :=
  ⟨rfl, rfl, rfl, rfl, rfl, rfl, rfl, rfl, rfl⟩

theorem test_decode_row_1 :
    decode [0x10, 0x34] = .ok (.bpl 0x34, []) ∧
    decode [0x11, 0x34] = .ok (.oraIny 0x34, []) ∧
    decode [0x15, 0x34] = .ok (.oraZpx 0x34, []) ∧
    decode [0x16, 0x34] = .ok (.aslZpx 0x34, []) ∧
    decode [0x18] = .ok (.clc, []) ∧
    decode [0x19, 0x34, 0x12] = .ok (.oraAby 0x1234, []) ∧
    decode [0x1D, 0x34, 0x12] = .ok (.oraAbx 0x1234, []) ∧
    decode [0x1E, 0x34, 0x12] = .ok (.aslAbx 0x1234, []) :=
  ⟨rfl, rfl, rfl, rfl, rfl, rfl, rfl, rfl⟩

theorem test_decode_row_2 :
    decode [0x20, 0x34, 0x12] = .ok (.jsr 0x1234, []) ∧
    decode [0x21, 0x34] = .ok (.andInx 0x34, []) ∧
    decode [0x24, 0x34] = .ok (.bitZp 0x34, []) ∧
    decode [0x25, 0x34] = .ok (.andZp 0x34, []) ∧
    decode [0x26, 0x34] = .ok (.rolZp 0x34, []) ∧
    decode [0x28] = .ok (.plp, []) ∧
    decode [0x29, 0x34] = .ok (.andImm 0x34, []) ∧
    decode [0x2A] = .ok (.rolAcc, []) ∧
    decode [0x2C, 0x34, 0x12] = .ok (.bitAbs 0x1234, []) ∧
    decode [0x2D, 0x34, 0x12] = .ok (.andAbs 0x1234, []) ∧
    decode [0x2E, 0x34, 0x12] = .ok (.rolAbs 0x1234, []) :=
  ⟨rfl, rfl, rfl, rfl, rfl, rfl, rfl, rfl, rfl, rfl, rfl⟩

theorem test_decode_row_3 :
    decode [0x30, 0x34] = .ok (.bmi 0x34, []) ∧
    decode [0x31, 0x34] = .ok (.andIny 0x34, []) ∧
    decode [0x35, 0x34] = .ok (.andZpx 0x34, []) ∧
    decode [0x36, 0x34] = .ok (.rolZpx 0x34, []) ∧
    decode [0x38] = .ok (.sec, []) ∧
    decode [0x39, 0x34, 0x12] = .ok (.andAby 0x1234, []) ∧
    decode [0x3D, 0x34, 0x12] = .ok (.andAbx 0x1234, []) ∧
    decode [0x3E, 0x34, 0x12] = .ok (.rolAbx 0x1234, []) :=
  ⟨rfl, rfl, rfl, rfl, rfl, rfl, rfl, rfl⟩

theorem test_decode_row_4 :
    decode [0x40] = .ok (.rti, []) ∧
    decode [0x41, 0x34] = .ok (.eorInx 0x34, []) ∧
    decode [0x45, 0x34] = .ok (.eorZp 0x34, []) ∧
    decode [0x46, 0x34] = .ok (.lsrZp 0x34, []) ∧
    decode [0x48] = .ok (.pha, []) ∧
    decode [0x49, 0x34] = .ok (.eorImm 0x34, []) ∧
    decode [0x4A] = .ok (.lsrAcc, []) ∧
    decode [0x4C, 0x34, 0x12] = .ok (.jmpAbs 0x1234, []) ∧
    decode [0x4D, 0x34, 0x12] = .ok (.eorAbs 0x1234, []) ∧
    decode [0x4E, 0x34, 0x12] = .ok (.lsrAbs 0x1234, []) :=
  ⟨rfl, rfl, rfl, rfl, rfl, rfl, rfl, rfl, rfl, rfl⟩

theorem test_decode_row_5 :
    decode [0x50, 0x34] = .ok (.bvc 0x34, []) ∧
    decode [0x51, 0x34] = .ok (.eorIny 0x34, []) ∧
    decode [0x55, 0x34] = .ok (.eorZpx 0x34, []) ∧
    decode [0x56, 0x34] = .ok (.lsrZpx 0x34, []) ∧
    decode [0x58] = .ok (.cli, []) ∧
    decode [0x59, 0x34, 0x12] = .ok (.eorAby 0x1234, []) ∧
    decode [0x5D, 0x34, 0x12] = .ok (.eorAbx 0x1234, []) ∧
    decode [0x5E, 0x34, 0x12] = .ok (.lsrAbx 0x1234, []) :=
  ⟨rfl, rfl, rfl, rfl, rfl, rfl, rfl, rfl⟩

theorem test_decode_row_6 :
    decode [0x60] = .ok (.rts, []) ∧
    decode [0x61, 0x34] = .ok (.adcInx 0x34, []) ∧
    decode [0x65, 0x34] = .ok (.adcZp 0x34, []) ∧
    decode [0x66, 0x34] = .ok (.rorZp 0x34, []) ∧
    decode [0x68] = .ok (.pla, []) ∧
    decode [0x69, 0x34] = .ok (.adcImm 0x34, []) ∧
    decode [0x6A] = .ok (.rorAcc, []) ∧
    decode [0x6C, 0x34, 0x12] = .ok (.jmpInd 0x1234, []) ∧
    decode [0x6D, 0x34, 0x12] = .ok (.adcAbs 0x1234, []) ∧
    decode [0x6E, 0x34, 0x12] = .ok (.rorAbs 0x1234, []) :=
  ⟨rfl, rfl, rfl, rfl, rfl, rfl, rfl, rfl, rfl, rfl⟩

theorem test_decode_row_7 :
    decode [0x70, 0x34] = .ok (.bvs 0x34, []) ∧
    decode [0x71, 0x34] = .ok (.adcIny 0x34, []) ∧
    decode [0x75, 0x34] = .ok (.adcZpx 0x34, []) ∧
    decode [0x76, 0x34] = .ok (.rorZpx 0x34, []) ∧
    decode [0x78] = .ok (.sei, []) ∧
    decode [0x79, 0x34, 0x12] = .ok (.adcAby 0x1234, []) ∧
    decode [0x7D, 0x34, 0x12] = .ok (.adcAbx 0x1234, []) ∧
    decode [0x7E, 0x34, 0x12] = .ok (.rorAbx 0x1234, []) :=
  ⟨rfl, rfl, rfl, rfl, rfl, rfl, rfl, rfl⟩

theorem test_decode_row_8 :
    decode [0x81, 0x34] = .ok (.staInx 0x34, []) ∧
    decode [0x84, 0x34] = .ok (.styZp 0x34, []) ∧
    decode [0x85, 0x34] = .ok (.staZp 0x34, []) ∧
    decode [0x86, 0x34] = .ok (.stxZp 0x34, []) ∧
    decode [0x88] = .ok (.dey, []) ∧
    decode [0x8A] = .ok (.txa, []) ∧
    decode [0x8C, 0x34, 0x12] = .ok (.styAbs 0x1234, []) ∧
    decode [0x8D, 0x34, 0x12] = .ok (.staAbs 0x1234, []) ∧
    decode [0x8E, 0x34, 0x12] = .ok (.stxAbs 0x1234, []) :=
  ⟨rfl, rfl, rfl, rfl, rfl, rfl, rfl, rfl, rfl⟩

theorem test_decode_row_9 :
    decode [0x90, 0x34] = .ok (.bcc 0x34, []) ∧
    decode [0x91, 0x34] = .ok (.staIny 0x34, []) ∧
    decode [0x94, 0x34] = .ok (.styZpx 0x34, []) ∧
    decode [0x95, 0x34] = .ok (.staZpx 0x34, []) ∧
    decode [0x96, 0x34] = .ok (.stxZpy 0x34, []) ∧
    decode [0x98] = .ok (.tya, []) ∧
    decode [0x99, 0x34, 0x12] = .ok (.staAby 0x1234, []) ∧
    decode [0x9A] = .ok (.txs, []) ∧
    decode [0x9D, 0x34, 0x12] = .ok (.staAbx 0x1234, []) :=
  ⟨rfl, rfl, rfl, rfl, rfl, rfl, rfl, rfl, rfl⟩

theorem test_decode_row_A :
    decode [0xA0, 0x34] = .ok (.ldyImm 0x34, []) ∧
    decode [0xA1, 0x34] = .ok (.ldaInx 0x34, []) ∧
    decode [0xA2, 0x34] = .ok (.ldxImm 0x34, []) ∧
    decode [0xA4, 0x34] = .ok (.ldyZp 0x34, []) ∧
    decode [0xA5, 0x34] = .ok (.ldaZp 0x34, []) ∧
    decode [0xA6, 0x34] = .ok (.ldxZp 0x34, []) ∧
    decode [0xA8] = .ok (.tay, []) ∧
    decode [0xA9, 0x34] = .ok (.ldaImm 0x34, []) ∧
    decode [0xAA] = .ok (.tax, []) ∧
    decode [0xAC, 0x34, 0x12] = .ok (.ldyAbs 0x1234, []) ∧
    decode [0xAD, 0x34, 0x12] = .ok (.ldaAbs 0x1234, []) ∧
    decode [0xAE, 0x34, 0x12] = .ok (.ldxAbs 0x1234, []) :=
  ⟨rfl, rfl, rfl, rfl, rfl, rfl, rfl, rfl, rfl, rfl, rfl, rfl⟩

theorem test_decode_row_B :
    decode [0xB0, 0x34] = .ok (.bcs 0x34, []) ∧
    decode [0xB1, 0x34] = .ok (.ldaIny 0x34, []) ∧
    decode [0xB4, 0x34] = .ok (.ldyZpx 0x34, []) ∧
    decode [0xB5, 0x34] = .ok (.ldaZpx 0x34, []) ∧
    decode [0xB6, 0x34] = .ok (.ldxZpy 0x34, []) ∧
    decode [0xB8] = .ok (.clv, []) ∧
    decode [0xB9, 0x34, 0x12] = .ok (.ldaAby 0x1234, []) ∧
    decode [0xBA] = .ok (.tsx, []) ∧
    decode [0xBC, 0x34, 0x12] = .ok (.ldyAbx 0x1234, []) ∧
    decode [0xBD, 0x34, 0x12] = .ok (.ldaAbx 0x1234, []) ∧
    decode [0xBE, 0x34, 0x12] = .ok (.ldxAby 0x1234, []) :=
  ⟨rfl, rfl, rfl, rfl, rfl, rfl, rfl, rfl, rfl, rfl, rfl⟩

theorem test_decode_row_C :
    decode [0xC0, 0x34] = .ok (.cpyImm 0x34, []) ∧
    decode [0xC1, 0x34] = .ok (.cmpInx 0x34, []) ∧
    decode [0xC4, 0x34] = .ok (.cpyZp 0x34, []) ∧
    decode [0xC5, 0x34] = .ok (.cmpZp 0x34, []) ∧
    decode [0xC6, 0x34] = .ok (.decZp 0x34, []) ∧
    decode [0xC8] = .ok (.iny, []) ∧
    decode [0xC9, 0x34] = .ok (.cmpImm 0x34, []) ∧
    decode [0xCA] = .ok (.dex, []) ∧
    decode [0xCC, 0x34, 0x12] = .ok (.cpyAbs 0x1234, []) ∧
    decode [0xCD, 0x34, 0x12] = .ok (.cmpAbs 0x1234, []) ∧
    decode [0xCE, 0x34, 0x12] = .ok (.decAbs 0x1234, []) :=
  ⟨rfl, rfl, rfl, rfl, rfl, rfl, rfl, rfl, rfl, rfl, rfl⟩

theorem test_decode_row_D :
    decode [0xD0, 0x34] = .ok (.bne 0x34, []) ∧
    decode [0xD1, 0x34] = .ok (.cmpIny 0x34, []) ∧
    decode [0xD5, 0x34] = .ok (.cmpZpx 0x34, []) ∧
    decode [0xD6, 0x34] = .ok (.decZpx 0x34, []) ∧
    decode [0xD8] = .ok (.cld, []) ∧
    decode [0xD9, 0x34, 0x12] = .ok (.cmpAby 0x1234, []) ∧
    decode [0xDD, 0x34, 0x12] = .ok (.cmpAbx 0x1234, []) ∧
    decode [0xDE, 0x34, 0x12] = .ok (.decAbx 0x1234, []) :=
  ⟨rfl, rfl, rfl, rfl, rfl, rfl, rfl, rfl⟩

theorem test_decode_row_E :
    decode [0xE0, 0x34] = .ok (.cpxImm 0x34, []) ∧
    decode [0xE1, 0x34] = .ok (.sbcInx 0x34, []) ∧
    decode [0xE4, 0x34] = .ok (.cpxZp 0x34, []) ∧
    decode [0xE5, 0x34] = .ok (.sbcZp 0x34, []) ∧
    decode [0xE6, 0x34] = .ok (.incZp 0x34, []) ∧
    decode [0xE8] = .ok (.inx, []) ∧
    decode [0xE9, 0x34] = .ok (.sbcImm 0x34, []) ∧
    decode [0xEA] = .ok (.nop, []) ∧
    decode [0xEC, 0x34, 0x12] = .ok (.cpxAbs 0x1234, []) ∧
    decode [0xED, 0x34, 0x12] = .ok (.sbcAbs 0x1234, []) ∧
    decode [0xEE, 0x34, 0x12] = .ok (.incAbs 0x1234, []) :=
  ⟨rfl, rfl, rfl, rfl, rfl, rfl, rfl, rfl, rfl, rfl, rfl⟩

theorem test_decode_row_F :
    decode [0xF0, 0x34] = .ok (.beq 0x34, []) ∧
    decode [0xF1, 0x34] = .ok (.sbcIny 0x34, []) ∧
    decode [0xF5, 0x34] = .ok (.sbcZpx 0x34, []) ∧
    decode [0xF6, 0x34] = .ok (.incZpx 0x34, []) ∧
    decode [0xF8] = .ok (.sed, []) ∧
    decode [0xF9, 0x34, 0x12] = .ok (.sbcAby 0x1234, []) ∧
    decode [0xFD, 0x34, 0x12] = .ok (.sbcAbx 0x1234, []) ∧
    decode [0xFE, 0x34, 0x12] = .ok (.incAbx 0x1234, []) :=
  ⟨rfl, rfl, rfl, rfl, rfl, rfl, rfl, rfl⟩

theorem test_decodeTableWord :
    decodeTableWord 8 0x69 = some (.adcImm 0x00) ∧ decodeTableWord 16 0x3469 = some (.adcImm 0x34) ∧
    decodeTableWord 24 0x12346C = some (.jmpInd 0x1234) ∧ decodeTableWord 8 0x02 = none :=
  ⟨rfl, rfl, rfl, rfl⟩

/-- The examples of R91. -/
theorem test_assembly_R91 :
    assembly 0x0600 .clc = "CLC" ∧ assembly 0x0600 .aslAcc = "ASL A" ∧ assembly 0x0600 (.ldaImm 0x10) = "LDA #$10" ∧
    assembly 0x0600 (.ldxZpy 0x10) = "LDX $10,Y" ∧ assembly 0x0600 (.ldaAby 0x1234) = "LDA $1234,Y" ∧
    assembly 0x0600 (.ldaInx 0x10) = "LDA ($10,X)" ∧ assembly 0x0600 (.ldaIny 0x10) = "LDA ($10),Y" ∧
    assembly 0x0600 (.bne 0xFB) = "BNE $05FD" ∧ assembly 0x0600 (.jmpInd 0x1234) = "JMP ($1234)" :=
  ⟨rfl, rfl, rfl, rfl, rfl, rfl, rfl, rfl, rfl⟩

/-! ## One-step vectors of spec/95_test_vectors.md

Each is named after its mnemonic and the vector's id. `becomes` compares the whole next state with the one before, with
the columns "After" and "cyc" written into it; the record of bus cycles is not compared. -/

/-- The start of the vectors: the instruction at $0600, registers 0, S = $FF, flags 0, the named cells. -/
def vec (bytes : List Byte) (cells : List Host.Cell) : State :=
  let s := { State.reset with sp := 0xFF, pc := 0x0600, p := ⟨false, false, false, false, false, false⟩ }
  let placed := s.withBytes 0x0600 bytes
  { placed with mem := cells.foldl (fun m cell => m.write cell.1 cell.2) placed.mem }

/-- The same with the instruction at another address. -/
def vecAt (pc : Word) (bytes : List Byte) (cells : List Host.Cell) : State :=
  let s := vec [] cells
  { s.withBytes pc bytes with pc := pc }

/-- One step gives the state with the changes. -/
def becomes (s : State) (change : State → State) : Bool :=
  match step s with
  | .next t => decide (t = { change s with bus := t.bus })
  | .fault _ | .refused _ => false

theorem test_brk_SY1 :
    becomes { vec [0x00, 0xEA] [(0xFFFF, 0xE0)] with p.c := true }
      (fun s => { s with sp := 0xFC, pc := 0xE000, p.i := true, mem := (((s.mem.write 0x1FF 0x06).write 0x1FE 0x02).write 0x1FD 0x31), clock := 7 }) = true := by decide

theorem test_brk_SY2 :
    becomes { vecAt 0x12FF [0x00, 0xEA] [(0xFFFF, 0xE0)] with sp := 0x01, p.d := true, p.i := true }
      (fun s => { s with sp := 0xFE, pc := 0xE000, mem := (((s.mem.write 0x101 0x13).write 0x100 0x01).write 0x1FF 0x3C), clock := 7 }) = true := by decide

theorem test_asl_SH3 :
    becomes (vec [0x06, 0x20] [(0x20, 0x40)])
      (fun s => { s with pc := 0x0602, p.n := true, mem := (s.mem.write 0x20 0x80), clock := 5 }) = true := by decide

theorem test_php_ST3 :
    becomes { vec [0x08] [] with p.n := true, p.c := true }
      (fun s => { s with sp := 0xFE, pc := 0x0601, mem := (s.mem.write 0x1FF 0xB1), clock := 3 }) = true := by decide

theorem test_php_ST4 :
    becomes { vec [0x08] [] with p.i := true, p.z := true }
      (fun s => { s with sp := 0xFE, pc := 0x0601, mem := (s.mem.write 0x1FF 0x36), clock := 3 }) = true := by decide

theorem test_ora_LG3 :
    becomes (vec [0x09, 0x00] [])
      (fun s => { s with pc := 0x0602, p.z := true, clock := 2 }) = true := by decide

theorem test_ora_LG4 :
    becomes { vec [0x09, 0x80] [] with a := 0x0F }
      (fun s => { s with a := 0x8F, pc := 0x0602, p.n := true, clock := 2 }) = true := by decide

theorem test_asl_SH1 :
    becomes { vec [0x0A] [] with a := 0x81 }
      (fun s => { s with a := 0x02, pc := 0x0601, p.c := true, clock := 2 }) = true := by decide

theorem test_asl_SH2 :
    becomes { vec [0x0A] [] with a := 0x80 }
      (fun s => { s with a := 0x00, pc := 0x0601, p.z := true, p.c := true, clock := 2 }) = true := by decide

theorem test_bpl_B7 :
    becomes (vecAt 0x0300 [0x10, 0x80] [])
      (fun s => { s with pc := 0x0282, clock := 4 }) = true := by decide

theorem test_clc_FL1 :
    becomes { vec [0x18] [] with p.c := true }
      (fun s => { s with pc := 0x0601, p.c := false, clock := 2 }) = true := by decide

theorem test_jsr_J4 :
    becomes { vec [0x20, 0x34, 0x12] [] with sp := 0xFF }
      (fun s => { s with sp := 0xFD, pc := 0x1234, mem := ((s.mem.write 0x1FF 0x06).write 0x1FE 0x02), clock := 6 }) = true := by decide

theorem test_jsr_J5 :
    becomes { vec [0x20, 0x34, 0x12] [] with sp := 0x00 }
      (fun s => { s with sp := 0xFE, pc := 0x1234, mem := ((s.mem.write 0x100 0x06).write 0x1FF 0x02), clock := 6 }) = true := by decide

theorem test_bit_LG7 :
    becomes { vec [0x24, 0x20] [(0x20, 0x41)] with a := 0x01 }
      (fun s => { s with pc := 0x0602, p.v := true, clock := 3 }) = true := by decide

theorem test_bit_LG8 :
    becomes { vec [0x24, 0x20] [(0x20, 0xC0)] with a := 0x01 }
      (fun s => { s with pc := 0x0602, p.n := true, p.v := true, p.z := true, clock := 3 }) = true := by decide

theorem test_plp_ST9 :
    becomes { vec [0x28] [(0x1FF, 0xC3)] with sp := 0xFE }
      (fun s => { s with sp := 0xFF, pc := 0x0601, p.n := true, p.v := true, p.z := true, p.c := true, heldI := some false, clock := 4 }) = true := by decide

theorem test_plp_ST10 :
    becomes { vec [0x28] [(0x1FF, 0x30)] with sp := 0xFE, p.n := true, p.v := true, p.d := true, p.i := true, p.z := true, p.c := true }
      (fun s => { s with sp := 0xFF, pc := 0x0601, p.n := false, p.v := false, p.d := false, p.i := false, p.z := false, p.c := false, heldI := some true, clock := 4 }) = true := by decide

theorem test_and_LG1 :
    becomes { vec [0x29, 0x0F] [] with a := 0xF0 }
      (fun s => { s with a := 0x00, pc := 0x0602, p.z := true, clock := 2 }) = true := by decide

theorem test_and_LG2 :
    becomes { vec [0x29, 0x80] [] with a := 0xFF }
      (fun s => { s with a := 0x80, pc := 0x0602, p.n := true, clock := 2 }) = true := by decide

theorem test_rol_SH7 :
    becomes { vec [0x2A] [] with a := 0x40, p.c := true }
      (fun s => { s with a := 0x81, pc := 0x0601, p.n := true, p.c := false, clock := 2 }) = true := by decide

theorem test_rol_SH8 :
    becomes { vec [0x2A] [] with a := 0x80 }
      (fun s => { s with a := 0x00, pc := 0x0601, p.z := true, p.c := true, clock := 2 }) = true := by decide

theorem test_bit_LG9 :
    becomes { vec [0x2C, 0x00, 0x03] [(0x300, 0x3F)] with a := 0xFF, p.n := true, p.v := true }
      (fun s => { s with pc := 0x0603, p.n := false, p.v := false, clock := 4 }) = true := by decide

theorem test_bmi_B6 :
    becomes { vecAt 0x0300 [0x30, 0x7F] [] with p.n := true }
      (fun s => { s with pc := 0x0381, clock := 3 }) = true := by decide

theorem test_sec_FL2 :
    becomes (vec [0x38] [])
      (fun s => { s with pc := 0x0601, p.c := true, clock := 2 }) = true := by decide

theorem test_rti_SY3 :
    becomes { vecAt 0xE000 [0x40] [(0x1FD, 0x31), (0x1FE, 0x02), (0x1FF, 0x06)] with sp := 0xFC, p.i := true }
      (fun s => { s with sp := 0xFF, pc := 0x0602, p.i := false, p.c := true, clock := 6 }) = true := by decide

theorem test_rti_SY4 :
    becomes { vecAt 0xE000 [0x40] [(0x1FD, 0xCF), (0x1FF, 0x80)] with sp := 0xFC }
      (fun s => { s with sp := 0xFF, pc := 0x8000, p.n := true, p.v := true, p.d := true, p.i := true, p.z := true, p.c := true, clock := 6 }) = true := by decide

theorem test_pha_ST1 :
    becomes { vec [0x48] [] with a := 0x42 }
      (fun s => { s with sp := 0xFE, pc := 0x0601, mem := (s.mem.write 0x1FF 0x42), clock := 3 }) = true := by decide

theorem test_pha_ST2 :
    becomes { vec [0x48] [] with a := 0x42, sp := 0x00 }
      (fun s => { s with sp := 0xFF, pc := 0x0601, mem := (s.mem.write 0x100 0x42), clock := 3 }) = true := by decide

theorem test_eor_LG5 :
    becomes { vec [0x49, 0xFF] [] with a := 0xFF }
      (fun s => { s with a := 0x00, pc := 0x0602, p.z := true, clock := 2 }) = true := by decide

theorem test_eor_LG6 :
    becomes { vec [0x49, 0xAA] [] with a := 0x55 }
      (fun s => { s with a := 0xFF, pc := 0x0602, p.n := true, clock := 2 }) = true := by decide

theorem test_lsr_SH4 :
    becomes { vec [0x4A] [] with a := 0x03, p.n := true }
      (fun s => { s with a := 0x01, pc := 0x0601, p.n := false, p.c := true, clock := 2 }) = true := by decide

theorem test_lsr_SH5 :
    becomes { vec [0x4A] [] with a := 0x01 }
      (fun s => { s with a := 0x00, pc := 0x0601, p.z := true, p.c := true, clock := 2 }) = true := by decide

theorem test_jmp_J1 :
    becomes (vec [0x4C, 0x34, 0x12] [])
      (fun s => { s with pc := 0x1234, clock := 3 }) = true := by decide

theorem test_bvc_B8 :
    becomes (vec [0x50, 0x00] [])
      (fun s => { s with pc := 0x0602, clock := 3 }) = true := by decide

theorem test_lsr_SH6 :
    becomes { vec [0x56, 0x20] [(0x21, 0x80)] with x := 0x01 }
      (fun s => { s with pc := 0x0602, mem := (s.mem.write 0x21 0x40), clock := 6 }) = true := by decide

theorem test_cli_FL5 :
    becomes { vec [0x58] [] with p.i := true }
      (fun s => { s with pc := 0x0601, p.i := false, heldI := some true, clock := 2 }) = true := by decide

theorem test_rts_J6 :
    becomes { vecAt 0x1234 [0x60] [(0x1FE, 0x02), (0x1FF, 0x06)] with sp := 0xFD }
      (fun s => { s with sp := 0xFF, pc := 0x0603, clock := 6 }) = true := by decide

theorem test_rts_J7 :
    becomes { vecAt 0x1234 [0x60] [(0x1FE, 0xFF), (0x1FF, 0xFF)] with sp := 0xFD }
      (fun s => { s with sp := 0xFF, pc := 0x0000, clock := 6 }) = true := by decide

theorem test_pla_ST7 :
    becomes { vec [0x68] [] with a := 0x07, sp := 0xFE }
      (fun s => { s with a := 0x00, sp := 0xFF, pc := 0x0601, p.z := true, clock := 4 }) = true := by decide

theorem test_pla_ST8 :
    becomes (vec [0x68] [(0x100, 0x80)])
      (fun s => { s with a := 0x80, sp := 0x00, pc := 0x0601, p.n := true, clock := 4 }) = true := by decide

theorem test_adc_AR4 :
    becomes { vec [0x69, 0x80] [] with a := 0x80 }
      (fun s => { s with a := 0x00, pc := 0x0602, p.v := true, p.z := true, p.c := true, clock := 2 }) = true := by decide

theorem test_adc_AD3 :
    becomes { vec [0x69, 0x46] [] with a := 0x58, p.d := true, p.c := true, cfg.decimalFlags := .nmosExact }
      (fun s => { s with a := 0x05, pc := 0x0602, p.n := true, p.v := true, clock := 2 }) = true := by decide

theorem test_ror_SH9 :
    becomes { vec [0x6A] [] with a := 0x02, p.c := true }
      (fun s => { s with a := 0x81, pc := 0x0601, p.n := true, p.c := false, clock := 2 }) = true := by decide

theorem test_ror_SH10 :
    becomes { vec [0x6A] [] with a := 0x01 }
      (fun s => { s with a := 0x00, pc := 0x0601, p.z := true, p.c := true, clock := 2 }) = true := by decide

theorem test_jmp_J2 :
    becomes (vec [0x6C, 0x10, 0x02] [(0x210, 0x34), (0x211, 0x12)])
      (fun s => { s with pc := 0x1234, clock := 5 }) = true := by decide

theorem test_jmp_J3 :
    becomes (vec [0x6C, 0xFF, 0x02] [(0x200, 0x12), (0x2FF, 0x34), (0x300, 0x56)])
      (fun s => { s with pc := 0x1234, clock := 5 }) = true := by decide

theorem test_ror_SH11 :
    becomes { vec [0x6E, 0x00, 0x03] [(0x300, 0x01)] with p.c := true }
      (fun s => { s with pc := 0x0603, p.n := true, mem := (s.mem.write 0x300 0x80), clock := 6 }) = true := by decide

theorem test_bvs_B9 :
    becomes { vec [0x70, 0xFE] [] with p.v := true }
      (fun s => { s with pc := 0x0600, clock := 3 }) = true := by decide

theorem test_sei_FL6 :
    becomes (vec [0x78] [])
      (fun s => { s with pc := 0x0601, p.i := true, heldI := some false, clock := 2 }) = true := by decide

theorem test_dey_ID9 :
    becomes { vec [0x88] [] with y := 0x80 }
      (fun s => { s with y := 0x7F, pc := 0x0601, clock := 2 }) = true := by decide

theorem test_txa_L18 :
    becomes { vec [0x8A] [] with a := 0x09 }
      (fun s => { s with a := 0x00, pc := 0x0601, p.z := true, clock := 2 }) = true := by decide

theorem test_bcc_B1 :
    becomes (vec [0x90, 0x04] [])
      (fun s => { s with pc := 0x0606, clock := 3 }) = true := by decide

theorem test_bcc_B2 :
    becomes { vec [0x90, 0x04] [] with p.c := true }
      (fun s => { s with pc := 0x0602, clock := 2 }) = true := by decide

theorem test_sty_L14 :
    becomes { vec [0x94, 0xF0] [] with x := 0x20, y := 0x99, p.z := true }
      (fun s => { s with pc := 0x0602, mem := (s.mem.write 0x10 0x99), clock := 4 }) = true := by decide

theorem test_stx_L13 :
    becomes { vec [0x96, 0xF0] [] with x := 0x77, y := 0x20 }
      (fun s => { s with pc := 0x0602, mem := (s.mem.write 0x10 0x77), clock := 4 }) = true := by decide

theorem test_tya_L20 :
    becomes { vec [0x98] [] with y := 0x7F, p.n := true }
      (fun s => { s with a := 0x7F, pc := 0x0601, p.n := false, clock := 2 }) = true := by decide

theorem test_txs_L19 :
    becomes { vec [0x9A] [] with p.n := true }
      (fun s => { s with sp := 0x00, pc := 0x0601, clock := 2 }) = true := by decide

theorem test_sta_L12 :
    becomes { vec [0x9D, 0x00, 0x02] [] with a := 0x3C, x := 0xFF }
      (fun s => { s with pc := 0x0603, mem := (s.mem.write 0x2FF 0x3C), clock := 5 }) = true := by decide

theorem test_ldy_L11 :
    becomes (vec [0xA0, 0x7F] [])
      (fun s => { s with y := 0x7F, pc := 0x0602, clock := 2 }) = true := by decide

theorem test_lda_L7 :
    becomes (vec [0xA1, 0xFF] [(0x0, 0x12), (0xFF, 0x34), (0x100, 0x99), (0x1234, 0x5A)])
      (fun s => { s with a := 0x5A, pc := 0x0602, clock := 6 }) = true := by decide

theorem test_lda_L8 :
    becomes { vec [0xA1, 0xFE] [(0x2, 0x04), (0x400, 0x81)] with x := 0x03 }
      (fun s => { s with a := 0x81, pc := 0x0602, p.n := true, clock := 6 }) = true := by decide

theorem test_tay_L16 :
    becomes { vec [0xA8] [] with a := 0x80 }
      (fun s => { s with y := 0x80, pc := 0x0601, p.n := true, clock := 2 }) = true := by decide

theorem test_lda_L1 :
    becomes { vec [0xA9, 0x00] [] with a := 0x55 }
      (fun s => { s with a := 0x00, pc := 0x0602, p.z := true, clock := 2 }) = true := by decide

theorem test_lda_L2 :
    becomes (vec [0xA9, 0x80] [])
      (fun s => { s with a := 0x80, pc := 0x0602, p.n := true, clock := 2 }) = true := by decide

theorem test_tax_L15 :
    becomes { vec [0xAA] [] with x := 0x05 }
      (fun s => { s with x := 0x00, pc := 0x0601, p.z := true, clock := 2 }) = true := by decide

theorem test_bcs_B3 :
    becomes { vec [0xB0, 0xFC] [] with p.c := true }
      (fun s => { s with pc := 0x05FE, clock := 4 }) = true := by decide

theorem test_lda_L9 :
    becomes { vec [0xB1, 0xFF] [(0x0, 0x20), (0xFF, 0xFF), (0x2100, 0x66)] with y := 0x01 }
      (fun s => { s with a := 0x66, pc := 0x0602, clock := 6 }) = true := by decide

theorem test_lda_L3 :
    becomes { vec [0xB5, 0xF0] [(0x10, 0xAA), (0x110, 0xBB)] with x := 0x20 }
      (fun s => { s with a := 0xAA, pc := 0x0602, p.n := true, clock := 4 }) = true := by decide

theorem test_ldx_L10 :
    becomes { vec [0xB6, 0x10] [] with y := 0xFF }
      (fun s => { s with x := 0x00, pc := 0x0602, p.z := true, clock := 4 }) = true := by decide

theorem test_clv_FL7 :
    becomes { vec [0xB8] [] with p.v := true }
      (fun s => { s with pc := 0x0601, p.v := false, clock := 2 }) = true := by decide

theorem test_tsx_L17 :
    becomes { vec [0xBA] [] with sp := 0xFD }
      (fun s => { s with x := 0xFD, pc := 0x0601, p.n := true, clock := 2 }) = true := by decide

theorem test_lda_L4 :
    becomes { vec [0xBD, 0xF0, 0x00] [(0x10, 0xAA), (0x110, 0xBB)] with x := 0x20 }
      (fun s => { s with a := 0xBB, pc := 0x0603, p.n := true, clock := 5 }) = true := by decide

theorem test_lda_L5 :
    becomes { vec [0xBD, 0xF0, 0x12] [(0x1310, 0x7F)] with x := 0x20 }
      (fun s => { s with a := 0x7F, pc := 0x0603, clock := 5 }) = true := by decide

theorem test_cpy_CP6 :
    becomes { vec [0xC0, 0x00] [] with y := 0xFF }
      (fun s => { s with pc := 0x0602, p.n := true, p.c := true, clock := 2 }) = true := by decide

theorem test_dec_ID4 :
    becomes (vec [0xC6, 0x20] [(0x20, 0x01)])
      (fun s => { s with pc := 0x0602, p.z := true, mem := (s.mem.write 0x20 0x00), clock := 5 }) = true := by decide

theorem test_iny_ID6 :
    becomes { vec [0xC8] [] with y := 0x7F }
      (fun s => { s with y := 0x80, pc := 0x0601, p.n := true, clock := 2 }) = true := by decide

theorem test_cmp_CP1 :
    becomes { vec [0xC9, 0x41] [] with a := 0x40 }
      (fun s => { s with pc := 0x0602, p.n := true, clock := 2 }) = true := by decide

theorem test_cmp_CP3 :
    becomes { vec [0xC9, 0x01] [] with a := 0x80 }
      (fun s => { s with pc := 0x0602, p.c := true, clock := 2 }) = true := by decide

theorem test_dex_ID7 :
    becomes (vec [0xCA] [])
      (fun s => { s with x := 0xFF, pc := 0x0601, p.n := true, clock := 2 }) = true := by decide

theorem test_dex_ID8 :
    becomes { vec [0xCA] [] with x := 0x01 }
      (fun s => { s with x := 0x00, pc := 0x0601, p.z := true, clock := 2 }) = true := by decide

theorem test_dec_ID3 :
    becomes (vec [0xCE, 0x00, 0x03] [])
      (fun s => { s with pc := 0x0603, p.n := true, mem := (s.mem.write 0x300 0xFF), clock := 6 }) = true := by decide

theorem test_bne_B5 :
    becomes (vecAt 0x0605 [0xD0, 0xFB] [])
      (fun s => { s with pc := 0x0602, clock := 3 }) = true := by decide

theorem test_bne_B11 :
    becomes (vecAt 0xFFF0 [0xD0, 0x20] [])
      (fun s => { s with pc := 0x0012, clock := 4 }) = true := by decide

theorem test_cld_FL3 :
    becomes { vec [0xD8] [] with p.d := true }
      (fun s => { s with pc := 0x0601, p.d := false, clock := 2 }) = true := by decide

theorem test_cpx_CP5 :
    becomes { vec [0xE0, 0x10] [] with x := 0x10 }
      (fun s => { s with pc := 0x0602, p.z := true, p.c := true, clock := 2 }) = true := by decide

theorem test_inc_ID1 :
    becomes { vec [0xE6, 0x20] [(0x20, 0xFF)] with p.c := true }
      (fun s => { s with pc := 0x0602, p.z := true, mem := (s.mem.write 0x20 0x00), clock := 5 }) = true := by decide

theorem test_inc_ID2 :
    becomes (vec [0xE6, 0x20] [(0x20, 0x7F)])
      (fun s => { s with pc := 0x0602, p.n := true, mem := (s.mem.write 0x20 0x80), clock := 5 }) = true := by decide

theorem test_inx_ID5 :
    becomes { vec [0xE8] [] with x := 0xFF }
      (fun s => { s with x := 0x00, pc := 0x0601, p.z := true, clock := 2 }) = true := by decide

theorem test_sbc_AR10 :
    becomes { vec [0xE9, 0x01] [] with a := 0x80, p.c := true }
      (fun s => { s with a := 0x7F, pc := 0x0602, p.v := true, clock := 2 }) = true := by decide

theorem test_sbc_AD10 :
    becomes { vec [0xE9, 0x21] [] with a := 0x12, p.d := true, p.c := true, cfg.decimalFlags := .nmosExact }
      (fun s => { s with a := 0x91, pc := 0x0602, p.n := true, p.c := false, clock := 2 }) = true := by decide

theorem test_nop_FL8 :
    becomes { vec [0xEA] [] with a := 0x01, p.n := true, p.c := true }
      (fun s => { s with pc := 0x0601, clock := 2 }) = true := by decide

theorem test_beq_B4 :
    becomes { vecAt 0x0300 [0xF0, 0x10] [] with p.z := true }
      (fun s => { s with pc := 0x0312, clock := 3 }) = true := by decide

theorem test_beq_B10 :
    becomes { vecAt 0x06F0 [0xF0, 0x20] [] with p.z := true }
      (fun s => { s with pc := 0x0712, clock := 4 }) = true := by decide

theorem test_sed_FL4 :
    becomes (vec [0xF8] [])
      (fun s => { s with pc := 0x0601, p.d := true, clock := 2 }) = true := by decide

/-! ## Refusals, interrupts, reset, RDY, S.O. (spec/95_test_vectors.md B4, B6, A13) -/

theorem test_jmp_J3_refuse :
    (match step { vec [0x6C, 0xFF, 0x02] [] with cfg.jmpIndWrap := .refuse } with
     | .refused why => decide (why = .jumpPointerAtPageEnd 0x02FF)
     | .next _ | .fault _ => false) = true := by decide

theorem test_undefined_X6 :
    (match step (vec [0x02] []) with
     | .refused why => decide (why = .undefinedOpcode 0x02)
     | .next _ | .fault _ => false) = true := by decide

/-- The boundary of vectors X1 and X2: PC = $0609, Z set, both vectors in place. -/
def boundary : State :=
  { vec [] [(0xFFFB, 0x08), (0xFFFF, 0x07)] with pc := 0x0609, p := ⟨false, false, false, false, true, false⟩ }

theorem test_irq_X1 :
    becomes { boundary with pins := { Pins.inactive with irqLow := true } }
      (fun s => { s with sp := 0xFC, pc := 0x0700, p.i := true, clock := 7,
                         mem := ((s.mem.write 0x1FF 0x06).write 0x1FE 0x09).write 0x1FD 0x22 }) = true := by decide

theorem test_nmi_X2 :
    becomes { boundary with p.i := true, nmiPending := true }
      (fun s => { s with sp := 0xFC, pc := 0x0800, nmiPending := false, clock := 7,
                         mem := ((s.mem.write 0x1FF 0x06).write 0x1FE 0x09).write 0x1FD 0x26 }) = true := by decide

theorem test_nmi_before_irq_X3 :
    becomes { boundary with nmiPending := true, pins := { Pins.inactive with irqLow := true } }
      (fun s => { s with sp := 0xFC, pc := 0x0800, p.i := true, nmiPending := false, clock := 7,
                         mem := ((s.mem.write 0x1FF 0x06).write 0x1FE 0x09).write 0x1FD 0x22 }) = true := by decide

theorem test_irq_masked_X4 :
    becomes { vec [0xEA] [] with p.i := true, pins := { Pins.inactive with irqLow := true } }
      (fun s => { s with pc := 0x0601, clock := 2 }) = true := by decide

/-- The state of vector X5 with RES low and about to rise. -/
def inReset : State :=
  { vec [] [(0xFFFD, 0x06)] with
    pins := { Pins.inactive with resLow := true }, script := [⟨.inactive, .quiet, [], []⟩], nmiPending := true }

theorem test_reset_X5 :
    (match step inReset with
     | .next t => decide (t.pc = 0x0600) && t.p.i && !t.nmiPending && decide (t.mem = inReset.mem)
     | .refused _ | .fault _ => false) = true := by decide

theorem test_rdy_X7 :
    becomes { vec [0xE8] [] with pins := { Pins.inactive with rdyLow := true } }
      (fun s => { s with clock := 1 }) = true := by decide

/-- RDY low as RES rises: the core is held, the reset sequence still due, and runs once RDY is high (R274, U12). -/
theorem test_rdy_before_the_reset_sequence :
    let s := { inReset with script := [⟨{ Pins.inactive with rdyLow := true }, .quiet, [], []⟩, ⟨.inactive, .quiet, [], []⟩] }
    (match step s with
     | .next t => decide (t.pc = s.pc) && t.resetDue && decide (eventOf (sample t) = .reset)
     | .refused _ | .fault _ => false) = true := by decide

/-- The reset sequence leaves no reset due (R270). -/
theorem test_reset_runs_once :
    (match step inReset with
     | .next t => !t.resetDue && decide (eventOf (sample t) = .instruction)
     | .refused _ | .fault _ => false) = true := by decide

/-- R57, R294: three cycles held at the second read of an instruction cost three cycles, in which the read at PC + 1 is
repeated, and nothing else. -/
theorem test_rdy_inside_an_instruction :
    becomes { vec [0xE8] [] with script := [⟨.inactive, .quiet, [], [⟨0, []⟩, ⟨3, []⟩]⟩] }
      (fun s => { s with x := 0x01, pc := 0x0601, clock := 5, script := [] }) = true := by decide

/-- R58: RDY low at the write of STA is ignored, and there is no read after it to halt at. -/
theorem test_rdy_at_a_write :
    becomes { vec [0x85, 0x20] [] with a := 0x42, script := [⟨.inactive, .quiet, [], [⟨0, []⟩, ⟨0, []⟩, ⟨5, []⟩]⟩] }
      (fun s => { s with pc := 0x0602, clock := 3, mem := s.mem.write 0x20 0x42, script := [] }) = true := by decide

/-- R47, R54, R59: another bus master writes both bytes of a pointer while RDY halts the core at the second of them: the
low byte is the old one and the high byte the new one. LDA (indirect),Y with the pointer at $0010. -/
theorem test_dma_between_the_bytes_of_a_pointer :
    becomes { vec [0xB1, 0x10] [(0x10, 0x34), (0x11, 0x12), (0x2034, 0x55)] with
        script := [⟨.inactive, .quiet, [], [⟨0, []⟩, ⟨0, []⟩, ⟨0, []⟩, ⟨1, [(0x10, 0x78), (0x11, 0x20)]⟩]⟩] }
      (fun s => { s with a := 0x55, pc := 0x0602, clock := 6, mem := (s.mem.write 0x10 0x78).write 0x11 0x20
                         script := [] }) = true := by decide

/-- R54: another bus master writes an operand that the opcode's own cycle is halted before: the instruction fetches the new
byte. -/
theorem test_dma_at_the_operand :
    becomes { vec [0xA9, 0x01] [] with script := [⟨.inactive, .quiet, [], [⟨0, []⟩, ⟨2, [(0x601, 0x7F)]⟩]⟩] }
      (fun s => { s with a := 0x7F, pc := 0x0602, clock := 4, mem := s.mem.write 0x601 0x7F, script := [] }) = true := by
  decide

/-- R47: under RDY alone nothing comes between the read and the writes of INC; where the platform shares every cycle, the
byte another master writes between them is overwritten. INC $20, cycles: opcode, operand, read, write, write. -/
theorem test_dma_inside_a_read_modify_write :
    let s := { vec [0xE6, 0x20] [(0x20, 0x01)] with
        script := [⟨.inactive, .quiet, [], [⟨0, []⟩, ⟨0, []⟩, ⟨0, []⟩, ⟨0, [(0x20, 0x50)]⟩, ⟨0, [(0x21, 0x60)]⟩]⟩] }
    becomes s (fun s => { s with pc := 0x0602, clock := 5, mem := s.mem.write 0x20 0x02, script := [] }) = true ∧
    becomes { s with cfg.sharing := .everyCycle } (fun s => { s with
      pc := 0x0602, clock := 5, mem := (s.mem.write 0x20 0x02).write 0x21 0x60, script := [] }) = true := by decide

/-- The lines with S.O. low. -/
def soLow : Pins := { Pins.inactive with soLow := true }

theorem test_so_A13 :
    becomes { vec [0xEA] [] with cfg.soActive := true, script := [⟨.inactive, ⟨false, true, false⟩, [], []⟩] }
      (fun s => { s with pc := 0x0601, clock := 2, p.v := true, script := [], pins := soLow }) = true := by decide

theorem test_reset_state_fetches_at_the_vector : (State.reset.withFetchWord 16 0x80A9).memByte State.reset.pc = 0xA9 := by
  decide

theorem test_withFetchWord_runs :
    becomes (State.reset.withFetchWord 16 0x80A9)
      (fun s => { s with a := 0x80, p.n := true, pc := 0x0002, clock := 2 }) = true := by decide

/-- A small state of the default machine. -/
abbrev start : State := vec [] []

/-! ## The end of a run (R285) -/

/-- JMP to itself with nothing pending ends the run; with an NMI edge scripted, or the IRQ line low and I clear, it does
not; nor does a held cycle. -/
theorem test_halt_selfJump :
    let s := vec [0x4C, 0x00, 0x06] []
    let edge : Inputs := ⟨{ Pins.inactive with nmiLow := true }, .quiet, [], []⟩
    let rdy := { s with pins := { Pins.inactive with rdyLow := true } }
    isHalted .selfJump 1 s s = true ∧ isHalted .selfJump 1 s { s with script := [edge] } = false ∧
    isHalted .selfJump 1 s { s with pins := { Pins.inactive with irqLow := true } } = false ∧
    isHalted .selfJump 1 rdy rdy = false ∧ isHalted .selfJump 1 (vec [0xEA] []) (vec [0xEA] []) = false := by decide

/-- BRK about to be fetched ends the run, unless an NMI comes first. -/
theorem test_halt_brkFetch :
    isHalted .brkFetch 1 start (vec [0x00] []) = true ∧
    isHalted .brkFetch 1 start { vec [0x00] [] with nmiPending := true } = false := by decide

/-- RDY held low for ever, and RDY low for one step only. -/
theorem test_halt_rdyLow :
    let held := { vec [] [] with pins := { Pins.inactive with rdyLow := true } }
    isHalted .rdyLow 1 held held = true ∧
    isHalted .rdyLow 1 held { held with script := [⟨.inactive, .quiet, [], []⟩] } = false ∧
    isHalted (.budget 3) 2 held held = false ∧ isHalted (.budget 3) 3 held held = true := by decide

/-! ## Witnesses

Each theorem shows a concrete state and operands that meet the premises of the statement it is named after. -/

/-- The 6502 on a map of ram alone refuses nothing. -/
theorem runnable_default : Config.default6502.runnable := by
  refine .inr (fun b => ?_)
  unfold Config.kindAt Config.default6502
  cases h : decide (b ≤ 0xFFFF) <;> simp [h]

/-- Every address of that map is ram. -/
theorem isMemory_default (a : Word) (s : State) (h : s.cfg = Config.default6502) : s.isMemory a := by
  have ha := a.isLt
  have hm : s.cfg.busAddr a = a.toNat := by
    rw [h]
    exact Nat.mod_eq_of_lt a.isLt
  refine .inl ?_
  rw [hm, h]
  unfold Config.kindAt Config.default6502
  simp only [List.find?_cons]
  have : decide (a.toNat ≤ 0xFFFF) = true := by simpa using Nat.le_of_lt_succ ha
  simp [this]

/-- Nothing takes memory out of the core's hands in its steps: the premise `steady`, and `alone` with it. -/
theorem steady_start : start.steady := ⟨alone_of_noGaps start rfl, rfl⟩

/-- A step in which RDY halts the core for four cycles and no other master writes is the core's own too. -/
theorem steady_halted : ({ start with gaps := [⟨4, []⟩] } : State).steady := by
  refine ⟨fun gap h => ?_, rfl⟩
  rw [List.mem_singleton.mp h]

theorem witness_EncodeOfDecodeIsTheBytes : decode [0xA9, 0x80, 0xFF] = .ok (.ldaImm 0x80, [0xFF]) := rfl

theorem witness_UndefinedOpcodesAreRefused : (0x02 : Byte) ∈ undefinedOpcodes ∧ (0xFF : Byte) ∈ undefinedOpcodes ∧
    (0x00 : Byte) ∉ undefinedOpcodes ∧ (0xFE : Byte) ∉ undefinedOpcodes := by decide

theorem witness_UndefinedOpcodesAreRefused_step :
    eventOf (sample (vec [0x02] [])) = .instruction ∧
    (busRead .opcode (sample (vec [0x02] [])).pc { sample (vec [0x02] []) with heldI := none }).1 ∈ undefinedOpcodes := by
  decide

/-- JSR, three bytes, the last of them at $0000. -/
abbrev atTheTop : State := vecAt 0xFFFE [0x20, 0x34, 0x12] []

theorem witness_StepRunsTheDecodedInstruction :
    eventOf (sample atTheTop) = .instruction ∧ (sample atTheTop).alone ∧ (sample atTheTop).gaps = [] ∧
    (∀ k, k < 3 → (sample atTheTop).isMemory ((sample atTheTop).pc + BitVec.ofNat 16 k)) ∧
    decode ((sample atTheTop).bytesAt (sample atTheTop).pc 3) = .ok (.jsr 0x1234, []) :=
  ⟨by decide, alone_of_noGaps _ rfl, rfl, fun _ _ => isMemory_default _ _ rfl, rfl⟩

theorem witness_UndisturbedStepIsTheInstruction :
    atTheTop.undisturbed ∧ (∀ k, k < 3 → atTheTop.isMemory (atTheTop.pc + BitVec.ofNat 16 k)) ∧
    decode (atTheTop.bytesAt atTheTop.pc 3) = .ok (.jsr 0x1234, []) :=
  ⟨⟨rfl, rfl, rfl, rfl⟩, fun _ _ => isMemory_default _ _ rfl, rfl⟩

theorem witness_ReadAfterWrite_lands : start.steady ∧ start.lands 0x0000 ∧ start.lands 0xFFFF :=
  ⟨steady_start, ⟨rfl, rfl⟩, ⟨rfl, rfl⟩⟩

/-- The last address of ram and the first of rom. -/
abbrev withRom : State := { start with cfg := mapped [⟨0, 0x7FFF, .ram⟩, ⟨0x8000, 0xFFFF, .rom⟩] }

theorem witness_ReadAfterWrite_rom : withRom.steady ∧ withRom.lands 0x7FFF ∧ ¬ withRom.lands 0x8000 :=
  ⟨steady_start, ⟨rfl, rfl⟩, fun h => absurd h.1 (by decide)⟩

/-- A store that overwrites the opcode after it. -/
theorem witness_StoreIsSeenByTheNextFetch :
    (Instr.staAbs 0x0603).operand = .memory (.absolute 0x0603) ∧ start.cfg.runnable ∧ start.steady ∧
    start.lands (storeAddress (.absolute 0x0603) start) ∧
    start.cfg.busAddr (storeAddress (.absolute 0x0603) start) =
      start.cfg.busAddr (start.pc + BitVec.ofNat 16 (Instr.staAbs 0x0603).length) ∧
    (Instr.staAbs 0x0603).mnemonic = .sta ∧ (Instr.stxAbs 0x0603).mnemonic = .stx ∧
    (Instr.styAbs 0x0603).mnemonic = .sty :=
  ⟨rfl, runnable_default, steady_start, ⟨rfl, rfl⟩, rfl, rfl, rfl, rfl⟩

/-- A 6512 with DBE low. -/
abbrev dbeLow : State :=
  { start with cfg := { Config.default6502 with member := .m6512 }, pins := { Pins.inactive with dbeLow := true } }

theorem witness_DbeLowLosesWrites :
    dbeLow.driversOff = true ∧ dbeLow.cfg.runnable ∧ dbeLow.steady ∧ jumpRefused (.staAbs 0x0200) dbeLow = false :=
  ⟨rfl, runnable_default, steady_start, rfl⟩

theorem witness_ZeroPageModesStayInPageZero :
    (Instr.stxZpy 0xFF).operand = .memory (.zeroPageY 0xFF) ∧ (Instr.ldaZp 0xFF).operand = .memory (.zeroPage 0xFF) ∧
    (Instr.ldaZpx 0xFF).operand = .memory (.zeroPageX 0xFF) := ⟨rfl, rfl, rfl⟩

theorem witness_AbsoluteIndexedIsTheWholeSum :
    (Instr.ldaAbs 0xFFFF).operand = .memory (.absolute 0xFFFF) ∧
    (Instr.ldaAbx 0xFFFF).operand = .memory (.absoluteX 0xFFFF) ∧
    (Instr.ldaAby 0xFFFF).operand = .memory (.absoluteY 0xFFFF) := ⟨rfl, rfl, rfl⟩

/-- For IndexedIndirectPointerStaysInPageZero and IndirectIndexedAddsYToTheWholePointer. -/
theorem witness_Pointers : start.alone ∧ start.isMemory 0x00FF ∧ start.isMemory 0x0000 :=
  ⟨steady_start.1, .inl rfl, .inl rfl⟩

theorem witness_ReadingAnOperandChangesNothing :
    start.alone ∧ start.isMemory (resolve .load (.absoluteX 0xFFFF) start).1 := ⟨steady_start.1, .inl rfl⟩

/-- The premises shared by the statements about reading instructions, CarryIsUnsignedAndOverflowIsSigned among them, one
instruction for each clause. -/
theorem witness_reading_instructions :
    start.cfg.runnable ∧
    (∀ pair ∈ [(Instr.ldaAbx 0xFFFF, Mnemonic.lda), (.ldxAby 0xFFFF, .ldx), (.ldyAbx 0xFFFF, .ldy), (.adcAbx 0xFFFF, .adc),
        (.sbcAbx 0xFFFF, .sbc), (.cmpAbx 0xFFFF, .cmp), (.andAbx 0xFFFF, .and), (.eorAbx 0xFFFF, .eor),
        (.oraAbx 0xFFFF, .ora), (.ldaImm 0xFF, .lda), (.cpxImm 0xFF, .cpx), (.cpyImm 0xFF, .cpy), (.bitAbs 0xFFFF, .bit)],
      pair.1.operand.source.isSome = true ∧ pair.1.mnemonic = pair.2) :=
  ⟨runnable_default, by decide⟩

theorem witness_LoadsTakeTheOperand :
    (Instr.ldaImm 0x80).operand.source = some (.imm 0x80) ∧ (Instr.ldxAby 0xFFFF).operand.source = some (.mem (.absoluteY 0xFFFF)) ∧
    (Instr.ldyZpx 0xFF).operand.source = some (.mem (.zeroPageX 0xFF)) ∧ start.cfg.runnable :=
  ⟨rfl, rfl, rfl, runnable_default⟩

theorem witness_StoresWriteOneByte :
    (Instr.staIny 0xFF).operand = .memory (.indirectY 0xFF) ∧ (Instr.staIny 0xFF).mnemonic = .sta ∧
    (Instr.stxZpy 0xFF).operand = .memory (.zeroPageY 0xFF) ∧ (Instr.stxZpy 0xFF).mnemonic = .stx ∧
    (Instr.styZpx 0xFF).operand = .memory (.zeroPageX 0xFF) ∧ (Instr.styZpx 0xFF).mnemonic = .sty ∧ start.cfg.runnable :=
  ⟨rfl, rfl, rfl, rfl, rfl, rfl, runnable_default⟩

/-- For the statements whose one premise is `runnable`: TransfersMoveOneRegister, IndexIncrementAndDecrement,
AccumulatorShiftsAndRotates, BranchesGoToTheSignedOffset, PushesWriteTheStackPage, FlagInstructionsWriteOneFlag. -/
theorem witness_runnable : start.cfg.runnable := runnable_default

theorem witness_BinaryAddAndSubtract :
    (Instr.adcImm 0x80).operand.source = some (.imm 0x80) ∧ (Instr.adcImm 0x80).mnemonic = .adc ∧
    (Instr.sbcImm 0x80).operand.source = some (.imm 0x80) ∧ (Instr.sbcImm 0x80).mnemonic = .sbc ∧
    start.cfg.runnable ∧ start.p.d = false :=
  ⟨rfl, rfl, rfl, rfl, runnable_default, rfl⟩

/-- A = $99 and D = 1. -/
abbrev decimal99 : State := { start with a := 0x99, p.d := true }

theorem witness_DecimalAddAndSubtractOfValidBcd :
    (Instr.adcImm 0x99).operand.source = some (.imm 0x99) ∧ (Instr.adcImm 0x99).mnemonic = .adc ∧
    (Instr.sbcImm 0x99).operand.source = some (.imm 0x99) ∧ (Instr.sbcImm 0x99).mnemonic = .sbc ∧
    decimal99.cfg.runnable ∧ decimal99.p.d = true ∧
    decimal99.a.toNat / 16 ≤ 9 ∧ decimal99.a.toNat % 16 ≤ 9 ∧
    (readSource (.imm 0x99) decimal99).1.toNat / 16 ≤ 9 ∧ (readSource (.imm 0x99) decimal99).1.toNat % 16 ≤ 9 :=
  ⟨rfl, rfl, rfl, rfl, runnable_default, rfl, by decide, by decide, by decide, by decide⟩

/-- An operand that is not valid BCD, with the exact flags. -/
theorem witness_DecimalAddAndSubtractAlwaysComplete :
    (Instr.adcImm 0x9A).operand.source = some (.imm 0x9A) ∧ (Instr.adcImm 0x9A).mnemonic = .adc ∧
    (Instr.sbcImm 0x9A).operand.source = some (.imm 0x9A) ∧ (Instr.sbcImm 0x9A).mnemonic = .sbc ∧
    decimal99.cfg.runnable ∧ decimal99.p.d = true ∧
    ({ decimal99 with cfg.decimalFlags := .nmosExact } : State).cfg.decimalFlags = .nmosExact :=
  ⟨rfl, rfl, rfl, rfl, runnable_default, rfl, rfl⟩

theorem witness_ComparesWriteCarryZeroNegative :
    (Instr.cmpAbs 0xFFFF).operand.source = some (.mem (.absolute 0xFFFF)) ∧ (Instr.cmpAbs 0xFFFF).mnemonic = .cmp ∧
    (Instr.cpxZp 0xFF).operand.source = some (.mem (.zeroPage 0xFF)) ∧ (Instr.cpxZp 0xFF).mnemonic = .cpx ∧
    (Instr.cpyImm 0xFF).operand.source = some (.imm 0xFF) ∧ (Instr.cpyImm 0xFF).mnemonic = .cpy ∧ start.cfg.runnable :=
  ⟨rfl, rfl, rfl, rfl, rfl, rfl, runnable_default⟩

/-- For ReadModifyWriteReplacesOneByte and ReadModifyWriteWritesTwice. -/
theorem witness_ReadModifyWrite :
    start.cfg.runnable ∧ start.steady ∧
    (∀ pair ∈ [(Instr.incAbx 0xFFFF, Mnemonic.inc), (.decAbx 0xFFFF, .dec), (.aslAbx 0xFFFF, .asl), (.lsrAbx 0xFFFF, .lsr),
        (.rolAbx 0xFFFF, .rol), (.rorAbx 0xFFFF, .ror)],
      pair.1.operand = .memory (.absoluteX 0xFFFF) ∧ pair.1.mnemonic = pair.2) ∧
    start.lands (storeAddress (.absoluteX 0xFFFF) start) :=
  ⟨runnable_default, steady_start, by decide, ⟨rfl, rfl⟩⟩

/-- For LogicWorksBitByBit and BitTestsTheOperand. -/
theorem witness_Logic :
    (Instr.andImm 0xFF).operand.source = some (.imm 0xFF) ∧ (Instr.andImm 0xFF).mnemonic = .and ∧
    (Instr.eorImm 0xFF).operand.source = some (.imm 0xFF) ∧ (Instr.eorImm 0xFF).mnemonic = .eor ∧
    (Instr.oraImm 0xFF).operand.source = some (.imm 0xFF) ∧ (Instr.oraImm 0xFF).mnemonic = .ora ∧
    (Instr.bitZp 0xFF).operand.source = some (.mem (.zeroPage 0xFF)) ∧ (Instr.bitZp 0xFF).mnemonic = .bit ∧
    start.cfg.runnable :=
  ⟨rfl, rfl, rfl, rfl, rfl, rfl, rfl, rfl, runnable_default⟩

/-- The default machine with another choice of JMP_IND_WRAP. -/
abbrev wrapping (w : JmpIndWrap) : State := { start with cfg.jmpIndWrap := w }

theorem witness_JumpsAndTheIndirectPointer :
    (0x02FE : Word).toNat % 256 ≠ 255 ∧ (0x0200 : Word).toNat % 256 ≠ 255 ∧ (0x02FF : Word).toNat % 256 = 255 ∧
    (wrapping .pageWrap).cfg.jmpIndWrap = .pageWrap ∧ (wrapping .carry).cfg.jmpIndWrap = .carry ∧
    (wrapping .refuse).cfg.jmpIndWrap = .refuse ∧ (wrapping .pageWrap).cfg.runnable ∧ (wrapping .carry).cfg.runnable ∧
    (wrapping .refuse).cfg.runnable :=
  ⟨by decide, by decide, by decide, rfl, rfl, rfl, runnable_default, runnable_default, runnable_default⟩

/-- A JSR at $0600 with its third byte in place, S = $FF. -/
abbrev calling : State := vec [0x20, 0x34, 0x12] []

theorem witness_JsrPushesItsLastByteAddress :
    calling.cfg.runnable ∧ calling.steady ∧ calling.isMemory (calling.pc + 2) ∧
    calling.memByte (calling.pc + 2) = hiByte 0x1234 ∧
    calling.cfg.busAddr (calling.pc + 2) ≠ calling.cfg.busAddr (stackAddr calling.sp) ∧
    calling.cfg.busAddr (calling.pc + 2) ≠ calling.cfg.busAddr (stackAddr (calling.sp - 1)) :=
  ⟨runnable_default, steady_start, .inl rfl, rfl, by decide, by decide⟩

/-- For RtsReturnsPastThePulledAddress, PullsReadTheStackPage and RtiPullsStatusThenAddress, at the end of the stack page:
S = $FF, the pulls from $0100 on. -/
theorem witness_Stack :
    start.cfg.runnable ∧ start.alone ∧ start.isMemory (stackAddr (start.sp + 1)) ∧
    start.isMemory (stackAddr (start.sp + 2)) ∧ start.isMemory (stackAddr (start.sp + 3)) :=
  ⟨runnable_default, steady_start.1, .inl rfl, .inl rfl, .inl rfl⟩

/-- A subroutine that does nothing leaves S and the return bytes as it found them. -/
theorem witness_JsrThenRtsComesBack :
    calling.cfg.runnable ∧ calling.steady ∧ calling.lands (stackAddr calling.sp) ∧
    calling.lands (stackAddr (calling.sp - 1)) ∧
    ∃ t u : State, exec (.jsr 0x1234) calling = .next t ∧ u.cfg = t.cfg ∧ u.alone ∧ u.sp = t.sp ∧
      u.memByte (stackAddr calling.sp) = t.memByte (stackAddr calling.sp) ∧
      u.memByte (stackAddr (calling.sp - 1)) = t.memByte (stackAddr (calling.sp - 1)) :=
  ⟨runnable_default, steady_start, ⟨rfl, rfl⟩, ⟨rfl, rfl⟩, _, _, rfl, rfl, alone_of_noGaps _ rfl, rfl, rfl, rfl⟩

/-- A handler that does nothing leaves S and the three bytes as it found them. -/
theorem witness_RtiResumesWhereInterrupted :
    boundary.cfg.runnable ∧ boundary.steady ∧ boundary.lands (stackAddr boundary.sp) ∧
    boundary.lands (stackAddr (boundary.sp - 1)) ∧ boundary.lands (stackAddr (boundary.sp - 2)) ∧
    ∃ t u : State, finish (takeNmi boundary) = .next t ∧ u.cfg = t.cfg ∧ u.alone ∧ u.sp = t.sp ∧
      ∀ k, k < 3 → u.memByte (stackAddr (boundary.sp - BitVec.ofNat 8 k)) =
        t.memByte (stackAddr (boundary.sp - BitVec.ofNat 8 k)) :=
  ⟨runnable_default, ⟨alone_of_noGaps _ rfl, rfl⟩, ⟨rfl, rfl⟩, ⟨rfl, rfl⟩, ⟨rfl, rfl⟩, _, _, rfl, rfl,
    alone_of_noGaps _ rfl, rfl, fun _ _ => rfl⟩

theorem witness_BreakTakesTheIrqVector :
    start.cfg.runnable ∧ start.steady ∧ start.edges.nmi = false ∧ start.isMemory 0xFFFE ∧ start.isMemory 0xFFFF :=
  ⟨runnable_default, steady_start, rfl, .inl rfl, .inl rfl⟩

theorem witness_BoundaryRule :
    ({ start with pins := { Pins.inactive with resLow := true } } : State).pins.resLow = true ∧
    start.pins.resLow = false ∧
    ({ start with pins := { Pins.inactive with rdyLow := true } } : State).rdyHolds = true ∧ start.rdyHolds = false ∧
    ({ start with resetDue := true } : State).resetDue = true ∧ start.resetDue = false ∧
    ({ start with nmiPending := true } : State).nmiPending = true ∧ start.nmiPending = false ∧
    ({ start with pins := { Pins.inactive with irqLow := true } } : State).irqAsserted = true ∧
    start.iEffective = false ∧ start.irqAsserted = false := by decide

theorem witness_NmiEntry :
    let s : State := { boundary with nmiPending := true }
    (sample s).cfg.runnable ∧ (sample s).pins.resLow = false ∧ (sample s).rdyHolds = false ∧
    (sample s).resetDue = false ∧ (sample s).nmiPending = true ∧ (sample s).edges = .quiet ∧ (sample s).alone ∧
    (sample s).gaps = [] ∧ (sample s).isMemory 0xFFFA ∧ (sample s).isMemory 0xFFFB :=
  ⟨runnable_default, rfl, rfl, rfl, rfl, rfl, alone_of_noGaps _ rfl, rfl, .inl rfl, .inl rfl⟩

theorem witness_IrqEntry :
    let s : State := { boundary with pins := { Pins.inactive with irqLow := true } }
    (sample s).cfg.runnable ∧ (sample s).pins.resLow = false ∧ (sample s).rdyHolds = false ∧
    (sample s).resetDue = false ∧ (sample s).nmiPending = false ∧ (sample s).irqAsserted = true ∧
    (sample s).iEffective = false ∧ (sample s).edges = .quiet ∧ (sample s).alone ∧ (sample s).gaps = [] ∧
    (sample s).isMemory 0xFFFE ∧ (sample s).isMemory 0xFFFF :=
  ⟨runnable_default, rfl, rfl, rfl, rfl, rfl, rfl, rfl, alone_of_noGaps _ rfl, rfl, .inl rfl, .inl rfl⟩

theorem witness_IrqTestAfterCliSeiPlp :
    (∃ t, exec .cli { start with heldI := none } = .next t) ∧ Mnemonic.cli ∈ [Mnemonic.cli, .sei, .plp] ∧
    (∃ t, exec .rti { start with heldI := none } = .next t) ∧ Mnemonic.rti ∉ [Mnemonic.cli, .sei, .plp] ∧
    start.cfg.irqPollI = .either ∧ ({ start with cfg.irqPollI := .old } : State).cfg.irqPollI = .old ∧
    ({ start with cfg.irqPollI := .new } : State).cfg.irqPollI = .new :=
  ⟨⟨_, rfl⟩, by decide, ⟨_, rfl⟩, by decide, rfl, rfl, rfl⟩

theorem witness_NmiEdgeInsideASequence :
    let s : State := { start with edges := ⟨true, false, false⟩ }
    s.cfg.runnable ∧ s.steady ∧ s.cfg.member.hasNmi = true ∧ s.edges.nmi = true ∧ s.nmiPending = false ∧
    s.isMemory 0xFFFA ∧ s.isMemory 0xFFFB ∧ s.isMemory 0xFFFE ∧ s.isMemory 0xFFFF :=
  ⟨runnable_default, ⟨alone_of_noGaps _ rfl, rfl⟩, rfl, rfl, rfl, .inl rfl, .inl rfl, .inl rfl, .inl rfl⟩

theorem witness_NmiLatchIsSetByTheEdge :
    let low : Inputs := ⟨{ Pins.inactive with nmiLow := true }, .quiet, [], []⟩
    let s : State := { start with script := [low] }
    s.script = low :: [] ∧ s.cfg.member.hasNmi = true ∧ s.pins.nmiLow = false ∧ low.pins.nmiLow = true ∧
    (sample { s with pins := low.pins }).nmiPending = false ∧ (sample s).nmiPending = true := by decide

/-- One step at each event, an edge on NMI inside the instruction and inside the held cycle. -/
theorem witness_NmiLatchIsSetByTheEdge_steps :
    let given := fun (pins : Pins) (nmi : Bool) => { vec [0xEA] [] with script := [⟨pins, ⟨nmi, false, false⟩, [], []⟩] }
    let irqLow := given { Pins.inactive with irqLow := true } false
    let event := fun (s : State) => eventOf (sample s)
    let runs := fun (s : State) => match step s with
      | .next t => some t.nmiPending
      | .fault _ | .refused _ => none
    event (given { Pins.inactive with resLow := true } true) = .inReset ∧
    runs (given { Pins.inactive with resLow := true } true) = some false ∧
    event (given { Pins.inactive with rdyLow := true } true) = .held ∧
    runs (given { Pins.inactive with rdyLow := true } true) = some true ∧
    event inReset = .reset ∧ runs inReset = some false ∧
    event { given .inactive true with nmiPending := true } = .nmi ∧
    runs { given .inactive true with nmiPending := true } = some true ∧
    event irqLow = .irq ∧ runs irqLow = some false ∧
    event (given .inactive true) = .instruction ∧ runs (given .inactive true) = some true ∧
    (∃ s2, fetch { sample (given .inactive true) with heldI := none } = .ok (.nop, s2)) :=
  ⟨by decide, by decide, by decide, by decide, by decide, by decide, by decide, by decide, by decide, by decide,
    by decide, by decide, ⟨_, rfl⟩⟩

theorem witness_SetOverflowPin :
    let inp : Inputs := ⟨soLow, ⟨false, true, false⟩, [], []⟩
    let s : State := { vec [0xEA] [] with cfg.soActive := true, script := [inp] }
    s.hearsSo = true ∧ s.pins.soLow = false ∧ inp.pins.soLow = true ∧ (sample s).edges.so = true ∧
    writesV .nop = false ∧ start.hearsSo = false ∧ eventOf (sample s) = .instruction ∧
    (∃ s2 u, fetch { sample s with heldI := none } = .ok (.nop, s2) ∧ exec .nop s2 = .next u) :=
  ⟨rfl, rfl, rfl, rfl, rfl, rfl, by decide, ⟨_, _, rfl, rfl⟩⟩

theorem witness_RdyLowHoldsTheCore :
    let s : State := { start with pins := { Pins.inactive with rdyLow := true }, resetDue := true }
    (sample s).pins.resLow = false ∧ (sample s).rdyHolds = true ∧ (sample s).edges = .quiet := ⟨rfl, rfl, rfl⟩

theorem witness_RdyInsideAStepOnlyCostsTime :
    let inp : Inputs := ⟨.inactive, .quiet, [], [⟨3, []⟩]⟩
    let s : State := { vec [0xEA] [] with script := [inp] }
    (sample s).gaps = ⟨3, []⟩ :: [] ∧ s.cfg.member.hasRdy = true ∧
    s.script = inp :: [] ∧ inp.edges = .quiet ∧ (∀ gap ∈ inp.gaps, gap.dma = []) ∧
    s.cfg.runnable ∧ (∀ a, s.isMemory a) ∧ s.p.d = false ∧
    (∃ t, step { s with script := [{ inp with gaps := [] }] } = .next t) :=
  ⟨rfl, rfl, rfl, rfl, by decide, runnable_default, fun a => isMemory_default a _ rfl, rfl, ⟨_, rfl⟩⟩

theorem witness_ResLowStopsTheCore : (sample { inReset with script := [] }).pins.resLow = true := rfl

theorem witness_ResetSequenceStartsAtTheVector :
    (sample inReset).cfg.runnable ∧ inReset.pins.resLow = true ∧ (sample inReset).pins.resLow = false ∧
    (sample inReset).rdyHolds = false ∧ (sample inReset).edges = .quiet ∧ (sample inReset).alone ∧
    (sample inReset).gaps = [] ∧ (sample inReset).isMemory 0xFFFC ∧ (sample inReset).isMemory 0xFFFD :=
  ⟨runnable_default, rfl, rfl, rfl, rfl, alone_of_noGaps _ rfl, rfl, .inl rfl, .inl rfl⟩

/-- RES falls inside a store. -/
theorem witness_ResetAbandonsAnInstruction :
    let s : State := { vec [0x85, 0x20] [] with a := 0x42, script := [⟨.inactive, ⟨false, false, true⟩, [], []⟩] }
    eventOf (sample s) = .instruction ∧ (sample s).edges.res = true ∧ (sample s).alone ∧
    (∃ s2 u, fetch { sample s with heldI := none } = .ok (.staZp 0x20, s2) ∧
      exec (.staZp 0x20) { s2 with edges := { s2.edges with res := false } } = .next u) :=
  ⟨by decide, rfl, alone_of_noGaps _ rfl, ⟨_, _, rfl, rfl⟩⟩

theorem witness_EveryStepKeepsTheInvariant : start.inv ∧ (∃ t, step (vec [0xEA] []) = .next t) :=
  ⟨⟨rfl, fun _ => rfl, rfl, rfl⟩, ⟨_, rfl⟩⟩

/-- A member without the NMI pin meets the invariant too. -/
theorem witness_Invariant_without_nmi : ({ start with cfg.member := .m6507, cfg.map := [] } : State).inv :=
  ⟨rfl, fun _ => rfl, rfl, rfl⟩

/-- For OnlyTheNamedInstructionsWriteAFlag and OnlyTheNamedInstructionsWriteARegister. -/
theorem witness_OnlyTheNamed :
    start.alone ∧ (∃ t, exec .nop start = .next t) ∧ writesN .nop = false ∧ writesV .nop = false ∧ writesD .nop = false ∧
    writesIFlag .nop = false ∧ writesZ .nop = false ∧ writesC .nop = false ∧ writesA .nop = false ∧
    writesX .nop = false ∧ writesY .nop = false ∧ writesSp .nop = false ∧ writesMemory .nop = false :=
  ⟨steady_start.1, ⟨_, rfl⟩, rfl, rfl, rfl, rfl, rfl, rfl, rfl, rfl, rfl, rfl, rfl⟩

/-- Another bus master writes while RDY halts the core between the two bytes of a pointer at $00FF and $0000. -/
theorem witness_OtherBusMastersWriteRam :
    let gap : Gap := ⟨1, [(0xFF, 0x78), (0x00, 0x20)]⟩
    let s : State := { start with gaps := [⟨0, []⟩, gap] }
    let inp : Inputs := ⟨.inactive, .quiet, [(0x00, 0x01), (0x10000, 0x02), (0x01, 0x03)], [gap]⟩
    s.gaps = ⟨0, []⟩ :: gap :: [] ∧ s.cfg.member.hasRdy = true ∧ 0 < gap.waits ∧ s.isMemory 0x00FF ∧ s.isMemory 0x0000 ∧
    s.cfg.sharing = .rdyHalts ∧ s.edges.res = false ∧
    ({ s with cfg.sharing := .everyCycle } : State).cfg.sharing = .everyCycle ∧
    ({ start with script := [inp] } : State).script = inp :: [] ∧
    inp.dma = [(0x00, 0x01)] ++ (0x10000, 0x02) :: [(0x01, 0x03)] ∧ 0x10000 % 2 ^ start.cfg.member.addrPins = 0 ∧
    start.cfg.kindAt 0 = .ram ∧ withRom.cfg.kindAt 0x8000 ≠ .ram :=
  ⟨rfl, rfl, by decide, .inl rfl, .inl rfl, rfl, rfl, rfl, rfl, rfl, rfl, rfl, by decide⟩

/-- For EveryInstructionCompletes and CyclesAreThoseOfTheTable. -/
theorem witness_EveryInstructionCompletes :
    start.cfg.runnable ∧ start.gaps = [] ∧ jumpRefused (.jmpInd 0x02FF) start = false ∧
    exec (.jmpInd 0x02FF) (wrapping .refuse) = .refused (.jumpPointerAtPageEnd 0x02FF) :=
  ⟨runnable_default, rfl, rfl, rfl⟩

/-- A device at $D000, touched by a plain load and by an indexed one. -/
abbrev withDevice : State :=
  { start with cfg := { mapped [⟨0, 0xCFFF, .ram⟩, ⟨0xD000, 0xD0FF, .device⟩, ⟨0xD100, 0xFFFF, .ram⟩] with busExact := true } }

theorem witness_BusExactDecidesOnlyTheRefusal :
    ({ withDevice with cfg.busExact := false } : State).cfg.busExact = false ∧
    (∃ t, exec (.ldaAbs 0xD000) withDevice = .next t) ∧ (∃ t, exec (.ldaAbx 0xD0FF) withDevice = .next t) ∧
    exec (.ldaAbx 0xD0FF) { withDevice with cfg.busExact := false } = .refused .deviceNeedsBusExact :=
  ⟨rfl, ⟨_, rfl⟩, ⟨_, rfl⟩, rfl⟩

end Sys2Proof.Machine
end

section
/-!
The invariant of the machine is kept by every step. What holds in the middle of a step is `Preserves`: the configuration,
the canonical form of memory, the NMI latch. It composes, so each sequence, each form of a meaning and each event has one
lemma. The rest of the invariant, no edge and no gap left over, holds only at the end of a step: `KeepsInv`.
-/

namespace Sys2Proof.Machine

/-! ## What every part of a step keeps -/

/-- Between `s` and `t`, two moments of one step, the configuration is the same, memory stays in canonical form, and the NMI
latch of a member without the pin stays 0 (R3, R25, R52). -/
structure Preserves (s t : State) : Prop where
  cfg : t.cfg = s.cfg
  wf : s.mem.wf = true → t.mem.wf = true
  latch : s.cfg.member.hasNmi = false → s.nmiPending = false → t.nmiPending = false

namespace Preserves

theorem refl (s : State) : Preserves s s := ⟨rfl, id, fun _ => id⟩

theorem trans {s t u : State} (h : Preserves s t) (k : Preserves t u) : Preserves s u :=
  ⟨k.cfg.trans h.cfg, fun hw => k.wf (h.wf hw), fun hn hp => k.latch (by rw [h.cfg]; exact hn) (h.latch hn hp)⟩

/-- A change of the other fields is free. -/
theorem of_eq {s t : State} (hc : t.cfg = s.cfg) (hm : t.mem = s.mem) (hp : t.nmiPending = s.nmiPending) :
    Preserves s t :=
  ⟨hc, fun hw => by rw [hm]; exact hw, fun _ h => by rw [hp]; exact h⟩

end Preserves

theorem Elapsed.preserves {s t : State} (h : Elapsed s t) : Preserves s t := by
  obtain ⟨m, c, b, g, rfl, -, -, hw⟩ := h
  exact ⟨rfl, hw, fun _ => id⟩

theorem push_preserves (v : Byte) (s : State) : Preserves s (push v s) := by
  obtain ⟨m, b, g, he, -, hw⟩ := push_state v s
  rw [he]
  exact ⟨rfl, hw, fun _ => id⟩

theorem pull_preserves (s : State) : Preserves s (pull s).2 :=
  .trans (t := { s with sp := s.sp + 1 }) (.of_eq rfl rfl rfl) (pull_elapsed s).preserves

theorem pullA_preserves (s : State) : Preserves s (pullA s) :=
  (pull_preserves s).trans (.of_eq rfl rfl rfl)

theorem pullP_preserves (s : State) : Preserves s (pullP s) :=
  (pull_preserves s).trans (.of_eq rfl rfl rfl)

/-! ## The instructions -/

/-- A reading instruction's effect is on registers and flags (R24). -/
theorem readEffect_preserves {mn : Mnemonic} {e : Byte → State → State} (he : readEffect mn = some e) (v : Byte)
    (s : State) : Preserves s (e v s) := by
  cases mn with
  | lda | ldx | ldy | adc | sbc | cmp | cpx | cpy | and | eor | ora | bit =>
    cases he
    exact .of_eq rfl rfl rfl
  | _ => cases he

/-- A one-byte instruction's effect is on registers and flags, but for the pushes and pulls. -/
theorem impliedEffect_preserves {mn : Mnemonic} {e : State → State} (he : impliedEffect mn = some e) (s : State) :
    Preserves s (e s) := by
  cases mn with
  | pha | php =>
    cases he
    exact push_preserves _ s
  | pla =>
    cases he
    exact (discard_elapsed _ s).preserves.trans (pullA_preserves _)
  | plp =>
    cases he
    exact (discard_elapsed _ s).preserves.trans (pullP_preserves _)
  | tax | tay | tsx | txa | txs | tya | dex | dey | inx | iny | clc | cld | cli | clv | sec | sed | sei | nop =>
    cases he
    exact .of_eq rfl rfl rfl
  | _ => cases he

theorem impliedInstr_preserves {s t : State} {e : State → State} (h : impliedInstr e s = .next t)
    (he : ∀ u, Preserves u (e u)) : Preserves s t := by
  obtain ⟨u, hu, rfl⟩ := impliedInstr_reaches s t e h
  exact (hu.preserves.trans (he u)).trans (.of_eq rfl rfl rfl)

/-- Every instruction's meaning, by its form. -/
theorem exec_preserves {i : Instr} {s t : State} (h : exec i s = .next t) : Preserves s t := by
  cases exec_cases i with
  | reads src e hs he hx =>
    rw [hx] at h
    obtain ⟨u, hu, rfl⟩ := readInstr_reaches s t src e h
    exact (hu.preserves.trans (readEffect_preserves he _ u)).trans (.of_eq rfl rfl rfl)
  | stores m v ho hv hx =>
    rw [hx] at h
    obtain ⟨mem, c, b, g, rfl, -, hw⟩ := storeInstr_reaches s t m (v s) h
    exact ⟨rfl, hw, fun _ => id⟩
  | modifies m f ho hf hx =>
    rw [hx] at h
    obtain ⟨mem, c, b, g, rfl, -, hw⟩ := rmwInstr_reaches s t m f h
    exact ⟨rfl, hw, fun _ => id⟩
  | accumulator f ho hf hx =>
    rw [hx, accumulatorInstr] at h
    exact impliedInstr_preserves h (fun _ => .of_eq rfl rfl rfl)
  | implied e ho he hx =>
    rw [hx] at h
    exact impliedInstr_preserves h (impliedEffect_preserves he)
  | branches off taken ho ht hx =>
    rw [hx] at h
    obtain ⟨u, hu, rfl⟩ := branchInstr_reaches s t (taken s.p) off h
    exact hu.preserves.trans (.of_eq rfl rfl rfl)
  | jumps addr hi =>
    subst hi
    rw [finish_next _ t h]
    exact .of_eq rfl rfl rfl
  | jumpsIndirect ptr hi =>
    subst hi
    obtain ⟨u, pc, hu, rfl⟩ := execJmpInd_reaches s t ptr h
    exact hu.preserves.trans (.of_eq rfl rfl rfl)
  | calls addr hi =>
    subst hi
    obtain ⟨m, c, b, g, pc, rfl, -, hw⟩ := execJsr_reaches s t addr h
    exact ⟨rfl, hw, fun _ => id⟩
  | returns hi =>
    subst hi
    obtain ⟨u, pc, ⟨m, c, b, g, rfl, -, -, hw⟩, rfl⟩ := execRts_reaches s t h
    exact ⟨rfl, hw, fun _ => id⟩
  | breaks hi =>
    subst hi
    obtain ⟨pc, pending, e, pins, m, c, b, g, rfl, -, -, -, hw, hp⟩ := execBrk_reaches s t h
    exact ⟨rfl, hw, fun hn h0 => (hp hn).trans h0⟩
  | returnsFromInterrupt hi =>
    subst hi
    obtain ⟨u, p, pc, ⟨m, c, b, g, rfl, -, -, hw⟩, rfl⟩ := execRti_reaches s t h
    exact ⟨rfl, hw, fun _ => id⟩

/-! ## The sequences -/

theorem takeNmi_preserves (s : State) : Preserves s (takeNmi s) := by
  obtain ⟨pc, m, c, b, g, he, -, hw⟩ := takeNmi_state s
  rw [he]
  exact ⟨rfl, hw, fun _ _ => rfl⟩

theorem takeIrq_preserves (s : State) : Preserves s (takeIrq s) := by
  obtain ⟨pc, pending, e, pins, m, c, b, g, he, -, -, -, hw, hp⟩ := takeIrq_state s
  rw [he]
  exact ⟨rfl, hw, fun hn h0 => (hp hn).trans h0⟩

/-- The latch after a reset sequence is set only by an edge on the pin (R25, log 31). -/
theorem resetRegisters_preserves (s : State) : Preserves s (resetRegisters s s) :=
  ⟨rfl, id, fun hn _ => by simp [resetRegisters, hn]⟩

theorem resetSequence_preserves (s : State) : Preserves s (resetSequence s) := by
  obtain ⟨pc, u, he, hu, -⟩ := resetSequence_state s
  rw [he]
  exact ((resetRegisters_preserves s).trans hu.preserves).trans (.of_eq rfl rfl rfl)

theorem hold_preserves (s : State) : Preserves s (hold s) := (tick_elapsed s _).preserves

/-- The environment's move: other masters write canonically, and only a member with the pin hears an NMI edge. -/
theorem sample_preserves (s : State) : Preserves s (sample s) :=
  ⟨sample_cfg s, wf_sample s, fun hn h0 => (sample_nmiPending s hn).trans h0⟩

theorem settle_preserves (w : Bool) (s : State) : Preserves s (settle w s) :=
  ⟨rfl, id, fun hn h0 => by simp [hn, h0]⟩

/-! ## The end of a step -/

/-- `t` comes after a whole step from `s`: nothing of the step's edges and gaps is left. -/
structure KeepsInv (s t : State) : Prop extends Preserves s t where
  edges : t.edges = .quiet
  gaps : t.gaps = []

theorem KeepsInv.inv {s t : State} (h : KeepsInv s t) (hs : s.inv) : t.inv := by
  obtain ⟨hw, hlatch, -, -⟩ := hs
  refine ⟨h.wf hw, fun hn => ?_, h.edges, h.gaps⟩
  rw [h.cfg] at hn
  exact h.latch hn (hlatch hn)

theorem Preserves.keepsInv {s t u : State} (h : Preserves s t) (k : KeepsInv t u) : KeepsInv s u :=
  ⟨h.trans k.toPreserves, k.edges, k.gaps⟩

theorem idle_keepsInv (s : State) : KeepsInv s (idle s) := ⟨.of_eq rfl rfl rfl, rfl, rfl⟩

/-- Settling ends a step, whatever part of it came before. -/
theorem settleResult_keepsInv {w : Bool} {r : Result} {s t : State} (hr : ∀ u, r = .next u → Preserves s u)
    (h : settleResult w r = .next t) : KeepsInv s t := by
  obtain ⟨u, hu, rfl⟩ := settleResult_next w r t h
  exact (hr u hu).keepsInv ⟨settle_preserves w u, settle_edges w u, settle_gaps w u⟩

theorem settleFinish_keepsInv {s t u : State} (hu : Preserves s u)
    (h : settleResult false (finish u) = .next t) : KeepsInv s t :=
  settleResult_keepsInv (fun v hv => by rw [finish_next u v hv]; exact hu) h

theorem runInstruction_keepsInv {s t : State} (h : runInstruction s = .next t) : KeepsInv s t := by
  cases hf : fetch { s with heldI := none } with
  | error why =>
    simp only [runInstruction, hf] at h
    cases h
  | ok r =>
    obtain ⟨i, s1⟩ := r
    rw [runInstruction_of_fetch s i s1 hf] at h
    have hdrop : Preserves s { s with heldI := none } := .of_eq rfl rfl rfl
    have hfetch : Preserves s s1 := hdrop.trans (fetch_elapsed _ i s1 hf).preserves
    exact settleResult_keepsInv (fun u hu => hfetch.trans (exec_preserves hu)) h

/-- Every step that answers, by the event at its boundary (R237). -/
theorem step_keepsInv {s t : State} (h : step s = .next t) : KeepsInv s t := by
  refine (sample_preserves s).keepsInv ?_
  cases he : eventOf (sample s) with
  | inReset =>
    rw [step_inReset s he] at h
    cases h
    exact idle_keepsInv _
  | held =>
    rw [step_held s he] at h
    refine settleResult_keepsInv (fun u hu => ?_) h
    cases hu
    exact hold_preserves _
  | reset =>
    rw [step_reset s he] at h
    exact settleFinish_keepsInv (resetSequence_preserves _) h
  | nmi =>
    rw [step_nmi s he] at h
    exact settleFinish_keepsInv (takeNmi_preserves _) h
  | irq =>
    rw [step_irq s he] at h
    exact settleFinish_keepsInv (takeIrq_preserves _) h
  | instruction =>
    rw [step_instruction s he] at h
    exact runInstruction_keepsInv h

/-- Settles O53: the parts of a step compose, and the end of the step leaves no edge and no gap. -/
theorem everyStepKeepsTheInvariant : Obligations.EveryStepKeepsTheInvariant := by
  intro s t h
  exact ⟨(step_keepsInv h).cfg, (step_keepsInv h).inv⟩

end Sys2Proof.Machine
end

section
/-!
The stack instructions, the two levels that stop the core (RDY and RES), and the state right after reset.
-/

namespace Sys2Proof.Machine

/-! ## Cycles that pass in a step of the core's own -/

theorem Elapsed.mem_eq {s t : State} (h : Elapsed s t) (ha : s.alone) : t.mem = s.mem := by
  obtain ⟨c, b, g, rfl, -⟩ := h.state ha
  rfl

/-! ## Pushes -/

/-- The status byte of PHP and BRK, bit by bit (R18). -/
theorem Flags.toByte_true (p : Flags) :
    p.toByte true = BitVec.ofNat 8 ((if p.n then 1 else 0) * 128 + (if p.v then 1 else 0) * 64 + 32 + 16 +
      (if p.d then 1 else 0) * 8 + (if p.i then 1 else 0) * 4 + (if p.z then 1 else 0) * 2 + (if p.c then 1 else 0)) := rfl

/-- The stack page begins at $0100 (R15). -/
theorem toNat_stackAddr (sp : Byte) : (stackAddr sp).toNat = 256 + sp.toNat := by
  have h := sp.isLt
  have h1 : (1 : Byte).toNat = 1 := rfl
  rw [stackAddr, toNat_word, h1]

/-- A one-byte instruction that pushes a byte of the registers writes that byte at $0100 + S and lowers S (R15). -/
theorem impliedInstr_push (s : State) (h : s.cfg.runnable) (f : State → Byte) (hf : ∀ a, f (discard a s) = f s) :
    ∃ u, impliedInstr (fun s1 => push (f s1) s1) s = .next u ∧
      u = { s with sp := s.sp - 1, pc := s.pc + 1, mem := u.mem, clock := u.clock, bus := u.bus, gaps := u.gaps } ∧
      (s.steady → PushedOnto s u [f s]) := by
  refine ⟨_, impliedInstr_next s h _ (fun t => push_cfg (f t) t), ?_, fun hs => ?_⟩
  · obtain ⟨m, b, g, he, -⟩ := push_state (f (discard (s.pc + 1) s)) (discard (s.pc + 1) s)
    obtain ⟨_, _, _, _, hd, -⟩ := discard_elapsed (s.pc + 1) s
    rw [he, hd]
    rfl
  · have hp := push_elapsed (discard_elapsed (s.pc + 1) s) hs (f s)
    refine pushedOnto_memAfterPushes [f s] (by simp) s _ hs.2 rfl ?_
    rw [advance_mem, hf, hp.mem_eq hs.1]
    rfl

/-- Settles O34: both are a push of a byte that the cycle before it leaves alone. -/
theorem pushesWriteTheStackPage : Obligations.PushesWriteTheStackPage := by
  intro s h
  refine ⟨toNat_stackAddr s.sp, impliedInstr_push s h (fun s1 => s1.a) (fun _ => rfl), ?_⟩
  dsimp only
  rw [← Flags.toByte_true]
  exact impliedInstr_push s h (fun s1 => s1.p.toByte true) (fun _ => rfl)

/-! ## Pulls -/

/-- N is bit 7, and 128 its weight (R20). -/
theorem Flags.setNZ_eq_ofResult (p : Flags) (v : Byte) : p.setNZ v = p.ofResult v := by
  have hn : v.getLsbD 7 = decide (128 ≤ v.toNat) := by
    rw [show (128 : Nat) = 2 ^ (8 - 1) from rfl, ← BitVec.msb_eq_decide]
    rfl
  have hz : decide (v = 0) = decide (v.toNat = 0) := by
    rw [decide_eq_decide]
    exact ⟨fun h => by rw [h]; rfl, fun h => BitVec.eq_of_toNat_eq h⟩
  rw [Flags.setNZ, Flags.ofResult, hn, hz]

theorem pullA_eq (u : State) :
    pullA u = { (pull u).2 with a := (pull u).1, p := (pull u).2.p.setNZ (pull u).1 } := rfl

theorem pullP_eq (u : State) :
    pullP u = { (pull u).2 with p := Flags.ofByte (pull u).1, heldI := some u.p.i } := rfl

/-- The state in which PLA and PLP pull: two discarded reads have passed (R293). -/
theorem beforePull_elapsed (s : State) : Elapsed s (discard (stackAddr s.sp) (discard (s.pc + 1) s)) :=
  (discard_elapsed _ s).trans (discard_elapsed _ _)

/-- PLA after cycles that pass: the byte at $0100 + S, S being one higher already (R202). -/
theorem pullA_elapsed {s u : State} (h : Elapsed s u) (ha : s.alone) (hm : s.isMemory (stackAddr (s.sp + 1))) :
    let v := s.memByte (stackAddr (s.sp + 1))
    Elapsed { s with a := v, p := s.p.ofResult v, sp := s.sp + 1 } (pullA u) := by
  have hv := pull_memory h ha hm
  obtain ⟨m, c, b, g, he, hg, hmem, hw⟩ := h.pull
  refine ⟨m, c, b, g, ?_, hg, hmem, hw⟩
  rw [pullA_eq, hv, he, Flags.setNZ_eq_ofResult]

/-- PLP after cycles that pass (R203). -/
theorem pullP_elapsed {s u : State} (h : Elapsed s u) (ha : s.alone) (hm : s.isMemory (stackAddr (s.sp + 1))) :
    Elapsed { s with p := Flags.ofByte (s.memByte (stackAddr (s.sp + 1))), heldI := some s.p.i, sp := s.sp + 1 }
      (pullP u) := by
  have hv := pull_memory h ha hm
  have hp : u.p = s.p := by
    obtain ⟨_, _, _, _, rfl, -⟩ := h
    rfl
  obtain ⟨m, c, b, g, he, hg, hmem, hw⟩ := h.pull
  refine ⟨m, c, b, g, ?_, hg, hmem, hw⟩
  rw [pullP_eq, hv, hp, he]

/-- Settles O35: two reads pass, the pull answers memory's byte, and PC moves on. -/
theorem pullsReadTheStackPage : Obligations.PullsReadTheStackPage := by
  intro s h ha hm
  have hb := beforePull_elapsed s
  have hA := impliedInstr_next s h _ (fun t => (impliedEffect_preserves (mn := .pla) rfl t).cfg)
  have hP := impliedInstr_next s h _ (fun t => (impliedEffect_preserves (mn := .plp) rfl t).cfg)
  exact ⟨((pullA_elapsed hb ha hm).advance 1).answers hA, ((pullP_elapsed hb ha hm).advance 1).answers hP⟩

/-! ## The levels that stop the core -/

theorem eventOf_resLow (s : State) (h : s.pins.resLow = true) : eventOf s = .inReset := by
  simp [eventOf, h]

theorem eventOf_rdyHolds (s : State) (hr : s.pins.resLow = false) (h : s.rdyHolds = true) : eventOf s = .held := by
  simp [eventOf, hr, h]

/-- Settles O47: the held cycle moves the model's own fields, and without an edge nothing is settled. -/
theorem rdyLowHoldsTheCore : Obligations.RdyLowHoldsTheCore := by
  intro s s1 hres hrdy hquiet
  rw [step_held s (eventOf_rdyHolds s1 hres hrdy)]
  exact ⟨_, _, congrArg Host.Outcome.next (settle_quiet false (hold s1) hquiet)⟩

/-- Settles O49: the step is one clock cycle and the environment's move before it. -/
theorem resLowStopsTheCore : Obligations.ResLowStopsTheCore := by
  intro s h
  exact ⟨_, step_inReset s (eventOf_resLow _ h)⟩

/-! ## The state right after reset -/

/-- Settles O51: memory that nothing has written gives the reset vector $0000. -/
theorem resetStateHasTheSpecsValues : Obligations.ResetStateHasTheSpecsValues :=
  ⟨rfl, rfl, rfl⟩

/-- Settles O54: memory lists nothing, and nothing is pending. -/
theorem resetMeetsTheInvariant : Obligations.ResetMeetsTheInvariant :=
  ⟨wf_reset, fun _ => rfl, rfl, rfl⟩

end Sys2Proof.Machine
end

section
/-!
Who writes what: the flags an instruction leaves alone (R24), and the registers, memory and lines it leaves alone (R10, R246).
Each form of a meaning has its own small lemma; `exec_cases` puts them together.
-/

namespace Sys2Proof.Machine

/-! ## Flags -/

/-- Every flag that the row of `mn` in R24 leaves alone is in `q` what it is in `p`. -/
structure KeepsFlags (mn : Mnemonic) (p q : Flags) : Prop where
  n : writesN mn = false → q.n = p.n
  v : writesV mn = false → q.v = p.v
  d : writesD mn = false → q.d = p.d
  i : writesIFlag mn = false → q.i = p.i
  z : writesZ mn = false → q.z = p.z
  c : writesC mn = false → q.c = p.c

theorem KeepsFlags.of_eq {mn : Mnemonic} {p q : Flags} (h : q = p) : KeepsFlags mn p q := by
  subst h
  exact ⟨fun _ => rfl, fun _ => rfl, fun _ => rfl, fun _ => rfl, fun _ => rfl, fun _ => rfl⟩

/-- Flag by flag, N and Z together: either the row names it or it is kept. -/
theorem KeepsFlags.of {mn : Mnemonic} {p q : Flags} (hnz : writesN mn = true ∨ q.n = p.n ∧ q.z = p.z)
    (hv : writesV mn = true ∨ q.v = p.v) (hd : writesD mn = true ∨ q.d = p.d)
    (hi : writesIFlag mn = true ∨ q.i = p.i) (hc : writesC mn = true ∨ q.c = p.c) : KeepsFlags mn p q where
  n h := (hnz.resolve_left (Bool.eq_false_iff.mp h)).1
  v h := hv.resolve_left (Bool.eq_false_iff.mp h)
  d h := hd.resolve_left (Bool.eq_false_iff.mp h)
  i h := hi.resolve_left (Bool.eq_false_iff.mp h)
  z h := (hnz.resolve_left (Bool.eq_false_iff.mp h)).2
  c h := hc.resolve_left (Bool.eq_false_iff.mp h)

/-- ADC never writes D or I, in binary or in decimal (R121, R122). -/
theorem adc_keeps_d_i (cfg : Config) (clock : Nat) (a m : Byte) (p : Flags) :
    (adc cfg clock a m p).2.d = p.d ∧ (adc cfg clock a m p).2.i = p.i := by
  unfold adc
  split
  · split
    · unfold adcDecimalDraw
      split <;> exact ⟨rfl, rfl⟩
    · exact ⟨rfl, rfl⟩
  · exact ⟨rfl, rfl⟩

/-- SBC never writes D or I, in binary or in decimal (R124, R125). -/
theorem sbc_keeps_d_i (cfg : Config) (clock : Nat) (a m : Byte) (p : Flags) :
    (sbc cfg clock a m p).2.d = p.d ∧ (sbc cfg clock a m p).2.i = p.i := by
  unfold sbc
  split
  · split
    · unfold sbcDecimalDraw
      split <;> exact ⟨rfl, rfl⟩
    · exact ⟨rfl, rfl⟩
  · exact ⟨rfl, rfl⟩

theorem readEffect_keepsFlags {mn : Mnemonic} {e : Byte → State → State} (he : readEffect mn = some e) (v : Byte)
    (s : State) : KeepsFlags mn s.p (e v s).p := by
  cases mn with
  | lda | ldx | ldy | and | eor | ora =>
    cases he
    exact .of (.inl rfl) (.inr rfl) (.inr rfl) (.inr rfl) (.inr rfl)
  | adc =>
    cases he
    obtain ⟨hd, hi⟩ := adc_keeps_d_i s.cfg s.clock s.a v s.p
    exact .of (.inl rfl) (.inl rfl) (.inr hd) (.inr hi) (.inl rfl)
  | sbc =>
    cases he
    obtain ⟨hd, hi⟩ := sbc_keeps_d_i s.cfg s.clock s.a v s.p
    exact .of (.inl rfl) (.inl rfl) (.inr hd) (.inr hi) (.inl rfl)
  | cmp | cpx | cpy =>
    cases he
    exact .of (.inl rfl) (.inr rfl) (.inr rfl) (.inr rfl) (.inl rfl)
  | bit =>
    cases he
    exact .of (.inl rfl) (.inl rfl) (.inr rfl) (.inr rfl) (.inr rfl)
  | _ => cases he

theorem rmwEffect_keepsFlags {mn : Mnemonic} {f : Byte → Flags → ByteAndFlags} (hf : rmwEffect mn = some f) (v : Byte)
    (p : Flags) : KeepsFlags mn p (f v p).2 := by
  cases mn with
  | inc | dec =>
    cases hf
    exact .of (.inl rfl) (.inr rfl) (.inr rfl) (.inr rfl) (.inr rfl)
  | asl | lsr | rol | ror =>
    cases hf
    exact .of (.inl rfl) (.inr rfl) (.inr rfl) (.inr rfl) (.inl rfl)
  | _ => cases hf

theorem impliedEffect_keepsFlags {mn : Mnemonic} {e : State → State} (he : impliedEffect mn = some e) (s : State) :
    KeepsFlags mn s.p (e s).p := by
  cases mn with
  | tax | tay | tsx | txa | tya | dex | dey | inx | iny | pla =>
    cases he
    exact .of (.inl rfl) (.inr rfl) (.inr rfl) (.inr rfl) (.inr rfl)
  | clc | sec =>
    cases he
    exact .of (.inr ⟨rfl, rfl⟩) (.inr rfl) (.inr rfl) (.inr rfl) (.inl rfl)
  | cld | sed =>
    cases he
    exact .of (.inr ⟨rfl, rfl⟩) (.inr rfl) (.inl rfl) (.inr rfl) (.inr rfl)
  | cli | sei =>
    cases he
    exact .of (.inr ⟨rfl, rfl⟩) (.inr rfl) (.inr rfl) (.inl rfl) (.inr rfl)
  | clv =>
    cases he
    exact .of (.inr ⟨rfl, rfl⟩) (.inl rfl) (.inr rfl) (.inr rfl) (.inr rfl)
  | plp =>
    cases he
    exact .of (.inl rfl) (.inl rfl) (.inl rfl) (.inl rfl) (.inl rfl)
  | txs | nop | pha | php =>
    cases he
    exact .of_eq rfl
  | _ => cases he

/-! ## Registers, memory and lines -/

/-- What no instruction but BRK touches: the configuration, what the environment will do, whether a reset is due, the NMI
latch, the lines and the edges of the step. -/
structure SameSurroundings (s t : State) : Prop where
  cfg : t.cfg = s.cfg
  script : t.script = s.script
  resetDue : t.resetDue = s.resetDue
  nmiPending : t.nmiPending = s.nmiPending
  pins : t.pins = s.pins
  edges : t.edges = s.edges

theorem SameSurroundings.trans {s t u : State} (h : SameSurroundings s t) (k : SameSurroundings t u) :
    SameSurroundings s u :=
  ⟨k.cfg.trans h.cfg, k.script.trans h.script, k.resetDue.trans h.resetDue, k.nmiPending.trans h.nmiPending,
    k.pins.trans h.pins, k.edges.trans h.edges⟩

theorem Elapsed.sameSurroundings {s t : State} (h : Elapsed s t) : SameSurroundings s t := by
  obtain ⟨_, _, _, _, rfl, -⟩ := h
  exact ⟨rfl, rfl, rfl, rfl, rfl, rfl⟩

/-- Between `s` and `t` the registers and memory change only where the column "written by" of R10 names `i`; memory, where no
other bus master writes (R54). -/
structure WritesOnlyNamed (i : Instr) (s t : State) : Prop where
  a : writesA i = false → t.a = s.a
  x : writesX i.mnemonic = false → t.x = s.x
  y : writesY i.mnemonic = false → t.y = s.y
  sp : writesSp i.mnemonic = false → t.sp = s.sp
  mem : writesMemory i = false → s.alone → t.mem = s.mem

/-- Register by register: either the column names `i` or the register is kept. -/
theorem WritesOnlyNamed.of {i : Instr} {s t : State} (ha : writesA i = true ∨ t.a = s.a)
    (hx : writesX i.mnemonic = true ∨ t.x = s.x) (hy : writesY i.mnemonic = true ∨ t.y = s.y)
    (hsp : writesSp i.mnemonic = true ∨ t.sp = s.sp)
    (hm : writesMemory i = true ∨ (s.alone → t.mem = s.mem)) : WritesOnlyNamed i s t where
  a h := ha.resolve_left (Bool.eq_false_iff.mp h)
  x h := hx.resolve_left (Bool.eq_false_iff.mp h)
  y h := hy.resolve_left (Bool.eq_false_iff.mp h)
  sp h := hsp.resolve_left (Bool.eq_false_iff.mp h)
  mem h := hm.resolve_left (Bool.eq_false_iff.mp h)

/-- Cycles that pass before an effect do not count. -/
theorem Elapsed.writesOnlyNamed {i : Instr} {s u t : State} (h : Elapsed s u) (k : WritesOnlyNamed i u t) :
    WritesOnlyNamed i s t := by
  have hmem := h.mem_eq
  have halone := h.alone
  obtain ⟨_, _, _, _, rfl, -⟩ := h
  exact ⟨k.a, k.x, k.y, k.sp, fun hw ha => (k.mem hw (halone ha)).trans (hmem ha)⟩

/-- What `writesA` says of an instruction whose mnemonic names A in every mode. -/
theorem writesA_of_mnemonic {i : Instr}
    (h : i.mnemonic ∈ [Mnemonic.adc, .and, .eor, .lda, .ora, .pla, .sbc, .txa, .tya]) : writesA i = true := by
  rw [writesA, decide_eq_true h, Bool.true_or]

theorem readEffect_writesOnlyNamed {i : Instr} {e : Byte → State → State} (he : readEffect i.mnemonic = some e)
    (v : Byte) (s : State) : WritesOnlyNamed i s (e v s) := by
  cases hm : i.mnemonic with
  | lda | adc | sbc | and | eor | ora =>
    rw [hm] at he
    cases he
    exact .of (.inl (writesA_of_mnemonic (by rw [hm]; decide))) (.inr rfl) (.inr rfl) (.inr rfl) (.inr fun _ => rfl)
  | ldx =>
    rw [hm] at he
    cases he
    exact .of (.inr rfl) (.inl (by rw [hm]; rfl)) (.inr rfl) (.inr rfl) (.inr fun _ => rfl)
  | ldy =>
    rw [hm] at he
    cases he
    exact .of (.inr rfl) (.inr rfl) (.inl (by rw [hm]; rfl)) (.inr rfl) (.inr fun _ => rfl)
  | cmp | cpx | cpy | bit =>
    rw [hm] at he
    cases he
    exact .of (.inr rfl) (.inr rfl) (.inr rfl) (.inr rfl) (.inr fun _ => rfl)
  | _ =>
    rw [hm] at he
    cases he

theorem readEffect_sameSurroundings {mn : Mnemonic} {e : Byte → State → State} (he : readEffect mn = some e)
    (v : Byte) (s : State) : SameSurroundings s (e v s) := by
  cases mn with
  | lda | ldx | ldy | adc | sbc | cmp | cpx | cpy | and | eor | ora | bit =>
    cases he
    exact ⟨rfl, rfl, rfl, rfl, rfl, rfl⟩
  | _ => cases he

/-- What `writesMemory` says of a store or a push. -/
theorem writesMemory_of_mnemonic {i : Instr}
    (h : i.mnemonic ∈ [Mnemonic.sta, .stx, .sty, .inc, .dec, .pha, .php, .jsr, .brk]) : writesMemory i = true := by
  rw [writesMemory, decide_eq_true h, Bool.true_or]

theorem storedByte_writesMemory {i : Instr} {v : State → Byte} (hv : storedByte i.mnemonic = some v) :
    writesMemory i = true := by
  apply writesMemory_of_mnemonic
  cases hm : i.mnemonic with
  | sta | stx | sty => decide
  | _ =>
    rw [hm] at hv
    cases hv

/-- A read-modify-write instruction writes memory in every mode but the accumulator's. -/
theorem rmwEffect_writesMemory {i : Instr} {f : Byte → Flags → ByteAndFlags} {m : Addr}
    (hf : rmwEffect i.mnemonic = some f) (ho : i.operand = .memory m) : writesMemory i = true := by
  cases hm : i.mnemonic with
  | inc | dec => exact writesMemory_of_mnemonic (by rw [hm]; decide)
  | asl | lsr | rol | ror => simp [writesMemory, hm, ho]
  | _ =>
    rw [hm] at hf
    cases hf

/-- INC and DEC have no accumulator mode, so a read-modify-write instruction in that mode is named as writing A. -/
theorem rmwEffect_writesA {i : Instr} {f : Byte → Flags → ByteAndFlags} (hf : rmwEffect i.mnemonic = some f)
    (ho : i.operand = .accumulator) : writesA i = true := by
  cases i with
  | aslAcc | lsrAcc | rolAcc | rorAcc => rfl
  | _ => cases ho

/-- A pull raises S and keeps the rest of the core; memory too, in a step of the core's own. -/
theorem pull_mem_eq (s : State) (ha : s.alone) : (pull s).2.mem = s.mem := (pull_elapsed s).mem_eq ha

theorem impliedEffect_writesOnlyNamed {i : Instr} {e : State → State} (he : impliedEffect i.mnemonic = some e)
    (s : State) : WritesOnlyNamed i s (e s) := by
  cases hm : i.mnemonic with
  | txa | tya =>
    rw [hm] at he
    cases he
    exact .of (.inl (writesA_of_mnemonic (by rw [hm]; decide))) (.inr rfl) (.inr rfl) (.inr rfl) (.inr fun _ => rfl)
  | tax | tsx | dex | inx =>
    rw [hm] at he
    cases he
    exact .of (.inr rfl) (.inl (by rw [hm]; rfl)) (.inr rfl) (.inr rfl) (.inr fun _ => rfl)
  | tay | dey | iny =>
    rw [hm] at he
    cases he
    exact .of (.inr rfl) (.inr rfl) (.inl (by rw [hm]; rfl)) (.inr rfl) (.inr fun _ => rfl)
  | txs =>
    rw [hm] at he
    cases he
    exact .of (.inr rfl) (.inr rfl) (.inr rfl) (.inl (by rw [hm]; rfl)) (.inr fun _ => rfl)
  | clc | cld | cli | clv | sec | sed | sei | nop =>
    rw [hm] at he
    cases he
    exact .of (.inr rfl) (.inr rfl) (.inr rfl) (.inr rfl) (.inr fun _ => rfl)
  | pha | php =>
    rw [hm] at he
    cases he
    exact .of (.inr rfl) (.inr rfl) (.inr rfl) (.inl (by rw [hm]; rfl))
      (.inl (writesMemory_of_mnemonic (by rw [hm]; decide)))
  | pla =>
    rw [hm] at he
    cases he
    exact (discard_elapsed _ s).writesOnlyNamed (.of (.inl (writesA_of_mnemonic (by rw [hm]; decide))) (.inr rfl)
      (.inr rfl) (.inl (by rw [hm]; rfl)) (.inr (pull_mem_eq _)))
  | plp =>
    rw [hm] at he
    cases he
    exact (discard_elapsed _ s).writesOnlyNamed (.of (.inr rfl) (.inr rfl) (.inr rfl) (.inl (by rw [hm]; rfl))
      (.inr (pull_mem_eq _)))
  | _ =>
    rw [hm] at he
    cases he

theorem impliedEffect_sameSurroundings {mn : Mnemonic} {e : State → State} (he : impliedEffect mn = some e)
    (s : State) : SameSurroundings s (e s) := by
  cases mn with
  | tax | tay | tsx | txa | txs | tya | dex | dey | inx | iny | clc | cld | cli | clv | sec | sed | sei | nop | pha | php
  | pla | plp =>
    cases he
    exact ⟨rfl, rfl, rfl, rfl, rfl, rfl⟩
  | _ => cases he

/-! ## The forms of a meaning -/

/-- Between `s` and `t` nothing changes but PC, the model's own fields and what the tables name for `i`; and BRK alone may
touch the surroundings (R10, R24, R246). -/
structure ChangesOnlyNamed (i : Instr) (s t : State) : Prop where
  flags : KeepsFlags i.mnemonic s.p t.p
  registers : WritesOnlyNamed i s t
  surroundings : i ≠ .brk → SameSurroundings s t

/-- PC is free: every instruction writes it. -/
theorem ChangesOnlyNamed.withPc {i : Instr} {s t : State} (h : ChangesOnlyNamed i s t) (pc : Word) :
    ChangesOnlyNamed i s { t with pc := pc } := by
  obtain ⟨hf, ⟨ha, hx, hy, hsp, hm⟩, hs⟩ := h
  exact ⟨hf, ⟨ha, hx, hy, hsp, hm⟩, fun hi => (hs hi).trans ⟨rfl, rfl, rfl, rfl, rfl, rfl⟩⟩

/-- Cycles that pass before an effect do not count. -/
theorem Elapsed.changesOnlyNamed {i : Instr} {s u t : State} (h : Elapsed s u) (k : ChangesOnlyNamed i u t) :
    ChangesOnlyNamed i s t := by
  have hs := h.sameSurroundings
  refine ⟨?_, h.writesOnlyNamed k.registers, fun hi => hs.trans (k.surroundings hi)⟩
  obtain ⟨_, _, _, _, rfl, -⟩ := h
  exact k.flags

theorem ChangesOnlyNamed.refl (i : Instr) (s : State) : ChangesOnlyNamed i s s :=
  ⟨.of_eq rfl, .of (.inr rfl) (.inr rfl) (.inr rfl) (.inr rfl) (.inr fun _ => rfl),
    fun _ => ⟨rfl, rfl, rfl, rfl, rfl, rfl⟩⟩

theorem exec_changesOnlyNamed {i : Instr} {s t : State} (h : exec i s = .next t) : ChangesOnlyNamed i s t := by
  cases exec_cases i with
  | reads src e hs he hx =>
    rw [hx] at h
    obtain ⟨u, hu, rfl⟩ := readInstr_reaches s t src e h
    exact (hu.changesOnlyNamed ⟨readEffect_keepsFlags he _ u, readEffect_writesOnlyNamed he _ u,
      fun _ => readEffect_sameSurroundings he _ u⟩).withPc _
  | stores m v ho hv hx =>
    rw [hx] at h
    obtain ⟨_, _, _, _, rfl, -⟩ := storeInstr_reaches s t m (v s) h
    exact ⟨.of_eq rfl, .of (.inr rfl) (.inr rfl) (.inr rfl) (.inr rfl) (.inl (storedByte_writesMemory hv)),
      fun _ => ⟨rfl, rfl, rfl, rfl, rfl, rfl⟩⟩
  | modifies m f ho hf hx =>
    rw [hx] at h
    obtain ⟨_, _, _, _, rfl, -⟩ := rmwInstr_reaches s t m f h
    exact ⟨rmwEffect_keepsFlags hf _ _,
      .of (.inr rfl) (.inr rfl) (.inr rfl) (.inr rfl) (.inl (rmwEffect_writesMemory hf ho)),
      fun _ => ⟨rfl, rfl, rfl, rfl, rfl, rfl⟩⟩
  | accumulator f ho hf hx =>
    rw [hx] at h
    obtain ⟨u, hu, rfl⟩ := impliedInstr_reaches s t _ h
    exact hu.changesOnlyNamed ⟨rmwEffect_keepsFlags hf _ _,
      .of (.inl (rmwEffect_writesA hf ho)) (.inr rfl) (.inr rfl) (.inr rfl) (.inr fun _ => rfl),
      fun _ => ⟨rfl, rfl, rfl, rfl, rfl, rfl⟩⟩
  | implied e ho he hx =>
    rw [hx] at h
    obtain ⟨u, hu, rfl⟩ := impliedInstr_reaches s t e h
    exact (hu.changesOnlyNamed ⟨impliedEffect_keepsFlags he u, impliedEffect_writesOnlyNamed he u,
      fun _ => impliedEffect_sameSurroundings he u⟩).withPc _
  | branches off taken ho ht hx =>
    rw [hx] at h
    obtain ⟨u, hu, rfl⟩ := branchInstr_reaches s t (taken s.p) off h
    exact (hu.changesOnlyNamed (.refl i u)).withPc _
  | jumps addr hi =>
    subst hi
    rw [finish_next _ t h]
    exact (ChangesOnlyNamed.refl _ s).withPc _
  | jumpsIndirect ptr hi =>
    subst hi
    obtain ⟨u, pc, hu, rfl⟩ := execJmpInd_reaches s t ptr h
    exact (hu.changesOnlyNamed (.refl _ u)).withPc _
  | calls addr hi =>
    subst hi
    obtain ⟨_, _, _, _, _, rfl, -⟩ := execJsr_reaches s t addr h
    exact ⟨.of_eq rfl, .of (.inr rfl) (.inr rfl) (.inr rfl) (.inl rfl) (.inl rfl),
      fun _ => ⟨rfl, rfl, rfl, rfl, rfl, rfl⟩⟩
  | returns hi =>
    subst hi
    obtain ⟨u, pc, hu, rfl⟩ := execRts_reaches s t h
    have hmem := hu.mem_eq
    obtain ⟨_, _, _, _, rfl, -⟩ := hu
    exact ⟨.of_eq rfl, .of (.inr rfl) (.inr rfl) (.inr rfl) (.inl rfl) (.inr hmem),
      fun _ => ⟨rfl, rfl, rfl, rfl, rfl, rfl⟩⟩
  | breaks hi =>
    subst hi
    obtain ⟨_, _, _, _, _, _, _, _, rfl, -⟩ := execBrk_reaches s t h
    exact ⟨.of (.inr ⟨rfl, rfl⟩) (.inr rfl) (.inr rfl) (.inl rfl) (.inr rfl),
      .of (.inr rfl) (.inr rfl) (.inr rfl) (.inl rfl) (.inl rfl), fun hne => absurd rfl hne⟩
  | returnsFromInterrupt hi =>
    subst hi
    obtain ⟨u, p, pc, hu, rfl⟩ := execRti_reaches s t h
    have hmem := hu.mem_eq
    obtain ⟨_, _, _, _, rfl, -⟩ := hu
    exact ⟨.of (.inl rfl) (.inl rfl) (.inl rfl) (.inl rfl) (.inl rfl),
      .of (.inr rfl) (.inr rfl) (.inr rfl) (.inl rfl) (.inr hmem), fun _ => ⟨rfl, rfl, rfl, rfl, rfl, rfl⟩⟩

/-- Settles O55: the flags' part of what an instruction changes. -/
theorem onlyTheNamedInstructionsWriteAFlag : Obligations.OnlyTheNamedInstructionsWriteAFlag := by
  intro i s t h
  obtain ⟨hn, hv, hd, hi, hz, hc⟩ := (exec_changesOnlyNamed h).flags
  exact ⟨hn, hv, hd, hi, hz, hc⟩

/-- What no instruction touches, BRK included; of the edges, only the one on NMI is BRK's to serve (R246). -/
theorem exec_keeps_platform {i : Instr} {s t : State} (h : exec i s = .next t) :
    t.cfg = s.cfg ∧ t.script = s.script ∧ t.resetDue = s.resetDue ∧ t.edges.so = s.edges.so ∧
      t.edges.res = s.edges.res := by
  by_cases hi : i = .brk
  · subst hi
    obtain ⟨_, _, e, _, _, _, _, _, rfl, -, hres, hso, -⟩ := execBrk_reaches s t h
    exact ⟨rfl, rfl, rfl, hso, hres⟩
  · obtain ⟨hcfg, hscript, hdue, -, -, hedges⟩ := (exec_changesOnlyNamed h).surroundings hi
    exact ⟨hcfg, hscript, hdue, by rw [hedges], by rw [hedges]⟩

/-- Settles O56: the registers and memory form by form, then the surroundings. -/
theorem onlyTheNamedInstructionsWriteARegister : Obligations.OnlyTheNamedInstructionsWriteARegister := by
  intro i s t h
  obtain ⟨ha, hx, hy, hsp, hm⟩ := (exec_changesOnlyNamed h).registers
  obtain ⟨hcfg, hscript, hdue, -⟩ := exec_keeps_platform h
  refine ⟨ha, hx, hy, hsp, hm, hcfg, hscript, hdue, fun hi => ?_⟩
  obtain ⟨-, -, -, hp, hpins, hedges⟩ := (exec_changesOnlyNamed h).surroundings hi
  exact ⟨hp, hpins, hedges⟩

end Sys2Proof.Machine
end

section
/-!
The edges on NMI and S.O.: what the environment's move makes of one between two steps, and what the end of a step makes of
one inside it (R25, R27, R246).
-/

namespace Sys2Proof.Machine

/-! ## The NMI latch inside a sequence -/

/-- With no edge that the member hears, the vector is the sequence's own (R246). -/
theorem fetchVector_noEdge (v : Word) (s : State) (h : (s.cfg.member.hasNmi && s.edges.nmi) = false) :
    fetchVector v s = loadVector v s := by
  have hd : s.diverted = false := by rw [State.diverted, Bool.and_comm s.edges.nmi, h, Bool.false_and]
  simp [fetchVector, hd]

/-- The entry of an exception with no edge inside it leaves the latch and the edges alone (R246). -/
theorem takeException_noEdge (ret : Word) (brk : Bool) (vector : Word) (s : State)
    (h : (s.cfg.member.hasNmi && s.edges.nmi) = false) :
    (takeException ret brk vector s).nmiPending = s.nmiPending ∧ (takeException ret brk vector s).edges = s.edges ∧
      (takeException ret brk vector s).cfg = s.cfg := by
  obtain ⟨_, _, _, he, -⟩ := pushAll_state [hiByte ret, loByte ret, s.p.toByte brk] s
  rw [takeException_eq, he, fetchVector_noEdge _ _ (by exact h)]
  exact ⟨rfl, rfl, rfl⟩

/-- The latch at the end of a sequence: what the sequence left, or an edge the sequence has not served (R25). -/
theorem nmiPending_of_settled {s t u : State} (h : settleResult false (finish u) = .next t) (hc : u.cfg = s.cfg)
    (he : u.edges = s.edges) : t.nmiPending = (u.nmiPending || (s.cfg.member.hasNmi && s.edges.nmi)) := by
  obtain ⟨v, hv, rfl⟩ := settleResult_next _ _ _ h
  obtain rfl := finish_next _ _ hv
  rw [settle_nmiPending, hc, he]

theorem nmiPending_of_takeNmi {s t : State} (h : settleResult false (finish (takeNmi s)) = .next t) :
    t.nmiPending = (s.cfg.member.hasNmi && s.edges.nmi) := by
  obtain ⟨_, _, _, _, _, he, -⟩ := takeNmi_state s
  rw [nmiPending_of_settled h (by rw [he]) (by rw [he]), he, Bool.false_or]

theorem nmiPending_of_takeIrq {s t : State} (h : settleResult false (finish (takeIrq s)) = .next t)
    (hn : (s.cfg.member.hasNmi && s.edges.nmi) = false) : t.nmiPending = s.nmiPending := by
  obtain ⟨hc, -, -, hp, -, he⟩ := (entryReads_elapsed s).sameSurroundings
  obtain ⟨hp', he', hc'⟩ :=
    takeException_noEdge (entryReads s).pc false irqVector (entryReads s) (by rw [hc, he]; exact hn)
  rw [nmiPending_of_settled h (hc'.trans hc) (he'.trans he), hn, Bool.or_false]
  exact hp'.trans hp

/-- The reset sequence serves the edges of its own cycles itself (log 31). -/
theorem nmiPending_of_reset {s t : State} (h : settleResult false (finish (resetSequence s)) = .next t)
    (hn : (s.cfg.member.hasNmi && s.edges.nmi) = false) : t.nmiPending = false := by
  obtain ⟨_, _, he, ⟨_, _, _, _, rfl, -⟩, -⟩ := resetSequence_state s
  obtain ⟨v, hv, rfl⟩ := settleResult_next _ _ _ h
  obtain rfl := finish_next _ _ hv
  rw [settle_nmiPending, he]
  simp [resetRegisters, hn]

/-! ## The NMI latch through an instruction -/

/-- An instruction keeps the latch, and the edges for the end of the step; BRK does where there is no edge to serve (R246). -/
theorem exec_keeps_latch {i : Instr} {s t : State} (h : exec i s = .next t)
    (hb : i ≠ .brk ∨ (s.cfg.member.hasNmi && s.edges.nmi) = false) :
    t.nmiPending = s.nmiPending ∧ t.edges = s.edges := by
  by_cases hi : i = .brk
  · subst hi
    have hn := hb.resolve_left (fun hne => hne rfl)
    obtain ⟨hc, -, -, hp, -, he⟩ := (discard_elapsed (s.pc + 1) s).sameSurroundings
    obtain ⟨hp', he', -⟩ := takeException_noEdge (s.pc + 2) true irqVector (discard (s.pc + 1) s) hn
    rw [finish_next _ t h]
    exact ⟨hp'.trans hp, he'.trans he⟩
  · obtain ⟨-, -, -, hp, -, he⟩ := (exec_changesOnlyNamed h).surroundings hi
    exact ⟨hp, he⟩

/-- A step that runs an instruction ends in the meaning's next state with the edges settled. -/
theorem step_instruction_next {s s2 t : State} {i : Instr} (he : eventOf (sample s) = .instruction)
    (hf : fetch { sample s with heldI := none } = .ok (i, s2)) (h : step s = .next t) :
    ∃ u, exec i s2 = .next u ∧ t = settle (writesV i.mnemonic) u := by
  rw [step_instruction s he, runInstruction_of_fetch _ i s2 hf] at h
  exact settleResult_next _ _ _ h

/-- Conversely, where the meaning answers a next state the step does. -/
theorem step_of_exec {s s2 u : State} {i : Instr} (he : eventOf (sample s) = .instruction)
    (hf : fetch { sample s with heldI := none } = .ok (i, s2)) (h : exec i s2 = .next u) :
    step s = .next (settle (writesV i.mnemonic) u) := by
  rw [step_instruction s he, runInstruction_of_fetch _ i s2 hf, h]
  rfl

/-- The fetch leaves the surroundings alone. -/
theorem fetch_sameSurroundings {s s2 : State} {i : Instr} (hf : fetch { s with heldI := none } = .ok (i, s2)) :
    SameSurroundings s s2 :=
  SameSurroundings.trans (t := { s with heldI := none }) ⟨rfl, rfl, rfl, rfl, rfl, rfl⟩
    (fetch_elapsed _ i s2 hf).sameSurroundings

theorem nmiPending_of_instruction {s s2 t : State} {i : Instr} (he : eventOf (sample s) = .instruction)
    (hf : fetch { sample s with heldI := none } = .ok (i, s2)) (h : step s = .next t)
    (hb : i ≠ .brk ∨ (s.cfg.member.hasNmi && (sample s).edges.nmi) = false) :
    t.nmiPending = ((sample s).nmiPending || (s.cfg.member.hasNmi && (sample s).edges.nmi)) := by
  obtain ⟨u, hu, rfl⟩ := step_instruction_next he hf h
  obtain ⟨hc, -, -, hp, -, hed⟩ := fetch_sameSurroundings hf
  rw [sample_cfg] at hc
  obtain ⟨hp', he'⟩ := exec_keeps_latch hu (by rw [hc, hed]; exact hb)
  obtain ⟨hc', -⟩ := exec_keeps_platform hu
  rw [settle_nmiPending, hp', he', hc', hp, hed, hc]

/-- Neither an IRQ entry nor an instruction comes next while an NMI is pending (R237, R239). -/
theorem nmiPending_of_eventOf {s : State} (h : eventOf s = .irq ∨ eventOf s = .instruction) : s.nmiPending = false := by
  by_contra hp
  rw [Bool.not_eq_false] at hp
  simp only [eventOf, hp, if_true] at h
  split_ifs at h <;> simp at h

/-! ## Between two steps -/

/-- The latch after the environment's move: set by a negative edge where the member has the pin (R25). -/
theorem sample_cons_nmiPending {s : State} {inp : Inputs} {rest : List Inputs} (h : s.script = inp :: rest) :
    (sample s).nmiPending = (s.nmiPending || (s.cfg.member.hasNmi && !s.pins.nmiLow && inp.pins.nmiLow)) := by
  rw [sample_cons s inp rest h]

/-- V after the environment's move: set by a negative edge that is heard (R27). -/
theorem sample_cons_v {s : State} {inp : Inputs} {rest : List Inputs} (h : s.script = inp :: rest) :
    (sample s).p.v = (s.p.v || (s.hearsSo && !s.pins.soLow && inp.pins.soLow)) := by
  rw [sample_cons s inp rest h]

/-- Settles O45: the environment's move, then the step event by event. -/
theorem nmiLatchIsSetByTheEdge : Obligations.NmiLatchIsSetByTheEdge := by
  refine ⟨fun s inp rest hs => ⟨fun h1 h2 h3 => ?_, fun h => ?_⟩,
    fun s t h => ⟨fun he => ?_, fun he => ?_, fun he hn => ?_, fun he => ?_, fun he hn => ?_, fun he i s2 hf hb => ?_⟩⟩
  · simp [sample_cons_nmiPending hs, h1, h2, h3]
  · rw [sample_cons_nmiPending hs]
    rcases h with h | h | h <;> simp [h]
  · rw [step_inReset s he] at h
    cases h
    rfl
  · rw [step_held s he] at h
    cases h
    rw [settle_nmiPending, ← sample_cfg s]
    rfl
  · rw [step_reset s he] at h
    rw [← sample_cfg s] at hn
    exact nmiPending_of_reset h hn
  · rw [step_nmi s he] at h
    rw [nmiPending_of_takeNmi h, sample_cfg]
  · rw [step_irq s he] at h
    rw [← sample_cfg s] at hn
    have hp := nmiPending_of_eventOf (.inl he)
    exact ⟨hp, (nmiPending_of_takeIrq h hn).trans hp⟩
  · have hp := nmiPending_of_eventOf (.inr he)
    refine ⟨hp, ?_⟩
    rw [nmiPending_of_instruction he hf h hb, hp, Bool.false_or]

/-! ## S.O. -/

/-- V at the end of a step: an edge that is heard sets it, but against a step that writes V a free value decides (R27, U11). -/
theorem settle_v (w : Bool) (t : State) :
    (settle w t).p.v = (t.p.v || (t.hearsSo && t.edges.so && (!w || Config.soEdgeWins t.clock))) := rfl

theorem hearsSo_congr {s t : State} (h : t.cfg = s.cfg) : t.hearsSo = s.hearsSo := by
  rw [State.hearsSo, State.hearsSo, h]

/-- Settles O46: no instruction serves an S.O. edge, so the end of the step finds it as the environment set it. -/
theorem setOverflowPin : Obligations.SetOverflowPin := by
  refine ⟨fun s inp rest hs => ⟨fun ⟨h1, h2, h3⟩ => ?_, fun h => ?_⟩, fun s s2 u i he hf hx => ?_⟩
  · simp [sample_cons_v hs, h1, h2, h3]
  · rw [sample_cons_v hs, Bool.or_eq_left_iff_imp]
    intro hedge
    simp only [Bool.and_eq_true, Bool.not_eq_true'] at hedge
    obtain ⟨⟨h1, h2⟩, h3⟩ := hedge
    exact absurd ⟨h1, h2, h3⟩ h
  · obtain ⟨hc, -, -, -, -, hed⟩ := fetch_sameSurroundings hf
    obtain ⟨hc', -, -, hso, -⟩ := exec_keeps_platform hx
    have hv : (settle (writesV i.mnemonic) u).p.v = (u.p.v || (s.hearsSo && (sample s).edges.so &&
        (!writesV i.mnemonic || Config.soEdgeWins u.clock))) := by
      rw [settle_v, hso, hed, hearsSo_congr (hc'.trans (hc.trans (sample_cfg s)))]
    refine ⟨_, step_of_exec he hf hx, fun h1 h2 hw => ?_, fun h1 h2 => ?_, fun h => ?_⟩
    · rw [hv, h1, h2, hw]
      simp
    · rw [hv, h1, h2]
      cases !writesV i.mnemonic || Config.soEdgeWins u.clock <;> simp
    · rw [hv]
      rcases h with h | h <;> simp [h]

end Sys2Proof.Machine
end

section
/-!
RDY inside a step (R57, R58, R294). One halted read cycle is repeated; and two runs of one step that differ in their gaps
alone, on ram and rom, stay the same but for the model's own time and record. The second part is a simulation: `SameButTime`
relates two moments of the two runs, every shared operation keeps it, and so does every instruction, sequence and step.
-/

namespace Sys2Proof.Machine

/-! ## The cycles of a halt -/

theorem length_repeated (s : State) (k : CycleKind) (a : Word) (n : Nat) : (s.repeated k a n).length = n := by
  induction n with
  | zero => rfl
  | succ n ih => rw [State.repeated, List.length_cons, ih]

/-- The repeated cycles hold the kind and the address (R57). -/
theorem map_repeated (s : State) (k : CycleKind) (a : Word) (n : Nat) :
    (s.repeated k a n).map (fun cycle => (cycle.kind, cycle.addr)) = List.replicate n (k, s.cfg.busAddr a) := by
  induction n with
  | zero => rfl
  | succ n ih => rw [State.repeated, List.map_cons, ih, List.replicate_succ]

/-- A gap halts a member with the pin for as long as it says (R57). -/
theorem waits_cons (s : State) (gap : Gap) (rest : List Gap) (hg : s.gaps = gap :: rest)
    (hr : s.cfg.member.hasRdy = true) : s.waits = gap.waits := by
  rw [State.waits, hg]
  simp [hr]

/-- The record of a read cycle: the cycle itself, before it the repeated ones, and before those what was there. -/
theorem busRead_bus_eq (k : CycleKind) (a : Word) (s : State) :
    ∃ v, (busRead k a s).2.bus = (⟨k, s.cfg.busAddr a, v⟩ :: s.repeated k a s.waits) ++ s.bus :=
  ⟨_, rfl⟩

theorem drop_busRead_bus (k : CycleKind) (a : Word) (s : State) :
    (busRead k a s).2.bus.drop (s.waits + 1) = s.bus := by
  obtain ⟨v, hb⟩ := busRead_bus_eq k a s
  rw [hb]
  exact List.drop_left' (by rw [List.length_cons, length_repeated])

theorem take_busRead_bus (k : CycleKind) (a : Word) (s : State) :
    ((busRead k a s).2.bus.take (s.waits + 1)).map (fun cycle => (cycle.kind, cycle.addr)) =
      List.replicate (s.waits + 1) (k, s.cfg.busAddr a) := by
  obtain ⟨v, hb⟩ := busRead_bus_eq k a s
  rw [hb, List.take_left' (by rw [List.length_cons, length_repeated]), List.map_cons, map_repeated, List.replicate_succ]

/-! ## Two runs that differ in time alone -/

/-- Two moments of one step in two runs that differ in their gaps alone: every other field but the clock and the record is the
same, no other master writes in either run, no edge falls inside the step, every address is ram or rom, and nothing is
refused (R54, R61). -/
structure SameButTime (s t : State) : Prop where
  agrees : s.agrees t
  alone : s.alone
  alone' : t.alone
  quiet : s.edges = .quiet
  memory : ∀ a, s.isMemory a
  runnable : s.cfg.runnable

namespace SameButTime

variable {s t : State}

theorem exists_eq (h : SameButTime s t) : ∃ c b g, t = { s with clock := c, bus := b, gaps := g } :=
  ⟨_, _, _, h.agrees⟩

theorem a_eq (h : SameButTime s t) : t.a = s.a := by rw [h.agrees]

theorem x_eq (h : SameButTime s t) : t.x = s.x := by rw [h.agrees]

theorem y_eq (h : SameButTime s t) : t.y = s.y := by rw [h.agrees]

theorem sp_eq (h : SameButTime s t) : t.sp = s.sp := by rw [h.agrees]

theorem pc_eq (h : SameButTime s t) : t.pc = s.pc := by rw [h.agrees]

theorem p_eq (h : SameButTime s t) : t.p = s.p := by rw [h.agrees]

theorem cfg_eq (h : SameButTime s t) : t.cfg = s.cfg := by rw [h.agrees]

theorem steady (h : SameButTime s t) : s.steady := ⟨h.alone, by rw [h.quiet]; rfl⟩

theorem steady' (h : SameButTime s t) : t.steady := by
  have hs := h.steady.2
  have ht := h.alone'
  obtain ⟨c, b, g, rfl⟩ := h.exists_eq
  exact ⟨ht, hs⟩

/-- In each run cycles pass, as many as they may be. -/
theorem elapsed {u v : State} (h : SameButTime s t) (hs : Elapsed s u) (ht : Elapsed t v) : SameButTime u v := by
  obtain ⟨_, _, _, rfl⟩ := h.exists_eq
  obtain ⟨_, _, _, rfl, hu⟩ := hs.state h.alone
  obtain ⟨_, _, _, rfl, hv⟩ := ht.state h.alone'
  exact ⟨rfl, hu, hv, h.quiet, h.memory, h.runnable⟩

/-- In each run the same change of the registers is made. For a record update the last two premises are computations. -/
theorem update (h : SameButTime s t) (e : State → State)
    (he : OnRegisters e := by exact ⟨fun _ => rfl, fun _ => rfl, fun _ => rfl, fun _ _ _ _ _ => rfl⟩)
    (hq : ∀ u : State, u.edges = .quiet → (e u).edges = .quiet := by exact fun _ hu => hu) :
    SameButTime (e s) (e t) := by
  have ha : ∀ u : State, u.alone → (e u).alone := fun u hu gap hg => hu gap (by rw [← he.gaps]; exact hg)
  refine ⟨?_, ha s h.alone, ha t h.alone', hq s h.quiet, fun a => ?_, by rw [he.cfg]; exact h.runnable⟩
  · obtain ⟨c, b, g, rfl⟩ := h.exists_eq
    have hc := he.commutes s s.mem c b g
    rw [State.agrees, show ({ s with clock := c, bus := b, gaps := g } : State) =
      { s with mem := s.mem, clock := c, bus := b, gaps := g } from rfl, hc, he.mem]
  · have hm := h.memory a
    unfold State.isMemory at hm ⊢
    rwa [he.cfg]

theorem advance (h : SameButTime s t) (n : Nat) : SameButTime (advance n s) (advance n t) :=
  h.update (Machine.advance n)

/-! ## Reads -/

/-- The two runs read the same byte, however long each waits for it. -/
theorem busRead_fst (h : SameButTime s t) (k : CycleKind) (a : Word) : (busRead k a t).1 = (busRead k a s).1 := by
  have ht := h.alone'
  obtain ⟨c, b, g, rfl⟩ := h.exists_eq
  rw [busRead_memory (.refl s) h.alone k a (h.memory a), busRead_memory (.refl _) ht k a (h.memory a)]
  rfl

theorem busRead (h : SameButTime s t) (k : CycleKind) (a : Word) :
    SameButTime (busRead k a s).2 (busRead k a t).2 := h.elapsed (busRead_elapsed k a s) (busRead_elapsed k a t)

theorem discard (h : SameButTime s t) (a : Word) : SameButTime (discard a s) (discard a t) := h.busRead .discard a

theorem readWord (h : SameButTime s t) (k : CycleKind) (lo hi : Word) : readWord k lo hi t = readWord k lo hi s :=
  congrArg₂ word ((h.busRead k lo).busRead_fst k hi) (h.busRead_fst k lo)

theorem resolve (h : SameButTime s t) (use : Use) (m : Addr) :
    SameButTime (resolve use m s).2 (resolve use m t).2 := h.elapsed (resolve_elapsed use m s) (resolve_elapsed use m t)

theorem resolve_fst (h : SameButTime s t) (use : Use) (m : Addr) :
    (Machine.resolve use m t).1 = (Machine.resolve use m s).1 := by
  cases m with
  | zeroPage z => rfl
  | zeroPageX z => exact congrArg (fun x => zeroPage (z + x)) h.x_eq
  | zeroPageY z => exact congrArg (fun y => zeroPage (z + y)) h.y_eq
  | absolute w => rfl
  | absoluteX base =>
    show (resolveIndexed use base t.x t).1 = (resolveIndexed use base s.x s).1
    rw [resolveIndexed_fst, resolveIndexed_fst, h.x_eq]
  | absoluteY base =>
    show (resolveIndexed use base t.y t).1 = (resolveIndexed use base s.y s).1
    rw [resolveIndexed_fst, resolveIndexed_fst, h.y_eq]
  | indirectX z =>
    show Machine.readWord .pointer (zeroPage (z + t.x)) (zeroPage (z + t.x + 1)) (Machine.discard (zeroPage z) t) = _
    rw [h.x_eq]
    exact (h.discard (zeroPage z)).readWord .pointer _ _
  | indirectY z =>
    show (resolveIndexed use (Machine.readWord .pointer (zeroPage z) (zeroPage (z + 1)) t) t.y _).1 =
      (resolveIndexed use (Machine.readWord .pointer (zeroPage z) (zeroPage (z + 1)) s) s.y _).1
    rw [resolveIndexed_fst, resolveIndexed_fst, h.y_eq, h.readWord]

theorem readSource (h : SameButTime s t) (src : Source) : SameButTime (readSource src s).2 (readSource src t).2 :=
  h.elapsed (readSource_elapsed src s) (readSource_elapsed src t)

theorem readSource_fst (h : SameButTime s t) (src : Source) :
    (Machine.readSource src t).1 = (Machine.readSource src s).1 := by
  cases src with
  | imm v => rfl
  | mem m =>
    show (Machine.busRead _ (Machine.resolve .load m t).1 (Machine.resolve .load m t).2).1 = _
    rw [h.resolve_fst]
    exact (h.resolve .load m).busRead_fst _ _

/-! ## Writes -/

theorem memAfterWrite (h : SameButTime s t) (a : Word) (v : Byte) :
    SameButTime { s with mem := s.memAfterWrite a v } { t with mem := t.memAfterWrite a v } := by
  have hs := h.steady
  have ht := h.alone'
  obtain ⟨c, b, g, rfl⟩ := h.exists_eq
  rw [memAfterWrite_congr s { s with clock := c, bus := b, gaps := g } a v rfl rfl rfl hs.2 hs.2]
  exact ⟨rfl, h.alone, ht, h.quiet, h.memory, h.runnable⟩

theorem busWrite (h : SameButTime s t) (k : CycleKind) (a : Word) (v : Byte) :
    SameButTime (busWrite k a v s) (busWrite k a v t) :=
  (h.memAfterWrite a v).elapsed (busWrite_elapsed (.refl s) h.steady k a v) (busWrite_elapsed (.refl t) h.steady' k a v)

theorem push (h : SameButTime s t) (v : Byte) : SameButTime (push v s) (push v t) := by
  show SameButTime { Machine.busWrite .push (stackAddr s.sp) v s with sp := s.sp - 1 }
    { Machine.busWrite .push (stackAddr t.sp) v t with sp := t.sp - 1 }
  rw [h.sp_eq]
  exact (h.busWrite .push (stackAddr s.sp) v).update (fun u => { u with sp := s.sp - 1 })

theorem pushAll (h : SameButTime s t) (bytes : List Byte) : SameButTime (pushAll bytes s) (pushAll bytes t) := by
  induction bytes generalizing s t with
  | nil => exact h
  | cons v rest ih => exact ih (h.push v)

/-! ## Pulls -/

theorem raiseSp (h : SameButTime s t) : SameButTime { s with sp := s.sp + 1 } { t with sp := t.sp + 1 } :=
  h.update (fun u => { u with sp := u.sp + 1 })

theorem pull_fst (h : SameButTime s t) : (pull t).1 = (pull s).1 := by
  have hr := h.raiseSp
  obtain ⟨_, _, _, rfl⟩ := h.exists_eq
  exact hr.busRead_fst .pull (stackAddr (s.sp + 1))

theorem pull (h : SameButTime s t) : SameButTime (pull s).2 (pull t).2 :=
  h.raiseSp.elapsed (pull_elapsed s) (pull_elapsed t)

theorem pullWord_fst (h : SameButTime s t) : (pullWord t).1 = (pullWord s).1 :=
  congrArg₂ word h.pull.pull_fst h.pull_fst

theorem pullWord (h : SameButTime s t) : SameButTime (pullWord s).2 (pullWord t).2 := h.pull.pull

theorem pullA (h : SameButTime s t) : SameButTime (pullA s) (pullA t) := by
  rw [pullA_eq, pullA_eq, h.pull_fst]
  exact h.pull.update (fun u => { u with a := (Machine.pull s).1, p := u.p.setNZ (Machine.pull s).1 })

theorem pullP (h : SameButTime s t) : SameButTime (pullP s) (pullP t) := by
  rw [pullP_eq, pullP_eq, h.pull_fst, h.p_eq]
  exact h.pull.update (fun u => { u with p := Flags.ofByte (Machine.pull s).1, heldI := some s.p.i })

/-! ## Sequences -/

theorem loadVector (h : SameButTime s t) (v : Word) : SameButTime (loadVector v s) (loadVector v t) := by
  show SameButTime { (Machine.busRead .vector (v + 1) (Machine.busRead .vector v s).2).2 with
      pc := Machine.readWord .vector v (v + 1) s }
    { (Machine.busRead .vector (v + 1) (Machine.busRead .vector v t).2).2 with
      pc := Machine.readWord .vector v (v + 1) t }
  rw [h.readWord]
  exact ((h.busRead .vector v).busRead .vector (v + 1)).update
    (fun u => { u with pc := Machine.readWord .vector v (v + 1) s })

theorem fetchVector (h : SameButTime s t) (v : Word) : SameButTime (fetchVector v s) (fetchVector v t) := by
  have hs : s.edges.nmi = false := by rw [h.quiet]; rfl
  have ht : t.edges.nmi = false := by
    obtain ⟨_, _, _, rfl⟩ := h.exists_eq
    exact hs
  rw [fetchVector_quiet v s hs, fetchVector_quiet v t ht]
  exact h.loadVector v

theorem takeException (h : SameButTime s t) (ret : Word) (brk : Bool) (vector : Word) :
    SameButTime (takeException ret brk vector s) (takeException ret brk vector t) := by
  rw [takeException_eq, takeException_eq, h.p_eq]
  exact ((h.pushAll _).update (fun u => { u with p := { s.p with i := true }, heldI := none })).fetchVector vector

theorem entryReads (h : SameButTime s t) : SameButTime (entryReads s) (entryReads t) :=
  h.elapsed (entryReads_elapsed s) (entryReads_elapsed t)

theorem takeIrq (h : SameButTime s t) : SameButTime (takeIrq s) (takeIrq t) := by
  have hpc : (Machine.entryReads t).pc = (Machine.entryReads s).pc := by
    obtain ⟨_, _, _, rfl⟩ := h.exists_eq
    rfl
  show SameButTime (Machine.takeException (Machine.entryReads s).pc false irqVector (Machine.entryReads s))
    (Machine.takeException (Machine.entryReads t).pc false irqVector (Machine.entryReads t))
  rw [hpc]
  exact h.entryReads.takeException _ _ _

theorem takeNmi (h : SameButTime s t) : SameButTime (takeNmi s) (takeNmi t) := by
  have hpc : (Machine.entryReads { t with nmiPending := false }).pc =
      (Machine.entryReads { s with nmiPending := false }).pc := by
    obtain ⟨_, _, _, rfl⟩ := h.exists_eq
    rfl
  show SameButTime (Machine.takeException (Machine.entryReads { s with nmiPending := false }).pc false nmiVector
      (Machine.entryReads { s with nmiPending := false }))
    (Machine.takeException (Machine.entryReads { t with nmiPending := false }).pc false nmiVector
      (Machine.entryReads { t with nmiPending := false }))
  rw [hpc]
  exact (h.update (fun u => { u with nmiPending := false })).entryReads.takeException _ _ _

/-- The reset sequence draws what it draws when it begins, so the two runs begin it in the same clock cycle. -/
theorem resetSequence (h : SameButTime s t) (hc : t.clock = s.clock) :
    SameButTime (resetSequence s) (resetSequence t) := by
  have hr : resetRegisters t = resetRegisters s := by
    obtain ⟨_, _, _, rfl⟩ := h.exists_eq
    obtain rfl := hc
    rfl
  have he := h.elapsed (resetReads_elapsed s) (resetReads_elapsed t)
  rw [resetSequence_eq, resetSequence_eq, hr]
  refine SameButTime.loadVector (he.update (resetRegisters s) (hq := fun u hu => ?_)) resetVector
  show { u.edges with nmi := false } = Edges.quiet
  rw [hu]
  rfl

theorem returnFromInterrupt (h : SameButTime s t) : SameButTime (returnFromInterrupt s) (returnFromInterrupt t) := by
  have hq := h.pull.update (fun u => { u with p := Flags.ofByte (Machine.pull s).1 })
  show SameButTime
    { (Machine.pullWord { (Machine.pull s).2 with p := Flags.ofByte (Machine.pull s).1 }).2 with
      pc := (Machine.pullWord { (Machine.pull s).2 with p := Flags.ofByte (Machine.pull s).1 }).1 }
    { (Machine.pullWord { (Machine.pull t).2 with p := Flags.ofByte (Machine.pull t).1 }).2 with
      pc := (Machine.pullWord { (Machine.pull t).2 with p := Flags.ofByte (Machine.pull t).1 }).1 }
  rw [h.pull_fst, hq.pullWord_fst]
  generalize (Machine.pullWord _).1 = pc
  exact hq.pullWord.update (fun u => { u with pc := pc })

end SameButTime

end Sys2Proof.Machine
end

section
/-!
RDY inside a step, second part: every instruction and every step keeps `SameButTime` (R57, R294).
-/

namespace Sys2Proof.Machine

/-! ## Outcomes -/

/-- Where the first outcome is a next state so is the second, and the two are the same but for time. -/
def SameOutcomes (r q : Result) : Prop := ∀ u, r = .next u → ∃ v, q = .next v ∧ SameButTime u v

theorem SameButTime.finish {s t : State} (h : SameButTime s t) : SameOutcomes (finish s) (finish t) := by
  intro u hu
  obtain rfl := finish_next s u hu
  have hr := h.runnable
  refine ⟨t, finish_runnable t ?_, h⟩
  obtain ⟨_, _, _, rfl⟩ := h.exists_eq
  exact hr

/-- The end of the step drops the gaps, and there is no edge to settle. -/
theorem SameButTime.settle {u v : State} (h : SameButTime u v) (w : Bool) :
    ∃ c b, settle w v = { settle w u with clock := c, bus := b } := by
  have hq := h.quiet
  obtain ⟨c, b, g, rfl⟩ := h.exists_eq
  rw [settle_quiet w u hq, settle_quiet w { u with clock := c, bus := b, gaps := g } hq]
  exact ⟨c, b, rfl⟩

theorem SameOutcomes.settleResult {r q : Result} (h : SameOutcomes r q) {w : Bool} {t : State}
    (ht : settleResult w r = .next t) : ∃ c b, settleResult w q = .next { t with clock := c, bus := b } := by
  obtain ⟨u, hu, rfl⟩ := settleResult_next w r t ht
  obtain ⟨v, rfl, huv⟩ := h u hu
  obtain ⟨c, b, hv⟩ := huv.settle w
  exact ⟨c, b, congrArg Host.Outcome.next hv⟩

/-! ## Decimal results -/

/-- An ADC or SBC in this state draws no free value (R122, R125). -/
def State.drawsNothing (s : State) : Prop := s.cfg.decimalFlags = .nmosExact ∨ s.p.d = false

theorem adc_of_drawsNothing {s : State} (h : s.drawsNothing) (c : Nat) (a m : Byte) :
    adc s.cfg c a m s.p = adc s.cfg s.clock a m s.p := by
  unfold adc
  rcases h with h | h <;> simp [h]

theorem sbc_of_drawsNothing {s : State} (h : s.drawsNothing) (c : Nat) (a m : Byte) :
    sbc s.cfg c a m s.p = sbc s.cfg s.clock a m s.p := by
  unfold sbc
  rcases h with h | h <;> simp [h]

theorem Elapsed.drawsNothing {s t : State} (h : Elapsed s t) (hd : s.drawsNothing) : t.drawsNothing := by
  obtain ⟨_, _, _, _, rfl, -⟩ := h
  exact hd

/-! ## Effects -/

/-- A store writes a register (R104 to R106). -/
theorem storedByte_congr {mn : Mnemonic} {v : State → Byte} (hv : storedByte mn = some v) {s t : State} (ha : t.a = s.a)
    (hx : t.x = s.x) (hy : t.y = s.y) : v t = v s := by
  cases mn with
  | sta =>
    cases hv
    exact ha
  | stx =>
    cases hv
    exact hx
  | sty =>
    cases hv
    exact hy
  | _ => cases hv

namespace SameButTime

variable {s t : State}

/-- A reading instruction's effect does not look at the time, unless it draws a decimal result. -/
theorem readEffect {mn : Mnemonic} {e : Byte → State → State} (he : readEffect mn = some e) (v : Byte)
    (h : SameButTime s t) (hd : s.drawsNothing) : SameButTime (e v s) (e v t) := by
  cases mn with
  | lda | ldx | ldy | cmp | cpx | cpy | and | eor | ora | bit =>
    exact h.update (e v) (by cases he; exact ⟨fun _ => rfl, fun _ => rfl, fun _ => rfl, fun _ _ _ _ _ => rfl⟩)
      (by cases he; exact fun _ hu => hu)
  | adc =>
    cases he
    have hu := h.update (fun u => { u with a := (adc s.cfg s.clock s.a v s.p).1, p := (adc s.cfg s.clock s.a v s.p).2 })
    obtain ⟨c, b, g, rfl⟩ := h.exists_eq
    rw [addWithCarry, addWithCarry, adc_of_drawsNothing hd c]
    exact hu
  | sbc =>
    cases he
    have hu := h.update (fun u => { u with a := (sbc s.cfg s.clock s.a v s.p).1, p := (sbc s.cfg s.clock s.a v s.p).2 })
    obtain ⟨c, b, g, rfl⟩ := h.exists_eq
    rw [subtractWithBorrow, subtractWithBorrow, sbc_of_drawsNothing hd c]
    exact hu
  | _ => cases he

theorem impliedEffect {mn : Mnemonic} {e : State → State} (he : impliedEffect mn = some e) (h : SameButTime s t) :
    SameButTime (e s) (e t) := by
  cases mn with
  | tax | tay | tsx | txa | txs | tya | dex | dey | inx | iny | clc | cld | cli | clv | sec | sed | sei | nop =>
    exact h.update e (by cases he; exact ⟨fun _ => rfl, fun _ => rfl, fun _ => rfl, fun _ _ _ _ _ => rfl⟩)
      (by cases he; exact fun _ hu => hu)
  | pha =>
    cases he
    have hp := h.push s.a
    obtain ⟨_, _, _, rfl⟩ := h.exists_eq
    exact hp
  | php =>
    cases he
    have hp := h.push (s.p.toByte true)
    obtain ⟨_, _, _, rfl⟩ := h.exists_eq
    exact hp
  | pla =>
    cases he
    have hp := (h.discard (stackAddr s.sp)).pullA
    obtain ⟨_, _, _, rfl⟩ := h.exists_eq
    exact hp
  | plp =>
    cases he
    have hp := (h.discard (stackAddr s.sp)).pullP
    obtain ⟨_, _, _, rfl⟩ := h.exists_eq
    exact hp
  | _ => cases he

/-! ## The forms of a meaning -/

theorem readInstr (h : SameButTime s t) (src : Source) {mn : Mnemonic} {e : Byte → State → State}
    (he : Machine.readEffect mn = some e) (hd : s.drawsNothing) :
    SameOutcomes (readInstr src e s) (readInstr src e t) := by
  rw [readInstr_eq, readInstr_eq, h.readSource_fst]
  exact (((h.readSource src).readEffect he _ ((readSource_elapsed src s).drawsNothing hd)).advance _).finish

theorem storeInstr (h : SameButTime s t) (m : Addr) (v : Byte) : SameOutcomes (storeInstr m v s) (storeInstr m v t) := by
  rw [storeInstr_eq, storeInstr_eq, storeAddress, storeAddress, h.resolve_fst]
  exact (((h.resolve .store m).busWrite _ _ v).advance _).finish

theorem rmwInstr (h : SameButTime s t) (m : Addr) (f : Byte → Flags → ByteAndFlags) :
    SameOutcomes (rmwInstr m f s) (rmwInstr m f t) := by
  have ha : storeAddress m t = storeAddress m s := h.resolve_fst .store m
  have hv : rmwOperand m t = rmwOperand m s := by
    rw [rmwOperand, rmwOperand, ha]
    exact (h.resolve .store m).busRead_fst _ _
  have ho : SameButTime (afterOperand m s) (afterOperand m t) :=
    h.elapsed (afterOperand_elapsed m s) (afterOperand_elapsed m t)
  rw [rmwInstr_eq, rmwInstr_eq, ha, hv, h.p_eq]
  exact ((((ho.busWrite _ _ _).busWrite _ _ _).update
    (fun u => { u with p := (f (rmwOperand m s) s.p).2 })).advance _).finish

theorem impliedInstr (h : SameButTime s t) {e : State → State}
    (he : ∀ {u v}, SameButTime u v → SameButTime (e u) (e v)) :
    SameOutcomes (impliedInstr e s) (impliedInstr e t) := by
  rw [Machine.impliedInstr, Machine.impliedInstr, h.pc_eq]
  exact ((he (h.discard (s.pc + 1))).advance 1).finish

theorem accumulatorInstr (h : SameButTime s t) (f : Byte → Flags → ByteAndFlags) :
    SameOutcomes (accumulatorInstr f s) (accumulatorInstr f t) :=
  h.impliedInstr (fun huv => huv.update (fun u => { u with a := (f u.a u.p).1, p := (f u.a u.p).2 }))

theorem branchInstr (h : SameButTime s t) (taken : Bool) (off : Byte) :
    SameOutcomes (branchInstr taken off s) (branchInstr taken off t) := by
  obtain ⟨u, hu, hsu⟩ := branchInstr_eq taken off s
  obtain ⟨v, hv, htv⟩ := branchInstr_eq taken off t
  rw [hu, hv, h.pc_eq]
  generalize (if taken then branchTarget s.pc off else branchNext s.pc) = pc
  exact ((h.elapsed hsu htv).update (fun w => { w with pc := pc })).finish

theorem execJmpInd (h : SameButTime s t) (ptr : Word) : SameOutcomes (execJmpInd ptr s) (execJmpInd ptr t) := by
  cases hn : nextOfPointer s.cfg.jmpIndWrap ptr with
  | none =>
    intro u hu
    simp [Machine.execJmpInd, hn] at hu
  | some next =>
    obtain ⟨u, hu, hsu⟩ := execJmpInd_eq s ptr next hn
    obtain ⟨v, hv, htv⟩ := execJmpInd_eq t ptr next (by rw [h.cfg_eq]; exact hn)
    rw [hu, hv, h.readWord]
    exact ((h.elapsed hsu htv).update (fun w => { w with pc := Machine.readWord .pointer ptr next s })).finish

theorem execJsr (h : SameButTime s t) (addr : Word) : SameOutcomes (execJsr addr s) (execJsr addr t) := by
  have hp := (h.discard (stackAddr s.sp)).pushAll [hiByte (s.pc + 2), loByte (s.pc + 2)]
  rw [execJsr_eq, execJsr_eq, h.pc_eq, h.sp_eq, hp.busRead_fst]
  generalize word (Machine.busRead _ _ _).1 _ = pc
  exact ((hp.busRead .operand (s.pc + 2)).update (fun w => { w with pc := pc })).finish

theorem execRts (h : SameButTime s t) : SameOutcomes (execRts s) (execRts t) := by
  have hu : SameButTime (Machine.discard (stackAddr s.sp) (Machine.discard (s.pc + 1) s))
      (Machine.discard (stackAddr t.sp) (Machine.discard (t.pc + 1) t)) :=
    h.elapsed (beforePull_elapsed s) (beforePull_elapsed t)
  have hw := hu.pullWord_fst
  have hd := (hu.pullWord.discard (Machine.pullWord (Machine.discard (stackAddr s.sp) (Machine.discard (s.pc + 1) s))).1)
  unfold Machine.execRts
  dsimp only
  rw [hw]
  generalize (Machine.pullWord _).1 = ret at hd ⊢
  exact (hd.update (fun w => { w with pc := ret + 1 })).finish

theorem execBrk (h : SameButTime s t) : SameOutcomes (execBrk s) (execBrk t) := by
  rw [Machine.execBrk, Machine.execBrk, h.pc_eq]
  exact ((h.discard _).takeException _ _ _).finish

theorem execRti (h : SameButTime s t) : SameOutcomes (execRti s) (execRti t) :=
  (h.elapsed (beforePull_elapsed s) (beforePull_elapsed t)).returnFromInterrupt.finish

/-- Every instruction's meaning, by its form. -/
theorem exec (h : SameButTime s t) (hd : s.drawsNothing) (i : Instr) : SameOutcomes (exec i s) (exec i t) := by
  cases exec_cases i with
  | reads src e hs he hx =>
    rw [hx, hx]
    exact h.readInstr src he hd
  | stores m v ho hv hx =>
    rw [hx, hx, storedByte_congr hv h.a_eq h.x_eq h.y_eq]
    exact h.storeInstr m (v s)
  | modifies m f ho hf hx =>
    rw [hx, hx]
    exact h.rmwInstr m f
  | accumulator f ho hf hx =>
    rw [hx, hx]
    exact h.accumulatorInstr f
  | implied e ho he hx =>
    rw [hx, hx]
    exact h.impliedInstr (fun huv => huv.impliedEffect he)
  | branches off taken ho ht hx =>
    rw [hx, hx, h.p_eq]
    exact h.branchInstr _ off
  | jumps addr hi =>
    subst hi
    exact (h.update (fun w => { w with pc := addr })).finish
  | jumpsIndirect ptr hi =>
    subst hi
    exact h.execJmpInd ptr
  | calls addr hi =>
    subst hi
    exact h.execJsr addr
  | returns hi =>
    subst hi
    exact h.execRts
  | breaks hi =>
    subst hi
    exact h.execBrk
  | returnsFromInterrupt hi =>
    subst hi
    exact h.execRti

/-! ## The fetch -/

theorem fetchOperands_fst (h : SameButTime s t) (op : Byte) (n : Nat) :
    (fetchOperands op n t).1 = (fetchOperands op n s).1 := by
  have h1 := h.busRead_fst .operand (s.pc + 1)
  have h2 := h.busRead .operand (s.pc + 1)
  match n with
  | 0 => rfl
  | 1 =>
    show [(Machine.busRead .operand (t.pc + 1) t).1] = _
    rw [h.pc_eq, h1]
    rfl
  | _ + 2 =>
    have hd : (Machine.busRead .operand (s.pc + 1) t).2.dataAt (s.pc + 2) =
        (Machine.busRead .operand (s.pc + 1) s).2.dataAt (s.pc + 2) := by
      rw [dataAt_memory _ _ (h2.memory _)]
      have hm := h2.memory (s.pc + 2)
      obtain ⟨_, _, _, he⟩ := h2.exists_eq
      rw [he]
      exact dataAt_memory _ _ hm
    unfold fetchOperands
    by_cases hop : op = jsrOpcode
    · simp only [hop, if_true, h.pc_eq, hd, h1]
    · simp only [hop, if_false, h.pc_eq, h1, h2.busRead_fst]

/-- The two runs fetch the same instruction. -/
theorem fetch (h : SameButTime s t) {i : Instr} {s2 : State} (hf : fetch s = .ok (i, s2)) :
    ∃ t2, Machine.fetch t = .ok (i, t2) ∧ SameButTime s2 t2 := by
  have hop := h.busRead_fst .opcode s.pc
  have hs := h.busRead .opcode s.pc
  have hex : ∃ t2, Machine.fetch t = .ok (i, t2) := by
    unfold Machine.fetch at hf ⊢
    dsimp only at hf ⊢
    rw [h.pc_eq, hop]
    split at hf
    · cases hf
    · rw [hs.fetchOperands_fst]
      split at hf
      · cases hf
        exact ⟨_, rfl⟩
      · cases hf
  obtain ⟨t2, ht2⟩ := hex
  exact ⟨t2, ht2, h.elapsed (fetch_elapsed s i s2 hf) (fetch_elapsed t i t2 ht2)⟩

end SameButTime

/-! ## The step -/

/-- A step that runs an instruction has fetched it. -/
theorem runInstruction_next {s t : State} (h : runInstruction s = .next t) :
    ∃ i s2, fetch { s with heldI := none } = .ok (i, s2) ∧ settleResult (writesV i.mnemonic) (exec i s2) = .next t := by
  cases hf : fetch { s with heldI := none } with
  | error why =>
    simp only [runInstruction, hf] at h
    cases h
  | ok r => exact ⟨r.1, r.2, rfl, by rw [← h, runInstruction_of_fetch s r.1 r.2 hf]⟩

/-- The gaps of the next step reach no other field before it (R57). -/
theorem sample_withGaps (s : State) (inp : Inputs) (rest : List Inputs) (gaps : List Gap) :
    sample { s with script := { inp with gaps := gaps } :: rest } =
      { sample { s with script := { inp with gaps := [] } :: rest } with gaps := gaps } := rfl

/-- One step with gaps beside the same step without: the same next state but for the clock and the record. -/
theorem step_sameButTime {s t : State} {r : State} {gaps : List Gap} (hg : sample r = { sample s with gaps := gaps })
    (h : SameButTime (sample s) (sample r)) (hd : (sample s).drawsNothing) (ht : step s = .next t) :
    ∃ c b, step r = .next { t with clock := c, bus := b } := by
  have hev : eventOf (sample r) = eventOf (sample s) := by
    rw [hg]
    rfl
  have hc : (sample r).clock = (sample s).clock := by rw [hg]
  cases he : eventOf (sample s) with
  | inReset =>
    rw [step_inReset s he] at ht
    cases ht
    rw [step_inReset r (hev.trans he), hg]
    exact ⟨_, _, rfl⟩
  | held =>
    rw [step_held s he] at ht
    rw [step_held r (hev.trans he)]
    have hh : SameOutcomes (.next (hold (sample s))) (.next (hold (sample r))) := by
      intro u hu
      cases hu
      exact ⟨_, rfl, h.elapsed (tick_elapsed _ _) (tick_elapsed _ _)⟩
    exact hh.settleResult ht
  | reset =>
    rw [step_reset s he] at ht
    rw [step_reset r (hev.trans he)]
    exact (h.resetSequence hc).finish.settleResult ht
  | nmi =>
    rw [step_nmi s he] at ht
    rw [step_nmi r (hev.trans he)]
    exact h.takeNmi.finish.settleResult ht
  | irq =>
    rw [step_irq s he] at ht
    rw [step_irq r (hev.trans he)]
    exact h.takeIrq.finish.settleResult ht
  | instruction =>
    rw [step_instruction s he] at ht
    obtain ⟨i, s2, hf, hx⟩ := runInstruction_next ht
    obtain ⟨t2, hf', h2⟩ := (h.update (fun u => { u with heldI := none })).fetch hf
    rw [step_instruction r (hev.trans he), runInstruction_of_fetch _ i t2 hf']
    exact (h2.exec ((fetch_elapsed _ i s2 hf).drawsNothing hd) i).settleResult hx

/-- Settles O48: the record of a halted read cycle, and the simulation from a step without gaps. -/
theorem rdyInsideAStepOnlyCostsTime : Obligations.RdyInsideAStepOnlyCostsTime := by
  refine ⟨fun s k a v gap rest hg hr => ?_, fun s t inp rest gaps hs hq hdma hrun hmem hd ht => ?_⟩
  · have hw := waits_cons s gap rest hg hr
    have hdrop := drop_busRead_bus k a s
    have htake := take_busRead_bus k a s
    rw [hw] at hdrop htake
    exact ⟨by rw [busRead_snd_clock, hw], by rw [busRead_snd_gaps, hg]; rfl, hdrop, htake, busWrite_clock k a v s⟩
  · have hg := sample_withGaps s inp rest gaps
    refine step_sameButTime hg ⟨?_, alone_of_noGaps _ rfl, ?_, hq, hmem, hrun⟩ hd ht
    · rw [hg]
      exact rfl
    · rw [hg]
      exact hdma

end Sys2Proof.Machine
end

section
/-!
A fall of RES inside an instruction (R29, R273), seen beside the same instruction without it. Until the first write the two
runs are the same but for the fall itself (`State.withRes`); from the first write on they are related by `Abandoned`: each
byte of memory is an old one or the undisturbed run's, and the record holds the same cycles, some writes of it inhibited.
-/

namespace Sys2Proof.Machine

/-! ## Before the first write -/

/-- The state with or without a fall of RES inside the step. -/
def State.withRes (s : State) (r : Bool) : State := { s with edges := { s.edges with res := r } }

theorem State.withRes_self (s : State) (r : Bool) (h : s.edges.res = r) : s.withRes r = s := by
  subst h
  rfl

section
variable (s : State) (r : Bool)

theorem repeated_withRes (k : CycleKind) (a : Word) (n : Nat) :
    (s.withRes r).repeated k a n = s.repeated k a n := by
  induction n with
  | zero => rfl
  | succ n ih =>
    rw [State.repeated, State.repeated, ih]
    rfl

/-- A read looks at memory and time, not at RES. -/
theorem busRead_withRes (k : CycleKind) (a : Word) :
    busRead k a (s.withRes r) = ((busRead k a s).1, (busRead k a s).2.withRes r) := by
  have hb : (s.withRes r).beforeRead k a = (s.beforeRead k a).withRes r := by
    have hw : (s.withRes r).waits = s.waits := rfl
    unfold State.beforeRead
    rw [repeated_withRes, hw]
    rfl
  unfold busRead
  rw [hb]
  rfl

theorem discard_withRes (a : Word) : discard a (s.withRes r) = (discard a s).withRes r := by
  rw [discard, busRead_withRes]
  rfl

theorem zeroPagePointer_withRes (z : Byte) :
    zeroPagePointer z (s.withRes r) = ((zeroPagePointer z s).1, (zeroPagePointer z s).2.withRes r) := by
  simp only [zeroPagePointer, busRead_withRes]

theorem resolveIndexed_withRes (use : Use) (base : Word) (idx : Byte) :
    resolveIndexed use base idx (s.withRes r) =
      ((resolveIndexed use base idx s).1, (resolveIndexed use base idx s).2.withRes r) := by
  unfold resolveIndexed
  dsimp only
  split
  · rw [discard_withRes]
  · rfl

theorem resolve_withRes (use : Use) (m : Addr) :
    resolve use m (s.withRes r) = ((resolve use m s).1, (resolve use m s).2.withRes r) := by
  cases m with
  | zeroPage z => rfl
  | zeroPageX z => exact congrArg (fun u => (zeroPage (z + s.x), u)) (discard_withRes s r _)
  | zeroPageY z => exact congrArg (fun u => (zeroPage (z + s.y), u)) (discard_withRes s r _)
  | absolute w => rfl
  | absoluteX base => exact resolveIndexed_withRes s r use base s.x
  | absoluteY base => exact resolveIndexed_withRes s r use base s.y
  | indirectX z =>
    show zeroPagePointer (z + s.x) (discard (zeroPage z) (s.withRes r)) = _
    rw [discard_withRes, zeroPagePointer_withRes]
    rfl
  | indirectY z =>
    show resolveIndexed use (zeroPagePointer z (s.withRes r)).1 s.y (zeroPagePointer z (s.withRes r)).2 = _
    rw [zeroPagePointer_withRes, resolveIndexed_withRes]
    rfl

theorem readSource_withRes (src : Source) :
    readSource src (s.withRes r) = ((readSource src s).1, (readSource src s).2.withRes r) := by
  cases src with
  | imm v => rfl
  | mem m =>
    show busRead _ (resolve .load m (s.withRes r)).1 (resolve .load m (s.withRes r)).2 = _
    rw [resolve_withRes, busRead_withRes]
    rfl

/-- The two reads with which a pull begins. -/
theorem beforePull_withRes :
    discard (stackAddr (s.withRes r).sp) (discard ((s.withRes r).pc + 1) (s.withRes r)) =
      (discard (stackAddr s.sp) (discard (s.pc + 1) s)).withRes r := by
  rw [discard_withRes, discard_withRes]
  rfl

theorem pull_withRes : pull (s.withRes r) = ((pull s).1, (pull s).2.withRes r) :=
  busRead_withRes { s with sp := s.sp + 1 } r .pull (stackAddr (s.sp + 1))

theorem pullWord_withRes : pullWord (s.withRes r) = ((pullWord s).1, (pullWord s).2.withRes r) := by
  simp only [pullWord, pull_withRes]

theorem pullA_withRes : pullA (s.withRes r) = (pullA s).withRes r := by
  rw [pullA_eq, pullA_eq, pull_withRes]
  rfl

theorem pullP_withRes : pullP (s.withRes r) = (pullP s).withRes r := by
  rw [pullP_eq, pullP_eq, pull_withRes]
  rfl

theorem returnFromInterrupt_withRes :
    returnFromInterrupt (s.withRes r) = (returnFromInterrupt s).withRes r := by
  have hp : ∀ p, ({ (pull s).2.withRes r with p := p } : State) = State.withRes { (pull s).2 with p := p } r :=
    fun _ => rfl
  simp only [returnFromInterrupt, pull_withRes, hp, pullWord_withRes]
  rfl

theorem readEffect_withRes {mn : Mnemonic} {e : Byte → State → State} (he : readEffect mn = some e) (v : Byte) :
    e v (s.withRes r) = (e v s).withRes r := by
  cases mn with
  | lda | ldx | ldy | adc | sbc | cmp | cpx | cpy | and | eor | ora | bit =>
    cases he
    rfl
  | _ => cases he

end

/-! ## Inhibited writes -/

/-- A cycle `c` of the abandoned instruction beside the same cycle `d` of the undisturbed one: where the core writes in `c`
it writes the same byte in `d`. -/
structure SameCycle (c d : BusCycle) : Prop where
  addr : c.addr = d.addr
  plain : c.kind.plain = d.kind.plain
  written : c.kind.isWrite = true → d.kind.isWrite = true ∧ c.byte = d.byte

theorem SameCycle.refl (c : BusCycle) : SameCycle c c := ⟨rfl, rfl, fun h => ⟨h, rfl⟩⟩

/-- Two read cycles at one address. -/
theorem SameCycle.of_read {k : CycleKind} (hk : k.isWrite = false) (a : Nat) (v w : Byte) :
    SameCycle ⟨k, a, v⟩ ⟨k, a, w⟩ :=
  ⟨rfl, rfl, fun h => absurd (hk.symm.trans h) Bool.false_ne_true⟩

/-- `t` is a moment of an instruction inside which RES falls, `u` the same moment without the fall, and `m0` memory before
the instruction: they differ in the fall, in PC and in what the fall inhibits (R273). -/
structure Abandoned (m0 : Memory) (u t : State) : Prop where
  agrees : t = { u with mem := t.mem, bus := t.bus, pc := t.pc, edges := { u.edges with res := true } }
  res : u.edges.res = false
  alone : u.alone
  mem : ∀ b, t.mem.read b = m0.read b ∨ t.mem.read b = u.mem.read b
  bus : List.Forall₂ SameCycle t.bus u.bus

/-- In a step of the core's own, what a write cycle leaves at each bus address. -/
theorem read_busWrite (k : CycleKind) (a : Word) (v : Byte) (s : State) (ha : s.alone) (b : Nat) :
    (busWrite k a v s).mem.read b =
      if s.cfg.kindAt (s.cfg.busAddr a) = .ram ∧ s.driversOff = false ∧ s.inhibits a = false ∧ s.cfg.busAddr a = b then v
      else s.mem.read b := by
  rw [busWrite_mem, read_memAfterWrite, State.beforeWrite_mem, memShared_alone s _ ha]
  rfl

/-- A write cycle that RES inhibits is a read cycle in the record (R29). -/
theorem sameCycle_writeKind (s : State) (k : CycleKind) (a : Word) (n : Nat) (v : Byte) :
    SameCycle ⟨s.writeKind k a, n, v⟩ ⟨k, n, v⟩ := by
  unfold State.writeKind
  split
  · exact ⟨rfl, rfl, fun h => absurd h Bool.false_ne_true⟩
  · exact .refl _

/-- A write cycle at a device: the device receives the byte (R46). -/
def writesTo (device : Nat → Bool) (c : BusCycle) : Bool := c.kind.isWrite && device c.addr

section
variable {l q : List BusCycle} (h : List.Forall₂ SameCycle l q) (device : Nat → Bool)

include h

/-- Whether some cycle touches a device other than plainly is the same in both records (R61). -/
theorem any_touches :
    l.any (fun c => !c.kind.plain && device c.addr) = q.any (fun c => !c.kind.plain && device c.addr) := by
  induction h with
  | nil => rfl
  | cons hcd _ ih => rw [List.any_cons, List.any_cons, ih, hcd.plain, hcd.addr]

/-- The bytes written to devices in the one record are, in order, some of those in the other (R273). -/
theorem sublist_written :
    ((l.filter (writesTo device)).map (fun c => (c.addr, c.byte))).Sublist
      ((q.filter (writesTo device)).map (fun c => (c.addr, c.byte))) := by
  induction h with
  | nil => exact .refl _
  | @cons c d l q hcd _ ih =>
    by_cases hw : writesTo device c = true
    · obtain ⟨hcw, hcdev⟩ := Bool.and_eq_true_iff.mp hw
      obtain ⟨hdw, hbyte⟩ := hcd.written hcw
      have hd : writesTo device d = true := by rw [writesTo, hdw, ← hcd.addr, hcdev, Bool.and_self]
      rw [List.filter_cons_of_pos hw, List.filter_cons_of_pos hd, List.map_cons, List.map_cons, hcd.addr, hbyte]
      exact ih.cons_cons _
    · rw [List.filter_cons_of_neg hw]
      exact ih.trans (((List.sublist_cons_self d q).filter _).map _)

end

namespace Abandoned

variable {m0 : Memory} {u t : State}

theorem exists_eq (h : Abandoned m0 u t) :
    ∃ m b pc, t = { u with mem := m, bus := b, pc := pc, edges := { u.edges with res := true } } := ⟨_, _, _, h.agrees⟩

theorem cfg_eq (h : Abandoned m0 u t) : t.cfg = u.cfg := by
  obtain ⟨_, _, _, rfl⟩ := h.exists_eq
  rfl

theorem driversOff_eq (h : Abandoned m0 u t) : t.driversOff = u.driversOff := by
  obtain ⟨_, _, _, rfl⟩ := h.exists_eq
  rfl

theorem waits_eq (h : Abandoned m0 u t) : t.waits = u.waits := by
  obtain ⟨_, _, _, rfl⟩ := h.exists_eq
  rfl

theorem alone' (h : Abandoned m0 u t) : t.alone := by
  obtain ⟨_, _, _, rfl⟩ := h.exists_eq
  exact h.alone

/-- At the first moment nothing has been inhibited. -/
theorem of_withRes (hres : u.edges.res = false) (ha : u.alone) : Abandoned m0 u (u.withRes true) :=
  ⟨rfl, hres, ha, fun _ => .inr rfl, List.forall₂_same.mpr fun c _ => .refl c⟩

/-- In each run fields change that have no part in what is inhibited. -/
theorem update {u' t' : State} (h : Abandoned m0 u t)
    (ha : t' = { u' with mem := t.mem, bus := t.bus, pc := t'.pc, edges := { u'.edges with res := true } })
    (hm : u'.mem = u.mem := by rfl) (hb : u'.bus = u.bus := by rfl) (hg : u'.gaps = u.gaps := by rfl)
    (he : u'.edges.res = u.edges.res := by rfl) : Abandoned m0 u' t' := by
  have htm : t'.mem = t.mem := by rw [ha]
  have htb : t'.bus = t.bus := by rw [ha]
  refine ⟨by rw [htm, htb]; exact ha, he.trans h.res, fun gap hgap => h.alone gap (by rw [← hg]; exact hgap), ?_, ?_⟩
  · rw [htm, hm]
    exact h.mem
  · rw [htb, hb]
    exact h.bus

/-- PC has no part in what is inhibited; the two runs may read it from different bytes. -/
theorem withPc (h : Abandoned m0 u t) (pc pc' : Word) : Abandoned m0 { u with pc := pc } { t with pc := pc' } := by
  refine ⟨?_, h.res, h.alone, h.mem, h.bus⟩
  obtain ⟨_, _, _, rfl⟩ := h.exists_eq
  rfl

theorem withFlags (h : Abandoned m0 u t) (p : Flags) : Abandoned m0 { u with p := p } { t with p := p } := by
  refine ⟨?_, h.res, h.alone, h.mem, h.bus⟩
  obtain ⟨_, _, _, rfl⟩ := h.exists_eq
  rfl

theorem forall₂_repeated {k : CycleKind} (hk : k.isWrite = false) (a : Word) {s r : State} (hc : r.cfg = s.cfg) (n : Nat) :
    List.Forall₂ SameCycle (r.repeated k a n) (s.repeated k a n) := by
  induction n with
  | zero => exact .nil
  | succ n ih =>
    rw [State.repeated, State.repeated, hc]
    exact .cons (.of_read hk _ _ _) ih

/-- A read inhibits nothing; the bytes the two runs read may differ. -/
theorem busRead (h : Abandoned m0 u t) {k : CycleKind} (hk : k.isWrite = false) (a : Word) :
    Abandoned m0 (busRead k a u).2 (busRead k a t).2 := by
  have hu := (busRead_elapsed k a u).mem_eq h.alone
  have htm := (busRead_elapsed k a t).mem_eq h.alone'
  refine ⟨?_, h.res, (busRead_elapsed k a u).alone h.alone, ?_, ?_⟩
  · obtain ⟨_, _, _, rfl⟩ := h.exists_eq
    rfl
  · rw [htm, hu]
    exact h.mem
  · rw [busRead_snd_bus, busRead_snd_bus, State.beforeRead_bus, State.beforeRead_bus, h.waits_eq, h.cfg_eq]
    exact .cons (.of_read hk _ _ _) (List.rel_append (forall₂_repeated hk a h.cfg_eq _) h.bus)

/-- A write of both runs at an address where the undisturbed one has so far left the old byte. -/
theorem busWrite (h : Abandoned m0 u t) (k : CycleKind) (a : Word) (v : Byte)
    (hold : u.mem.read (u.cfg.busAddr a) = m0.read (u.cfg.busAddr a)) :
    Abandoned m0 (busWrite k a v u) (busWrite k a v t) := by
  have ha : (Machine.busWrite k a v u).alone := alone_of_suffix u _ h.alone (by
    obtain ⟨_, _, _, _, he, hg, -⟩ := busWrite_state k a v u
    rw [he]
    exact hg)
  refine ⟨?_, h.res, ha, fun b => ?_, ?_⟩
  · obtain ⟨_, _, _, rfl⟩ := h.exists_eq
    rfl
  · have hu : (Machine.busWrite k a v u).mem.read b =
        if u.cfg.kindAt (u.cfg.busAddr a) = .ram ∧ u.driversOff = false ∧ u.cfg.busAddr a = b then v
        else u.mem.read b := by
      rw [read_busWrite k a v u h.alone b, inhibits_eq_false u a h.res]
      simp
    rw [hu, read_busWrite k a v t h.alone' b, h.cfg_eq, h.driversOff_eq]
    by_cases hland : u.cfg.kindAt (u.cfg.busAddr a) = .ram ∧ u.driversOff = false ∧ u.cfg.busAddr a = b
    · rw [if_pos hland]
      obtain ⟨-, -, rfl⟩ := hland
      split
      · exact .inr rfl
      · exact .inl ((h.mem _).elim id fun hb => hb.trans hold)
    · rw [if_neg hland, if_neg (fun hc => hland ⟨hc.1, hc.2.1, hc.2.2.2⟩)]
      exact h.mem b
  · have hk : u.beforeWrite.writeKind k a = k := by
      rw [State.writeKind, inhibits_eq_false _ a (by exact h.res)]
      rfl
    rw [busWrite_bus, busWrite_bus, hk, h.cfg_eq]
    exact .cons (sameCycle_writeKind _ k a _ v) h.bus

/-! ## Pushes -/

/-- A push of both runs, at a stack location where the undisturbed one has so far left the old byte. -/
theorem push (h : Abandoned m0 u t) (v : Byte)
    (hold : u.mem.read (256 + u.sp.toNat) = m0.read (256 + u.sp.toNat)) : Abandoned m0 (push v u) (push v t) := by
  have hw := h.busWrite .push (stackAddr u.sp) v (by rw [busAddr_stackAddr]; exact hold)
  obtain ⟨_, _, _, rfl⟩ := h.exists_eq
  exact hw.update rfl

/-- A push changes no other stack location. -/
theorem read_push_other {s : State} (ha : s.alone) (v : Byte) {x : Byte} (hx : x ≠ s.sp) :
    (Machine.push v s).mem.read (256 + x.toNat) = s.mem.read (256 + x.toNat) := by
  show (Machine.busWrite .push (stackAddr s.sp) v s).mem.read _ = _
  rw [read_busWrite _ _ _ _ ha, if_neg]
  rintro ⟨-, -, -, hb⟩
  rw [busAddr_stackAddr] at hb
  exact hx (BitVec.eq_of_toNat_eq (by omega))

/-- S does not come back to itself before 256 pushes. -/
theorem sub_ofNat_ne (x : Byte) {k : Nat} (hk : k < 255) : x - BitVec.ofNat 8 (k + 1) ≠ x := by
  intro h
  have := x.isLt
  have hn := congrArg BitVec.toNat h
  simp [BitVec.toNat_sub] at hn
  omega

/-- Several pushes of both runs: they go to different stack locations (R15). -/
theorem pushAll (bytes : List Byte) (hl : bytes.length ≤ 256) (h : Abandoned m0 u t)
    (hold : ∀ k, k < bytes.length →
      u.mem.read (256 + (u.sp - BitVec.ofNat 8 k).toNat) = m0.read (256 + (u.sp - BitVec.ofNat 8 k).toNat)) :
    Abandoned m0 (pushAll bytes u) (pushAll bytes t) := by
  induction bytes generalizing u t with
  | nil => exact h
  | cons v rest ih =>
    rw [List.length_cons] at hl hold
    have h0 : u.mem.read (256 + u.sp.toNat) = m0.read (256 + u.sp.toNat) := by simpa using hold 0 (by omega)
    refine ih (by omega) (h.push v h0) (fun k hk => ?_)
    rw [push_sp, sub_one_sub_ofNat, read_push_other h.alone v (sub_ofNat_ne u.sp (by omega))]
    exact hold (k + 1) (by omega)

/-! ## The end of a sequence -/

theorem loadVector (h : Abandoned m0 u t) (v : Word) : Abandoned m0 (loadVector v u) (loadVector v t) :=
  ((h.busRead (k := .vector) rfl v).busRead (k := .vector) rfl (v + 1)).withPc _ _

/-- Both runs are diverted, or neither: the free value depends on the time alone (R246). -/
theorem fetchVector (h : Abandoned m0 u t) (v : Word) : Abandoned m0 (fetchVector v u) (fetchVector v t) := by
  have hd : t.diverted = u.diverted := by
    obtain ⟨_, _, _, rfl⟩ := h.exists_eq
    rfl
  unfold Machine.fetchVector
  rw [hd]
  split
  · refine Abandoned.loadVector (h.update ?_) nmiVector
    obtain ⟨_, _, _, rfl⟩ := h.exists_eq
    rfl
  · exact h.loadVector v

theorem takeException (h : Abandoned m0 u t) (hold : u.mem = m0) (ret : Word) (brk : Bool) (vector : Word) :
    Abandoned m0 (takeException ret brk vector u) (takeException ret brk vector t) := by
  have hp := h.pushAll [hiByte ret, loByte ret, u.p.toByte brk] (by simp) (fun _ _ => by rw [hold])
  have htp : t.p = u.p := by
    obtain ⟨_, _, _, rfl⟩ := h.exists_eq
    rfl
  rw [takeException_eq, takeException_eq, htp]
  refine (hp.update ?_).fetchVector vector
  obtain ⟨_, _, _, he⟩ := hp.exists_eq
  rw [he]

theorem advance (h : Abandoned m0 u t) (n : Nat) : Abandoned m0 (advance n u) (advance n t) := h.withPc _ _

/-- R61 looks at the address of a cycle and at whether it is plain, which RES does not change. -/
theorem inexactDevice (h : Abandoned m0 u t) : t.inexactDevice = u.inexactDevice := by
  rw [State.inexactDevice, State.inexactDevice, h.cfg_eq, any_touches h.bus (fun a => decide (u.cfg.kindAt a = .device))]

/-- Where the undisturbed run answers a next state the abandoned one does. -/
theorem finish (h : Abandoned m0 u t) {v : State} (hv : finish u = .next v) :
    ∃ w, finish t = .next w ∧ Abandoned m0 v w := by
  obtain rfl := finish_next u v hv
  refine ⟨t, ?_, h⟩
  unfold Machine.finish at hv ⊢
  rw [h.inexactDevice]
  split
  · rename_i hd
    rw [if_pos hd] at hv
    cases hv
  · rfl

/-- The devices receive, in order, some of the bytes the undisturbed instruction would have written to them (R273). -/
theorem deviceWrites_sublist (h : Abandoned m0 u t) : t.deviceWrites.Sublist u.deviceWrites := by
  unfold State.deviceWrites
  rw [h.driversOff_eq, h.cfg_eq]
  split
  · exact .refl _
  · exact sublist_written h.bus (fun a => decide (u.cfg.kindAt a = .device))

end Abandoned

end Sys2Proof.Machine
end

section
/-!
A fall of RES inside an instruction, second part: every form of a meaning keeps `Abandoned`, and what the end of the step
makes of it (R29, R273).
-/

namespace Sys2Proof.Machine

/-! ## The forms of a meaning -/

/-- Where the undisturbed outcome is a next state so is the other, with the instruction abandoned. -/
def AbandonedOutcome (m0 : Memory) (r q : Result) : Prop := ∀ u, r = .next u → ∃ t, q = .next t ∧ Abandoned m0 u t

theorem Abandoned.outcome {m0 : Memory} {u t : State} (h : Abandoned m0 u t) :
    AbandonedOutcome m0 (Machine.finish u) (Machine.finish t) :=
  fun _ hv => h.finish hv

/-- After reads alone nothing has been inhibited. -/
theorem Elapsed.abandoned {s u : State} (h : Elapsed s u) (hs : s.steady) (m0 : Memory) : Abandoned m0 u (u.withRes true) :=
  .of_withRes (by rw [h.sameSurroundings.edges]; exact hs.2) (h.alone hs.1)

theorem readEffect_gaps {mn : Mnemonic} {e : Byte → State → State} (he : readEffect mn = some e) (v : Byte) (s : State) :
    (e v s).gaps = s.gaps := by
  cases mn with
  | lda | ldx | ldy | adc | sbc | cmp | cpx | cpy | and | eor | ora | bit =>
    cases he
    rfl
  | _ => cases he

section
variable {s : State} (hs : s.steady)

include hs

theorem readInstr_abandoned (src : Source) {mn : Mnemonic} {e : Byte → State → State} (he : readEffect mn = some e) :
    AbandonedOutcome s.mem (readInstr src e s) (readInstr src e (s.withRes true)) := by
  have hr := readSource_elapsed src s
  rw [readInstr_eq, readInstr_eq, readSource_withRes, readEffect_withRes _ _ he]
  refine Abandoned.outcome (Abandoned.advance (.of_withRes ?_ ?_) _)
  · rw [(readEffect_sameSurroundings he _ _).edges, hr.sameSurroundings.edges]
    exact hs.2
  · exact alone_of_suffix _ _ (hr.alone hs.1) (by rw [readEffect_gaps he])

theorem storeInstr_abandoned (m : Addr) (v : Byte) :
    AbandonedOutcome s.mem (storeInstr m v s) (storeInstr m v (s.withRes true)) := by
  have hr := resolve_elapsed .store m s
  rw [storeInstr_eq, storeInstr_eq, storeAddress, storeAddress, resolve_withRes]
  exact (((hr.abandoned hs s.mem).busWrite _ _ v (by rw [hr.mem_eq hs.1])).advance _).outcome

/-- The byte a read-modify-write reads from ram is the old one, so that writing it back changes nothing (R159). -/
theorem rmw_writeBack (m : Addr) (b : Nat) :
    (busWrite (.write false) (storeAddress m s) (rmwOperand m s) (afterOperand m s)).mem.read b = s.mem.read b := by
  have ho := afterOperand_elapsed m s
  rw [read_busWrite _ _ _ _ (ho.alone hs.1), ho.mem_eq hs.1, ho.sameSurroundings.cfg]
  split
  · rename_i hland
    obtain ⟨hram, -, -, rfl⟩ := hland
    exact busRead_memory (resolve_elapsed .store m s) hs.1 (.read false) (storeAddress m s) (.inl hram)
  · rfl

theorem rmwInstr_abandoned (m : Addr) (f : Byte → Flags → ByteAndFlags) :
    AbandonedOutcome s.mem (rmwInstr m f s) (rmwInstr m f (s.withRes true)) := by
  have ha : storeAddress m (s.withRes true) = storeAddress m s := by rw [storeAddress, resolve_withRes, storeAddress]
  have hb : busRead (.read false) (storeAddress m s) (resolve .store m (s.withRes true)).2 =
      (rmwOperand m s, (afterOperand m s).withRes true) := by
    rw [resolve_withRes, busRead_withRes]
    rfl
  have hv : rmwOperand m (s.withRes true) = rmwOperand m s := by rw [rmwOperand, ha, hb]
  have ho : afterOperand m (s.withRes true) = (afterOperand m s).withRes true := by rw [afterOperand, ha, hb]
  have h1 := ((afterOperand_elapsed m s).abandoned hs s.mem).busWrite (.write false) (storeAddress m s)
    (rmwOperand m s) (by rw [(afterOperand_elapsed m s).mem_eq hs.1])
  have h2 := h1.busWrite (.write false) (storeAddress m s) (f (rmwOperand m s) s.p).1 (rmw_writeBack hs m _)
  rw [rmwInstr_eq, rmwInstr_eq, ha, hv, ho]
  exact ((h2.withFlags _).advance _).outcome

theorem impliedInstr_abandoned {e : State → State}
    (he : ∀ u : State, u.steady → Abandoned u.mem (e u) (e (u.withRes true))) :
    AbandonedOutcome s.mem (impliedInstr e s) (impliedInstr e (s.withRes true)) := by
  have hd := discard_elapsed (s.pc + 1) s
  have hu := he (discard (s.pc + 1) s) ⟨hd.alone hs.1, hs.2⟩
  rw [hd.mem_eq hs.1] at hu
  show AbandonedOutcome s.mem (finish (advance 1 (e (discard (s.pc + 1) s))))
    (finish (advance 1 (e (discard (s.pc + 1) (s.withRes true)))))
  rw [discard_withRes]
  exact (hu.advance 1).outcome

theorem impliedEffect_abandoned {mn : Mnemonic} {e : State → State} (he : impliedEffect mn = some e) :
    Abandoned s.mem (e s) (e (s.withRes true)) := by
  have hw : Abandoned s.mem s (s.withRes true) := .of_withRes hs.2 hs.1
  have hd := discard_elapsed (stackAddr s.sp) s
  have hp : State.alone (pull (discard (stackAddr s.sp) s)).2 := (pull_elapsed _).alone (hd.alone hs.1)
  cases mn with
  | tax | tay | tsx | txa | txs | tya | dex | dey | inx | iny | clc | cld | cli | clv | sec | sed | sei | nop =>
    cases he
    exact .of_withRes hs.2 hs.1
  | pha =>
    cases he
    exact hw.push s.a rfl
  | php =>
    cases he
    exact hw.push (s.p.toByte true) rfl
  | pla =>
    cases he
    show Abandoned s.mem (pullA (discard (stackAddr s.sp) s)) (pullA (discard (stackAddr s.sp) (s.withRes true)))
    rw [discard_withRes, pullA_withRes]
    exact .of_withRes hs.2 hp
  | plp =>
    cases he
    show Abandoned s.mem (pullP (discard (stackAddr s.sp) s)) (pullP (discard (stackAddr s.sp) (s.withRes true)))
    rw [discard_withRes, pullP_withRes]
    exact .of_withRes hs.2 hp
  | _ => cases he

theorem branchInstr_abandoned (taken : Bool) (off : Byte) :
    AbandonedOutcome s.mem (branchInstr taken off s) (branchInstr taken off (s.withRes true)) := by
  have hd := discard_elapsed (branchNext s.pc) s
  have hpc : (s.withRes true).pc = s.pc := rfl
  unfold branchInstr
  rw [hpc]
  cases taken with
  | false => exact (((Elapsed.refl s).abandoned hs s.mem).withPc _ _).outcome
  | true =>
    simp only [if_true, discard_withRes]
    cases pageCross (branchNext s.pc) (branchTarget s.pc off) with
    | false => exact ((hd.abandoned hs s.mem).withPc _ _).outcome
    | true => exact (((hd.trans (discard_elapsed _ _)).abandoned hs s.mem).withPc _ _).outcome

theorem execJmpInd_abandoned (ptr : Word) :
    AbandonedOutcome s.mem (execJmpInd ptr s) (execJmpInd ptr (s.withRes true)) := by
  have hc : (s.withRes true).cfg = s.cfg := rfl
  unfold execJmpInd
  rw [hc]
  cases nextOfPointer s.cfg.jmpIndWrap ptr with
  | none =>
    intro u hu
    cases hu
  | some next =>
    simp only [busRead_withRes]
    exact ((((busRead_elapsed .pointer ptr s).trans (busRead_elapsed .pointer next _)).abandoned hs s.mem).withPc
      _ _).outcome

theorem execJsr_abandoned (addr : Word) :
    AbandonedOutcome s.mem (execJsr addr s) (execJsr addr (s.withRes true)) := by
  have hd := discard_elapsed (stackAddr s.sp) s
  have hp := (hd.abandoned hs s.mem).pushAll [hiByte (s.pc + 2), loByte (s.pc + 2)] (by simp)
    (fun _ _ => by rw [hd.mem_eq hs.1])
  have hb := hp.busRead (k := .operand) rfl (s.pc + 2)
  rw [← discard_withRes] at hb
  rw [execJsr_eq, execJsr_eq]
  exact (hb.withPc _ _).outcome

theorem execRts_abandoned : AbandonedOutcome s.mem (execRts s) (execRts (s.withRes true)) := by
  have hu : Elapsed s (discard (stackAddr s.sp) (discard (s.pc + 1) s)) := beforePull_elapsed s
  unfold execRts
  dsimp only
  rw [beforePull_withRes, pullWord_withRes, discard_withRes]
  have hsp : State.steady { s with sp := s.sp + 2 } := ⟨hs.1, hs.2⟩
  exact (((hu.pullWord.trans (discard_elapsed _ _)).abandoned hsp s.mem).withPc _ _).outcome

theorem execRti_abandoned : AbandonedOutcome s.mem (execRti s) (execRti (s.withRes true)) := by
  obtain ⟨p, pc, v, he, hv, -⟩ := returnFromInterrupt_state (beforePull_elapsed s)
  have hr := hv.sameSurroundings
  unfold execRti
  rw [beforePull_withRes, returnFromInterrupt_withRes, he]
  exact Abandoned.outcome (.of_withRes (by rw [show _ = v.edges from rfl, hr.edges]; exact hs.2) (hv.alone hs.1))

theorem execBrk_abandoned : AbandonedOutcome s.mem (execBrk s) (execBrk (s.withRes true)) := by
  have hd := discard_elapsed (s.pc + 1) s
  have ht := (hd.abandoned hs s.mem).takeException (hd.mem_eq hs.1) (s.pc + 2) true irqVector
  rw [← discard_withRes] at ht
  exact ht.outcome

/-- Every instruction's meaning, by its form. -/
theorem exec_abandoned (i : Instr) : AbandonedOutcome s.mem (exec i s) (exec i (s.withRes true)) := by
  cases exec_cases i with
  | reads src e hsrc he hx =>
    rw [hx, hx]
    exact readInstr_abandoned hs src he
  | stores m v ho hv hx =>
    rw [hx, hx, storedByte_congr hv (t := s.withRes true) (s := s) rfl rfl rfl]
    exact storeInstr_abandoned hs m (v s)
  | modifies m f ho hf hx =>
    rw [hx, hx]
    exact rmwInstr_abandoned hs m f
  | accumulator f ho hf hx =>
    rw [hx, hx]
    exact impliedInstr_abandoned hs (fun u hu => .of_withRes hu.2 hu.1)
  | implied e ho he hx =>
    rw [hx, hx]
    exact impliedInstr_abandoned hs (fun u hu => impliedEffect_abandoned hu he)
  | branches off taken ho ht hx =>
    rw [hx, hx]
    exact branchInstr_abandoned hs _ off
  | jumps addr hi =>
    subst hi
    exact (((Elapsed.refl s).abandoned hs s.mem).withPc addr addr).outcome
  | jumpsIndirect ptr hi =>
    subst hi
    exact execJmpInd_abandoned hs ptr
  | calls addr hi =>
    subst hi
    exact execJsr_abandoned hs addr
  | returns hi =>
    subst hi
    exact execRts_abandoned hs
  | breaks hi =>
    subst hi
    exact execBrk_abandoned hs
  | returnsFromInterrupt hi =>
    subst hi
    exact execRti_abandoned hs

end

/-! ## The step -/

/-- After a fall of RES inside the step the line is low (R273). -/
theorem settle_resLow (w : Bool) (t : State) (h : t.edges.res = true) : (settle w t).pins.resLow = true := by
  show (t.pins.resLow || t.edges.res) = true
  rw [h, Bool.or_true]

/-- Settles O52: the instruction fetched with RES falling is the undisturbed one with the fall put in. -/
theorem resetAbandonsAnInstruction : Obligations.ResetAbandonsAnInstruction := by
  intro s s2 u i he hres ha hf hx
  have hfetch := fetch_elapsed _ i s2 hf
  have hsur := fetch_sameSurroundings hf
  have hmem : s2.mem = (sample s).mem := hfetch.mem_eq ha
  have hres2 : s2.edges.res = true := by rw [hsur.edges, hres]
  have hq : (s2.withRes false).steady := ⟨hfetch.alone ha, rfl⟩
  obtain ⟨t, ht, hab⟩ := exec_abandoned hq i u hx
  have hback : (s2.withRes false).withRes true = s2 := s2.withRes_self true hres2
  rw [hback] at ht
  have htres : t.edges.res = true := by rw [hab.agrees]
  refine ⟨_, step_of_exec he hf ht, settle_resLow _ t htres, fun b => ?_, hab.deviceWrites_sublist⟩
  rw [settle_mem, ← hmem]
  exact hab.mem b

end Sys2Proof.Machine
end

section
/-!
The memory rules seen from the bus: what one write leaves to be read (R44, R46), the store that rewrites the next opcode
byte (R56), and the other bus masters (R47, R54, R59).
-/

namespace Sys2Proof.Machine

/-! ## A write of the core -/

/-- Without a fall of RES a write cycle keeps its kind on the record (R29). -/
theorem writeKind_eq_self (s : State) (k : CycleKind) (a : Word) (h : s.edges.res = false) : s.writeKind k a = k := by
  rw [State.writeKind, inhibits_eq_false s a h]
  rfl

/-- The record after a write cycle inside which RES does not fall: the cycle, with the core's byte. -/
theorem busWrite_bus_steady (k : CycleKind) (a : Word) (v : Byte) (s : State) (h : s.edges.res = false) :
    (busWrite k a v s).bus = ⟨k, s.cfg.busAddr a, v⟩ :: s.bus := by
  rw [busWrite_bus, writeKind_eq_self s.beforeWrite k a h]

/-- With the drivers on, a device receives the byte written to it (R46). -/
theorem deviceWrites_busWrite (k : CycleKind) (a : Word) (v : Byte) (s : State) (h : s.edges.res = false)
    (hk : k.isWrite = true) (hdev : s.cfg.kindAt (s.cfg.busAddr a) = .device) (hd : s.driversOff = false) :
    (busWrite k a v s).deviceWrites = (s.cfg.busAddr a, v) :: s.deviceWrites := by
  have hd' : (busWrite k a v s).driversOff = false := hd
  unfold State.deviceWrites
  rw [busWrite_bus_steady k a v s h, busWrite_cfg, hd, hd']
  simp [hk, hdev]

/-- What a write that lands leaves at each internal address (R44, R46). -/
theorem memByte_busWrite_of_lands (k : CycleKind) (a b : Word) (v : Byte) (s : State) (hs : s.steady) (h : s.lands a) :
    (busWrite k a v s).memByte b = if s.cfg.busAddr b = s.cfg.busAddr a then v else s.memByte b := by
  obtain ⟨hram, hd⟩ := h
  unfold State.memByte
  rw [busWrite_cfg, read_busWrite k a v s hs.1]
  simp [hram, hd, inhibits_eq_false s a hs.2, eq_comm]

/-- Settles O7: the memory part by the one rule of a write cycle, the record and the devices by theirs. -/
theorem readAfterWrite : Obligations.ReadAfterWrite := by
  intro s k a b v hs
  refine ⟨memByte_busWrite_of_lands k a b v s hs, fun h => ?_, busWrite_bus_steady k a v s hs.2,
    fun hdev hd hk => deviceWrites_busWrite k a v s hs.2 hk hdev hd⟩
  rw [busWrite_mem_steady (.refl s) hs k a v, memAfterWrite_of_not_lands s a v h]

/-! ## A store and the next fetch -/

/-- A store to the byte that PC comes to point at is what the core reads there next (R56). -/
theorem storeInstr_dataAt_pc (m : Addr) (v : Byte) (s : State) (h : s.cfg.runnable) (hs : s.steady)
    (hl : s.lands (storeAddress m s))
    (ha : s.cfg.busAddr (storeAddress m s) = s.cfg.busAddr (s.pc + BitVec.ofNat 16 (Operand.memory m).length)) :
    ∃ t, storeInstr m v s = .next t ∧ t.dataAt t.pc = v := by
  obtain ⟨mem, c, b, g, ht, hmem⟩ := storeInstr_answers s h m v
  obtain ⟨-, hbyte, -⟩ := hmem hs
  have hram := hl.1
  rw [ha] at hram hbyte
  have hread := dataAt_memory { s with mem := mem, clock := c, bus := b, gaps := g }
    (s.pc + BitVec.ofNat 16 (Operand.memory m).length) (.inl hram)
  exact ⟨_, ht, hread.trans (hbyte hl)⟩

/-- Settles O8: the three families of stores differ in the register stored. -/
theorem storeIsSeenByTheNextFetch : Obligations.StoreIsSeenByTheNextFetch := by
  intro i m s ho h hs hl ha
  rw [Instr.length, ho] at ha
  refine ⟨fun hm => ?_, fun hm => ?_, fun hm => ?_⟩
  · rw [exec_sta i m s ho hm]
    exact storeInstr_dataAt_pc m s.a s h hs hl ha
  · rw [exec_stx i m s ho hm]
    exact storeInstr_dataAt_pc m s.x s h hs hl ha
  · rw [exec_sty i m s ho hm]
    exact storeInstr_dataAt_pc m s.y s h hs hl ha

/-! ## Other bus masters -/

/-- Whether another bus master is let on the bus in the next gap of a read cycle (R47, R54). -/
theorem beforeRead_mem_cons (k : CycleKind) (a : Word) (s : State) (gap : Gap) (rest : List Gap)
    (hg : s.gaps = gap :: rest) :
    (s.beforeRead k a).mem =
      if (s.cfg.member.hasRdy = true ∧ 0 < gap.waits) ∨ s.cfg.sharing = .everyCycle then applyDma s.cfg gap.dma s.mem
      else s.mem := by
  rw [State.beforeRead_mem, State.memShared, State.waits, hg]
  cases hr : s.cfg.member.hasRdy <;> simp

/-- A read of ram or rom delivers the byte that is in memory when the core is let on (R45, R57). -/
theorem busRead_of_isMemory (k : CycleKind) (a : Word) (s : State) (h : s.isMemory a) :
    (busRead k a s).1 = (s.beforeRead k a).mem.read (s.cfg.busAddr a) := by
  rw [busRead_fst, dataAt_memory (s.beforeRead k a) a h]
  rfl

/-- What a write cycle leaves where the platform shares every cycle (R47). -/
theorem busWrite_mem_everyCycle (k : CycleKind) (a : Word) (v : Byte) (s : State) (gap : Gap) (rest : List Gap)
    (hg : s.gaps = gap :: rest) (hc : s.cfg.sharing = .everyCycle) (hr : s.edges.res = false) :
    (busWrite k a v s).mem = State.memAfterWrite { s with mem := applyDma s.cfg gap.dma s.mem } a v := by
  have hm : s.beforeWrite.mem = applyDma s.cfg gap.dma s.mem := by
    rw [State.beforeWrite_mem, State.memShared, hg]
    simp [hc]
  rw [busWrite_mem]
  exact memAfterWrite_congr { s with mem := applyDma s.cfg gap.dma s.mem } s.beforeWrite a v rfl rfl hm hr hr

/-- What a write cycle leaves where other masters come on under RDY alone (R58, R294). -/
theorem busWrite_mem_rdyHalts (k : CycleKind) (a : Word) (v : Byte) (s : State) (hc : s.cfg.sharing = .rdyHalts)
    (hr : s.edges.res = false) :
    (busWrite k a v s).mem = s.memAfterWrite a v ∧ (busWrite k a v s).gaps = s.gaps := by
  have hm : s.beforeWrite.mem = s.mem := by
    rw [State.beforeWrite_mem, State.memShared]
    cases s.gaps <;> simp [hc]
  refine ⟨?_, by rw [busWrite_gaps, State.beforeWrite_gaps, hc]; rfl⟩
  rw [busWrite_mem]
  exact memAfterWrite_congr s s.beforeWrite a v rfl rfl hm hr hr

/-- The two bytes of a word are read from two memories where another master comes on between them (R54). -/
theorem readWord_shared (k : CycleKind) (lo hi : Word) (s : State) (gap : Gap) (rest : List Gap)
    (hg : s.gaps = ⟨0, []⟩ :: gap :: rest) (hrdy : s.cfg.member.hasRdy = true) (hw : 0 < gap.waits)
    (hlo : s.isMemory lo) (hhi : s.isMemory hi) :
    readWord k lo hi s = word ((applyDma s.cfg gap.dma s.mem).read (s.cfg.busAddr hi)) (s.memByte lo) := by
  have hm : (s.beforeRead k lo).mem = s.mem := by
    rw [beforeRead_mem_cons k lo s _ _ hg]
    exact ite_self _
  have hm2 : ((busRead k lo s).2.beforeRead k hi).mem = applyDma s.cfg gap.dma s.mem := by
    rw [beforeRead_mem_cons k hi _ gap rest (by rw [busRead_snd_gaps, hg]; rfl), busRead_snd_mem, hm]
    exact if_pos (.inl ⟨hrdy, hw⟩)
  rw [readWord, busRead_of_isMemory k hi (busRead k lo s).2 hhi, busRead_of_isMemory k lo s hlo, hm, hm2]
  rfl

/-- Settles O57: before a step, in the gap of a read, in the gap of a write, and between the two reads of a pointer. -/
theorem otherBusMastersWriteRam : Obligations.OtherBusMastersWriteRam := by
  refine ⟨fun cfg cells m b => ⟨fun h => ?_, fun h => ?_, ?_⟩, fun s inp rest h => ?_, fun s k a v gap rest hg => ?_,
    fun s k lo hi gap rest hg hrdy hw hlo hhi => readWord_shared k lo hi s gap rest hg hrdy hw hlo hhi⟩
  · exact read_applyDma_other cfg cells m b (.inr h)
  · exact read_applyDma_other cfg cells m b (.inl h)
  · rintro before cell after rfl rfl hafter hram
    exact read_applyDma_last cfg before after cell m hram hafter
  · rw [sample_cons s inp rest h]
    exact ⟨rfl, rfl⟩
  · have hm := beforeRead_mem_cons k a s gap rest hg
    refine ⟨fun hon => ?_, fun hoff => ?_, busWrite_mem_everyCycle k a v s gap rest hg, busWrite_mem_rdyHalts k a v s⟩
    · rw [if_pos hon] at hm
      exact ⟨hm, fun ha => by rw [busRead_of_isMemory k a s ha, hm]⟩
    · rw [if_neg hoff] at hm
      exact ⟨hm, fun ha => by rw [busRead_of_isMemory k a s ha, hm, State.memByte]⟩

end Sys2Proof.Machine
end

section
/-!
How a meaning ends (R61, R181, R247). Every instruction ends in one state, whose `finish` is its outcome, but for JMP
(indirect) at the end of a page; and BUS_EXACT has no part in that state (`exec_finishes`). So BUS_EXACT decides only
whether `finish` refuses, and on a runnable platform it never does.
-/

namespace Sys2Proof.Machine

/-! ## BUS_EXACT has no part in what the cycles do -/

/-- The state on the same platform but for BUS_EXACT. -/
def State.withExact (s : State) (b : Bool) : State := { s with cfg := { s.cfg with busExact := b } }

@[simp] theorem State.withExact_pc (s : State) (b : Bool) : (s.withExact b).pc = s.pc := rfl
@[simp] theorem State.withExact_sp (s : State) (b : Bool) : (s.withExact b).sp = s.sp := rfl
@[simp] theorem State.withExact_p (s : State) (b : Bool) : (s.withExact b).p = s.p := rfl
@[simp] theorem State.withExact_jmpIndWrap (s : State) (b : Bool) :
    (s.withExact b).cfg.jmpIndWrap = s.cfg.jmpIndWrap := rfl

section
variable (s : State) (b : Bool)

theorem repeated_withExact (k : CycleKind) (a : Word) (n : Nat) :
    (s.withExact b).repeated k a n = s.repeated k a n := by
  induction n with
  | zero => rfl
  | succ n ih =>
    rw [State.repeated, State.repeated, ih]
    rfl

theorem busRead_withExact (k : CycleKind) (a : Word) :
    busRead k a (s.withExact b) = ((busRead k a s).1, (busRead k a s).2.withExact b) := by
  have hr : (s.withExact b).beforeRead k a = (s.beforeRead k a).withExact b := by
    have hw : (s.withExact b).waits = s.waits := rfl
    unfold State.beforeRead
    rw [repeated_withExact, hw]
    rfl
  unfold busRead
  rw [hr]
  rfl

theorem busWrite_withExact (k : CycleKind) (a : Word) (v : Byte) :
    busWrite k a v (s.withExact b) = (busWrite k a v s).withExact b := rfl

theorem discard_withExact (a : Word) : discard a (s.withExact b) = (discard a s).withExact b := by
  rw [discard, busRead_withExact]
  rfl

theorem advance_withExact (n : Nat) : advance n (s.withExact b) = (advance n s).withExact b := rfl

theorem push_withExact (v : Byte) : push v (s.withExact b) = (push v s).withExact b := rfl

theorem pushAll_withExact (bytes : List Byte) : pushAll bytes (s.withExact b) = (pushAll bytes s).withExact b := by
  induction bytes generalizing s with
  | nil => rfl
  | cons v rest ih => exact ih (push v s)

theorem pull_withExact : pull (s.withExact b) = ((pull s).1, (pull s).2.withExact b) :=
  busRead_withExact { s with sp := s.sp + 1 } b .pull (stackAddr (s.sp + 1))

theorem pullWord_withExact : pullWord (s.withExact b) = ((pullWord s).1, (pullWord s).2.withExact b) := by
  simp only [pullWord, pull_withExact]

theorem loadVector_withExact (v : Word) : loadVector v (s.withExact b) = (loadVector v s).withExact b := by
  unfold loadVector
  simp only [busRead_withExact]
  rfl

/-- A diverted sequence is diverted under both values (R246). -/
theorem fetchVector_withExact (v : Word) : fetchVector v (s.withExact b) = (fetchVector v s).withExact b := by
  have hd : (s.withExact b).diverted = s.diverted := rfl
  unfold fetchVector
  rw [hd]
  split
  · exact loadVector_withExact
      { s with nmiPending := false, edges := { s.edges with nmi := false }, pins := { s.pins with nmiLow := true } } b _
  · exact loadVector_withExact s b v

theorem takeException_withExact (ret : Word) (brk : Bool) (vector : Word) :
    takeException ret brk vector (s.withExact b) = (takeException ret brk vector s).withExact b := by
  rw [takeException_eq, takeException_eq, State.withExact_p, pushAll_withExact]
  exact fetchVector_withExact
    { pushAll [hiByte ret, loByte ret, s.p.toByte brk] s with p := { s.p with i := true }, heldI := none } b vector

theorem returnFromInterrupt_withExact :
    returnFromInterrupt (s.withExact b) = (returnFromInterrupt s).withExact b := by
  have hp : ∀ p, ({ (pull s).2.withExact b with p := p } : State) = State.withExact { (pull s).2 with p := p } b :=
    fun _ => rfl
  simp only [returnFromInterrupt, pull_withExact, hp, pullWord_withExact]
  rfl

/-! ## Operands and effects -/

theorem zeroPagePointer_withExact (z : Byte) :
    zeroPagePointer z (s.withExact b) = ((zeroPagePointer z s).1, (zeroPagePointer z s).2.withExact b) := by
  simp only [zeroPagePointer, busRead_withExact]

theorem resolveIndexed_withExact (use : Use) (base : Word) (idx : Byte) :
    resolveIndexed use base idx (s.withExact b) =
      ((resolveIndexed use base idx s).1, (resolveIndexed use base idx s).2.withExact b) := by
  unfold resolveIndexed
  dsimp only
  split
  · rw [discard_withExact]
  · rfl

theorem resolve_withExact (use : Use) (m : Addr) :
    resolve use m (s.withExact b) = ((resolve use m s).1, (resolve use m s).2.withExact b) := by
  cases m with
  | zeroPage z => rfl
  | zeroPageX z => exact congrArg (fun u => (zeroPage (z + s.x), u)) (discard_withExact s b _)
  | zeroPageY z => exact congrArg (fun u => (zeroPage (z + s.y), u)) (discard_withExact s b _)
  | absolute w => rfl
  | absoluteX base => exact resolveIndexed_withExact s b use base s.x
  | absoluteY base => exact resolveIndexed_withExact s b use base s.y
  | indirectX z =>
    show zeroPagePointer (z + s.x) (discard (zeroPage z) (s.withExact b)) = _
    rw [discard_withExact, zeroPagePointer_withExact]
    rfl
  | indirectY z =>
    show resolveIndexed use (zeroPagePointer z (s.withExact b)).1 s.y (zeroPagePointer z (s.withExact b)).2 = _
    rw [zeroPagePointer_withExact, resolveIndexed_withExact]
    rfl

theorem readSource_withExact (src : Source) :
    readSource src (s.withExact b) = ((readSource src s).1, (readSource src s).2.withExact b) := by
  cases src with
  | imm v => rfl
  | mem m =>
    show busRead _ (resolve .load m (s.withExact b)).1 (resolve .load m (s.withExact b)).2 = _
    rw [resolve_withExact, busRead_withExact]
    rfl

theorem readEffect_withExact {mn : Mnemonic} {e : Byte → State → State} (he : readEffect mn = some e) (v : Byte) :
    e v (s.withExact b) = (e v s).withExact b := by
  cases mn with
  | lda | ldx | ldy | adc | sbc | cmp | cpx | cpy | and | eor | ora | bit =>
    cases he
    rfl
  | _ => cases he

theorem impliedEffect_withExact {mn : Mnemonic} {e : State → State} (he : impliedEffect mn = some e) :
    e (s.withExact b) = (e s).withExact b := by
  cases mn with
  | tax | tay | tsx | txa | txs | tya | dex | dey | inx | iny | clc | cld | cli | clv | sec | sed | sei | nop | pha
  | php =>
    cases he
    rfl
  | pla =>
    cases he
    show pullA (discard (stackAddr s.sp) (s.withExact b)) = _
    rw [discard_withExact, pullA_eq, pull_withExact]
    rfl
  | plp =>
    cases he
    show pullP (discard (stackAddr s.sp) (s.withExact b)) = _
    rw [discard_withExact, pullP_eq, pull_withExact]
    rfl
  | _ => cases he

end

/-! ## The one state an instruction ends in -/

/-- Under both values of BUS_EXACT the outcome is the `finish` of one state. -/
def Finishes (f : State → Result) (s : State) : Prop :=
  ∃ u : State, ∀ b, f (s.withExact b) = finish (u.withExact b)

theorem impliedInstr_finishes (e : State → State) (he : ∀ s b, e (State.withExact s b) = (e s).withExact b) (s : State) :
    Finishes (impliedInstr e) s := by
  refine ⟨advance 1 (e (discard (s.pc + 1) s)), fun b => ?_⟩
  rw [impliedInstr, State.withExact_pc, discard_withExact, he, advance_withExact]

theorem readInstr_finishes (src : Source) {mn : Mnemonic} {e : Byte → State → State} (he : readEffect mn = some e)
    (s : State) : Finishes (readInstr src e) s := by
  refine ⟨advance src.length (e (readSource src s).1 (readSource src s).2), fun b => ?_⟩
  rw [readInstr_eq, readSource_withExact, readEffect_withExact _ b he, advance_withExact]

theorem storeInstr_finishes (m : Addr) (v : Byte) (s : State) : Finishes (storeInstr m v) s := by
  refine ⟨advance (Operand.memory m).length
    (busWrite (.write (isPlainMode m)) (storeAddress m s) v (resolve .store m s).2), fun b => ?_⟩
  rw [storeInstr_eq, storeAddress, resolve_withExact, busWrite_withExact, advance_withExact, storeAddress]

theorem rmwInstr_finishes (m : Addr) (f : Byte → Flags → ByteAndFlags) (s : State) : Finishes (rmwInstr m f) s := by
  refine ⟨advance (Operand.memory m).length
    { busWrite (.write false) (storeAddress m s) (f (rmwOperand m s) s.p).1
        (busWrite (.write false) (storeAddress m s) (rmwOperand m s) (afterOperand m s))
      with p := (f (rmwOperand m s) s.p).2 }, fun b => ?_⟩
  have ha : storeAddress m (s.withExact b) = storeAddress m s := by rw [storeAddress, resolve_withExact, storeAddress]
  have hr : busRead (.read false) (storeAddress m s) (resolve .store m (s.withExact b)).2 =
      (rmwOperand m s, (afterOperand m s).withExact b) := by
    rw [resolve_withExact, busRead_withExact]
    rfl
  have hv : rmwOperand m (s.withExact b) = rmwOperand m s := by rw [rmwOperand, ha, hr]
  have ho : afterOperand m (s.withExact b) = (afterOperand m s).withExact b := by rw [afterOperand, ha, hr]
  rw [rmwInstr_eq, ha, hv, ho, busWrite_withExact, busWrite_withExact]
  exact congrArg finish rfl

theorem branchInstr_finishes (taken : Bool) (off : Byte) (s : State) : Finishes (branchInstr taken off) s := by
  cases taken with
  | false => exact ⟨{ s with pc := branchNext s.pc }, fun b => rfl⟩
  | true =>
    cases hp : pageCross (branchNext s.pc) (branchTarget s.pc off) with
    | false =>
      refine ⟨{ discard (branchNext s.pc) s with pc := branchTarget s.pc off }, fun b => ?_⟩
      simp only [branchInstr, State.withExact_pc, hp, if_true, discard_withExact]
      rfl
    | true =>
      refine ⟨{ discard (word (hiByte (branchNext s.pc)) (loByte (branchTarget s.pc off)))
        (discard (branchNext s.pc) s) with pc := branchTarget s.pc off }, fun b => ?_⟩
      simp only [branchInstr, State.withExact_pc, hp, if_true, discard_withExact]
      rfl

/-- JMP (indirect), where NextOf finds an address (R181). -/
theorem execJmpInd_finishes (ptr next : Word) (s : State) (h : nextOfPointer s.cfg.jmpIndWrap ptr = some next) :
    Finishes (execJmpInd ptr) s := by
  refine ⟨{ (busRead .pointer next (busRead .pointer ptr s).2).2 with pc := readWord .pointer ptr next s }, fun b => ?_⟩
  simp only [execJmpInd, State.withExact_jmpIndWrap, h, busRead_withExact]
  rfl

theorem execJsr_finishes (addr : Word) (s : State) : Finishes (execJsr addr) s := by
  refine ⟨{ (busRead .operand (s.pc + 2)
      (pushAll [hiByte (s.pc + 2), loByte (s.pc + 2)] (discard (stackAddr s.sp) s))).2 with
    pc := word (busRead .operand (s.pc + 2)
      (pushAll [hiByte (s.pc + 2), loByte (s.pc + 2)] (discard (stackAddr s.sp) s))).1 (loByte addr) }, fun b => ?_⟩
  rw [execJsr_eq, State.withExact_pc, State.withExact_sp, discard_withExact,
    pushAll_withExact, busRead_withExact]
  rfl

/-- The two reads with which a pull begins. -/
theorem beforePull_withExact (s : State) (b : Bool) :
    discard (stackAddr (s.withExact b).sp) (discard ((s.withExact b).pc + 1) (s.withExact b)) =
      (discard (stackAddr s.sp) (discard (s.pc + 1) s)).withExact b := by
  rw [discard_withExact, discard_withExact]
  rfl

theorem execRts_finishes (s : State) : Finishes execRts s := by
  refine ⟨{ discard (pullWord (discard (stackAddr s.sp) (discard (s.pc + 1) s))).1
      (pullWord (discard (stackAddr s.sp) (discard (s.pc + 1) s))).2 with
    pc := (pullWord (discard (stackAddr s.sp) (discard (s.pc + 1) s))).1 + 1 }, fun b => ?_⟩
  simp only [execRts, pullWord_withExact, discard_withExact]
  rfl

theorem execRti_finishes (s : State) : Finishes execRti s :=
  ⟨_, fun b => by rw [execRti, beforePull_withExact, returnFromInterrupt_withExact]⟩

theorem execBrk_finishes (s : State) : Finishes execBrk s :=
  ⟨_, fun b => by
    rw [execBrk, State.withExact_pc, discard_withExact, takeException_withExact]⟩

/-- JMP (indirect) is refused exactly where NextOf finds nothing (R85, R181). -/
theorem nextOfPointer_eq_none_iff (wrap : JmpIndWrap) (ptr : Word) :
    nextOfPointer wrap ptr = none ↔ wrap = .refuse ∧ loByte ptr = 0xFF := by
  unfold nextOfPointer
  split_ifs with hp
  · cases wrap <;> simp [hp]
  · exact ⟨False.elim, fun h => absurd h.2 hp⟩

/-- Every instruction ends in one state, but for the jump that R181 lets a platform refuse. -/
theorem exec_finishes (i : Instr) (s : State) :
    Finishes (exec i) s ∨ (∃ ptr, i = .jmpInd ptr ∧ nextOfPointer s.cfg.jmpIndWrap ptr = none) := by
  cases exec_cases i with
  | reads src e hs he hx =>
    rw [funext hx]
    exact .inl (readInstr_finishes src he s)
  | stores m v ho hv hx =>
    obtain ⟨u, hu⟩ := storeInstr_finishes m (v s) s
    refine .inl ⟨u, fun b => ?_⟩
    rw [hx, storedByte_congr hv (t := s.withExact b) (s := s) rfl rfl rfl, hu]
  | modifies m f ho hf hx =>
    rw [funext hx]
    exact .inl (rmwInstr_finishes m f s)
  | accumulator f ho hf hx =>
    rw [funext hx]
    exact .inl (impliedInstr_finishes _ (fun _ _ => rfl) s)
  | implied e ho he hx =>
    rw [funext hx]
    exact .inl (impliedInstr_finishes e (fun s b => impliedEffect_withExact s b he) s)
  | branches off taken ho ht hx =>
    obtain ⟨u, hu⟩ := branchInstr_finishes (taken s.p) off s
    exact .inl ⟨u, fun b => (hx _).trans (hu b)⟩
  | jumps addr hi =>
    subst hi
    exact .inl ⟨{ s with pc := addr }, fun b => rfl⟩
  | jumpsIndirect ptr hi =>
    subst hi
    cases hn : nextOfPointer s.cfg.jmpIndWrap ptr with
    | none => exact .inr ⟨ptr, rfl, hn⟩
    | some next => exact .inl (execJmpInd_finishes ptr next s hn)
  | calls addr hi =>
    subst hi
    exact .inl (execJsr_finishes addr s)
  | returns hi =>
    subst hi
    exact .inl (execRts_finishes s)
  | breaks hi =>
    subst hi
    exact .inl (execBrk_finishes s)
  | returnsFromInterrupt hi =>
    subst hi
    exact .inl (execRti_finishes s)

/-- With BUS_EXACT the end of a sequence is never refused (R61). -/
theorem finish_withExact_true (u : State) : finish (u.withExact true) = .next (u.withExact true) :=
  finish_runnable _ (.inl rfl)

/-- The state an instruction ends in, with the platform it began on: under the platform's own value of BUS_EXACT and with
BUS_EXACT = true. -/
theorem exec_finishes_or_jumpRefused (i : Instr) (s : State) :
    (∃ u, u.cfg = s.cfg ∧ exec i s = finish u ∧ exec i (s.withExact true) = .next (u.withExact true)) ∨
    (jumpRefused i s = true ∧ ∃ ptr, i = .jmpInd ptr ∧ exec i s = .refused (.jumpPointerAtPageEnd ptr) ∧
      exec i (s.withExact true) = .refused (.jumpPointerAtPageEnd ptr)) := by
  rcases exec_finishes i s with ⟨u, hu⟩ | ⟨ptr, rfl, hn⟩
  · have ht := (hu true).trans (finish_withExact_true u)
    have hc := congrArg (fun cfg : Config => { cfg with busExact := s.cfg.busExact }) (exec_preserves ht).cfg
    exact .inl ⟨u.withExact s.cfg.busExact, hc, hu s.cfg.busExact, ht⟩
  · have hj : jumpRefused (.jmpInd ptr) s = true := by
      obtain ⟨hw, hp⟩ := (nextOfPointer_eq_none_iff _ _).mp hn
      simp [jumpRefused, Instr.operand, hw, hp]
    have hx : ∀ b, exec (.jmpInd ptr) (s.withExact b) = .refused (.jumpPointerAtPageEnd ptr) := fun b => by
      show execJmpInd ptr (s.withExact b) = _
      unfold execJmpInd
      rw [State.withExact_jmpIndWrap, hn]
    exact .inr ⟨hj, ptr, rfl, hx s.cfg.busExact, hx true⟩

/-! ## The statements -/

/-- The one refusal at the end of a sequence, and its condition (R61). -/
theorem finish_refused {u : State} {why : Refusal} (h : finish u = .refused why) :
    why = .deviceNeedsBusExact ∧ u.cfg.busExact = false := by
  rcases finish_cases u with hf | hf
  · rw [hf] at h
    cases h
  · rw [hf] at h
    cases h
    refine ⟨rfl, Bool.eq_false_iff.mpr fun he => ?_⟩
    rw [finish_runnable u (.inl he)] at hf
    cases hf

/-- Settles O58: an instruction ends in the `finish` of a state, or is the jump that R181 refuses. -/
theorem everyInstructionCompletes : Obligations.EveryInstructionCompletes := by
  intro i s
  rcases exec_finishes_or_jumpRefused i s with ⟨u, hc, hx, -⟩ | ⟨hj, ptr, rfl, hx, -⟩
  · rw [hx]
    refine ⟨fun hr _ => ⟨u, finish_runnable u (by rw [hc]; exact hr)⟩, fun why hw => .inr ?_, fun f hf => ?_⟩
    · rw [← hc]
      exact finish_refused hw
    · cases f
  · rw [hx]
    refine ⟨fun _ hn => absurd hj (by rw [hn]; exact Bool.false_ne_true), fun why hw => .inl ?_, fun f hf => ?_⟩
    · cases hw
      exact ⟨hj, ptr, rfl, rfl⟩
    · cases f

/-- Settles O60: both values of BUS_EXACT end in one state, and with false `finish` looks at the record of its cycles. -/
theorem busExactDecidesOnlyTheRefusal : Obligations.BusExactDecidesOnlyTheRefusal := by
  intro i s t hb ht
  rcases exec_finishes_or_jumpRefused i s with ⟨u, hc, hx, hx'⟩ | ⟨-, _, -, -, hx'⟩
  · obtain rfl : u.withExact true = t := by
      injection hx'.symm.trans ht
    have hu : ({ u.withExact true with cfg := s.cfg } : State) = u := by
      rw [← hc]
      rfl
    rw [hx, hu, finish, State.inexactDevice, hc, hb]
    rfl
  · cases hx'.symm.trans ht

end Sys2Proof.Machine
end

section
/-!
A 6512 with its data bus drivers off (R60): whatever the core writes, memory keeps its bytes.
-/

namespace Sys2Proof.Machine

/-- With the drivers off a write changes nothing (R60). -/
theorem memAfterWrite_of_driversOff (s : State) (a : Word) (v : Byte) (h : s.driversOff = true) :
    s.memAfterWrite a v = s.mem :=
  memAfterWrite_of_not_lands s a v fun hl => Bool.false_ne_true (hl.2.symm.trans h)

/-- Nor do several pushes. -/
theorem memAfterPushes_of_driversOff (bytes : List Byte) (s : State) (h : s.driversOff = true) :
    memAfterPushes bytes s = s.mem := by
  induction bytes generalizing s with
  | nil => rfl
  | cons v rest ih =>
    exact (ih { s with mem := s.memAfterWrite (stackAddr s.sp) v, sp := s.sp - 1 } h).trans
      (memAfterWrite_of_driversOff s (stackAddr s.sp) v h)

/-- A store in a step of the core's own, with the drivers off. -/
theorem AnswersStoring.mem_eq {r : Result} {t u : State} {a : Word} {v : Byte} (h : AnswersStoring r t a v)
    (hr : r = .next u) (ht : t.steady) (hd : t.driversOff = true) : u.mem = t.mem := by
  obtain ⟨m, c, b, g, hx, hm⟩ := h
  obtain ⟨-, -, hlost⟩ := hm ht
  injection hx.symm.trans hr with hu
  rw [← hu]
  exact hlost fun hl => Bool.false_ne_true (hl.2.symm.trans hd)

theorem readEffect_mem {mn : Mnemonic} {e : Byte → State → State} (he : readEffect mn = some e) (v : Byte) (s : State) :
    (e v s).mem = s.mem := by
  cases mn with
  | lda | ldx | ldy | adc | sbc | cmp | cpx | cpy | and | eor | ora | bit =>
    cases he
    rfl
  | _ => cases he

/-- A push in a step of the core's own, with the drivers off. -/
theorem push_mem_of_driversOff (v : Byte) (s : State) (hs : s.steady) (hd : s.driversOff = true) :
    (push v s).mem = s.mem :=
  ((push_elapsed (.refl s) hs v).mem_eq hs.1).trans (memAfterWrite_of_driversOff s _ v hd)

theorem impliedEffect_mem_of_driversOff {mn : Mnemonic} {e : State → State} (he : impliedEffect mn = some e) (s : State)
    (hs : s.steady) (hd : s.driversOff = true) : (e s).mem = s.mem := by
  have hr := discard_elapsed (stackAddr s.sp) s
  cases mn with
  | tax | tay | tsx | txa | txs | tya | dex | dey | inx | iny | clc | cld | cli | clv | sec | sed | sei | nop =>
    cases he
    rfl
  | pha | php =>
    cases he
    exact push_mem_of_driversOff _ s hs hd
  | pla | plp =>
    cases he
    exact (pull_mem_eq _ (hr.alone hs.1)).trans (hr.mem_eq hs.1)
  | _ => cases he

theorem impliedInstr_mem_eq {s t : State} {e : State → State} (h : impliedInstr e s = .next t)
    (hs : s.steady) (hd : s.driversOff = true) (he : ∀ u : State, u.steady → u.driversOff = true → (e u).mem = u.mem) :
    t.mem = s.mem := by
  obtain ⟨u, hu, rfl⟩ := impliedInstr_reaches s t e h
  have hsur := hu.sameSurroundings
  have hdu : u.driversOff = true := by rw [State.driversOff, hsur.cfg, hsur.pins]; exact hd
  rw [advance_mem, he u ⟨hu.alone hs.1, by rw [hsur.edges]; exact hs.2⟩ hdu, hu.mem_eq hs.1]

/-- Every instruction's meaning, by its form: in a step of the core's own with the drivers off memory stays (R60). -/
theorem exec_mem_of_driversOff {i : Instr} {s t : State} (h : exec i s = .next t) (hr : s.cfg.runnable) (hs : s.steady)
    (hd : s.driversOff = true) : t.mem = s.mem := by
  cases exec_cases i with
  | reads src e hsrc he hx =>
    rw [hx] at h
    obtain ⟨u, hu, rfl⟩ := readInstr_reaches s t src e h
    rw [advance_mem, readEffect_mem he, hu.mem_eq hs.1]
  | stores m v ho hv hx => exact (storeInstr_answers s hr m (v s)).mem_eq ((hx s).symm.trans h) hs hd
  | modifies m f ho hf hx => exact (rmwInstr_answers s hr m f).mem_eq ((hx s).symm.trans h) hs hd
  | accumulator f ho hf hx =>
    rw [hx] at h
    exact impliedInstr_mem_eq h hs hd fun _ _ _ => rfl
  | implied e ho he hx =>
    rw [hx] at h
    exact impliedInstr_mem_eq h hs hd (impliedEffect_mem_of_driversOff he)
  | branches off taken ho ht hx =>
    rw [hx] at h
    obtain ⟨u, hu, rfl⟩ := branchInstr_reaches s t (taken s.p) off h
    exact hu.mem_eq hs.1
  | jumps addr hi =>
    subst hi
    rw [finish_next _ t h]
  | jumpsIndirect ptr hi =>
    subst hi
    obtain ⟨u, pc, hu, rfl⟩ := execJmpInd_reaches s t ptr h
    exact hu.mem_eq hs.1
  | calls addr hi =>
    subst hi
    have hp := pushAll_elapsed [hiByte (s.pc + 2), loByte (s.pc + 2)] (discard_elapsed (stackAddr s.sp) s) hs
    rw [show exec (.jsr addr) s = execJsr addr s from rfl, execJsr_eq] at h
    rw [finish_next _ t h]
    exact ((hp.trans (busRead_elapsed .operand (s.pc + 2) _)).mem_eq hs.1).trans (memAfterPushes_of_driversOff _ s hd)
  | returns hi =>
    subst hi
    obtain ⟨u, pc, hu, rfl⟩ := execRts_reaches s t h
    exact hu.mem_eq hs.1
  | breaks hi =>
    subst hi
    obtain ⟨hm, -⟩ := takeException_steady (s.pc + 2) true irqVector (discard_elapsed (s.pc + 1) s) hs
    rw [finish_next _ t h, hm, memAfterPushes_of_driversOff _ s hd]
  | returnsFromInterrupt hi =>
    subst hi
    obtain ⟨u, p, pc, hu, rfl⟩ := execRti_reaches s t h
    exact hu.mem_eq hs.1

/-- DBE is the 6512's pin alone (R3, R60). -/
theorem driversOff_iff (s : State) : s.driversOff = true ↔ s.cfg.member = .m6512 ∧ s.pins.dbeLow = true := by
  unfold State.driversOff
  cases s.cfg.member <;> simp [Member.hasDbe]

/-- Settles O9: the instruction completes by O58, and every form of a meaning leaves memory alone. -/
theorem dbeLowLosesWrites : Obligations.DbeLowLosesWrites := by
  intro i s
  refine ⟨driversOff_iff s, fun hd hr hs hj => ?_⟩
  obtain ⟨hcompletes, -⟩ := everyInstructionCompletes i s
  obtain ⟨t, ht⟩ := hcompletes hr hj
  exact ⟨t, ht, exec_mem_of_driversOff ht hr hs hd⟩

end Sys2Proof.Machine
end

section
/-!
The fetch from memory (R62, R71): the bytes at PC, the instruction they decode to, and the cycles that takes; then the step
that runs it (R236, R237).
-/

namespace Sys2Proof.Machine

/-! ## The cycles of a fetch -/

/-- The cycles that fetch the operand bytes of a form: one for each, but JSR's third byte comes late (R183, R293). -/
def operandCycles (op : Byte) : Form → Nat
  | .bare _ => 0
  | .byte _ => 1
  | .addr _ => if op = jsrOpcode then 1 else 2

/-- Every instruction that a form builds is fetched in as many cycles as the form is. -/
def FetchCyclesFit (op : Byte) : Form → Prop
  | .bare i => fetchCycles i = 1 + operandCycles op (.bare i)
  | .byte f => ∀ v, fetchCycles (f v) = 1 + operandCycles op (.byte f)
  | .addr f => ∀ w, fetchCycles (f w) = 1 + operandCycles op (.addr f)

/-- The opcode matrix, row by row (R87). -/
theorem opcodeMatrix_fetchCyclesFit : ∀ row ∈ opcodeMatrix, FetchCyclesFit (BitVec.ofNat 8 row.1) row.2 := by
  simp only [opcodeMatrix, opcodeRow0, opcodeRow1, opcodeRow2, opcodeRow3, opcodeRow4, opcodeRow5, opcodeRow6, opcodeRow7,
    opcodeRow8, opcodeRow9, opcodeRowA, opcodeRowB, opcodeRowC, opcodeRowD, opcodeRowE, opcodeRowF, List.cons_append,
    List.nil_append, List.forall_mem_cons, List.not_mem_nil, false_implies, implies_true, and_true, FetchCyclesFit]
  and_intros <;> intros <;> rfl

theorem formOf_fetchCyclesFit {op : Byte} {form : Form} (h : formOf op = some form) : FetchCyclesFit op form := by
  obtain ⟨before, after, hrows, -⟩ := List.lookup_eq_some_iff.mp h
  have hmem : (op.toNat, form) ∈ opcodeMatrix := by
    rw [hrows]
    exact List.mem_append_right _ List.mem_cons_self
  have hfit := opcodeMatrix_fetchCyclesFit _ hmem
  rwa [BitVec.ofNat_toNat, BitVec.setWidth_eq] at hfit

/-- The cycles of the bytes that have been decoded (R293). -/
theorem fetchCycles_of_decode {op : Byte} {form : Form} {bytes left : List Byte} {i : Instr} (hf : formOf op = some form)
    (hd : decode (op :: bytes) = .ok (i, left)) : fetchCycles i = 1 + operandCycles op form := by
  have hfit := formOf_fetchCyclesFit hf
  rcases decode_ok_cases op bytes i left hd with ⟨hf', -⟩ | ⟨f, b1, hf', -, rfl⟩ | ⟨f, b1, b2, hf', -, rfl⟩
  · obtain rfl := Option.some.inj (hf.symm.trans hf')
    exact hfit
  · obtain rfl := Option.some.inj (hf.symm.trans hf')
    exact hfit b1
  · obtain rfl := Option.some.inj (hf.symm.trans hf')
    exact hfit (word b2 b1)

theorem busRead_clock_noGaps (k : CycleKind) (a : Word) (s : State) (h : s.gaps = []) :
    (busRead k a s).2.clock = s.clock + 1 := by
  rw [busRead_snd_clock, waits_nil s h, Nat.add_zero]

theorem busRead_gaps_nil (k : CycleKind) (a : Word) (s : State) (h : s.gaps = []) : (busRead k a s).2.gaps = [] := by
  rw [busRead_snd_gaps, h, List.tail_nil]

theorem fetchOperands_clock (op : Byte) (form : Form) (s : State) (h : s.gaps = []) :
    (fetchOperands op form.operandBytes s).2.clock = s.clock + operandCycles op form := by
  have h1 := busRead_clock_noGaps .operand (s.pc + 1) s h
  cases form with
  | bare i => rfl
  | byte f => exact h1
  | addr f =>
    by_cases hop : op = jsrOpcode
    · simp only [Form.operandBytes, fetchOperands, operandCycles, hop, if_true]
      exact h1
    · simp only [Form.operandBytes, fetchOperands, operandCycles, hop, if_false]
      rw [busRead_clock_noGaps .operand (s.pc + 2) _ (busRead_gaps_nil .operand (s.pc + 1) s h), h1]

/-! ## The bytes of a fetch -/

/-- Addresses wrap (R43), so the successor may be taken first. -/
theorem add_ofNat_succ (a : Word) (k : Nat) : a + BitVec.ofNat 16 (k + 1) = a + 1 + BitVec.ofNat 16 k := by
  rw [Nat.add_comm, BitVec.ofNat_add, ← BitVec.add_assoc]
  rfl

theorem bytesAt_succ (s : State) (a : Word) (n : Nat) :
    s.bytesAt a (n + 1) = s.memByte a :: s.bytesAt (a + 1) n := by
  simp only [State.bytesAt, List.range_succ_eq_map, List.map_cons, List.map_map, Function.comp_def, Nat.succ_eq_add_one,
    add_ofNat_succ, BitVec.add_zero]

theorem take_bytesAt (s : State) (a : Word) {k n : Nat} (h : k ≤ n) : (s.bytesAt a n).take k = s.bytesAt a k := by
  rw [State.bytesAt, ← List.map_take, List.take_range, Nat.min_eq_left h, State.bytesAt]

/-- The decoder looks at as many operand bytes as the form has (R70, R71). -/
theorem decode_take {op : Byte} {form : Form} {bytes left : List Byte} {i : Instr} (hf : formOf op = some form)
    (hd : decode (op :: bytes) = .ok (i, left)) :
    form.operandBytes ≤ bytes.length ∧ decode (op :: bytes.take form.operandBytes) = .ok (i, []) := by
  rcases decode_ok_cases op bytes i left hd with ⟨hf', -⟩ | ⟨f, b1, hf', rfl, rfl⟩ | ⟨f, b1, b2, hf', rfl, rfl⟩
  · obtain rfl := Option.some.inj (hf.symm.trans hf')
    exact ⟨Nat.zero_le _, decode_bare op i [] hf⟩
  · obtain rfl := Option.some.inj (hf.symm.trans hf')
    exact ⟨by simp [Form.operandBytes], decode_byte op b1 f [] hf⟩
  · obtain rfl := Option.some.inj (hf.symm.trans hf')
    exact ⟨by simp [Form.operandBytes], decode_addr op b1 b2 f [] hf⟩

/-- In a step of the core's own the operand bytes fetched are memory's (R45, R62). -/
theorem fetchOperands_memory {s u : State} (op : Byte) (form : Form) (h : Elapsed s u) (ha : s.alone)
    (hm : ∀ k, k < form.operandBytes → s.isMemory (s.pc + 1 + BitVec.ofNat 16 k)) :
    (fetchOperands op form.operandBytes u).1 = s.bytesAt (s.pc + 1) form.operandBytes := by
  have hpc : u.pc = s.pc := by
    obtain ⟨_, _, _, _, rfl, -⟩ := h
    rfl
  have h1 : ∀ hk : 0 < form.operandBytes, (busRead .operand (s.pc + 1) u).1 = s.memByte (s.pc + 1) := fun hk =>
    busRead_memory h ha .operand (s.pc + 1) (by simpa using hm 0 hk)
  cases form with
  | bare i => rfl
  | byte f =>
    show [(busRead .operand (u.pc + 1) u).1] = _
    rw [hpc, h1 Nat.zero_lt_one, Form.operandBytes, bytesAt_succ]
    rfl
  | addr f =>
    have e2 : s.pc + 1 + 1 = s.pc + 2 := by rw [BitVec.add_assoc]; rfl
    have hm2 : s.isMemory (s.pc + 2) := by
      rw [← e2]
      exact hm 1 Nat.one_lt_two
    have hu := h.trans (busRead_elapsed .operand (s.pc + 1) u)
    have h2 := busRead_memory hu ha .operand (s.pc + 2) hm2
    have hlook : (busRead .operand (s.pc + 1) u).2.dataAt (s.pc + 2) = s.memByte (s.pc + 2) := by
      obtain ⟨c, b, g, he, -⟩ := hu.state ha
      rw [he]
      exact dataAt_memory { s with clock := c, bus := b, gaps := g } (s.pc + 2) hm2
    have hbytes : s.bytesAt (s.pc + 1) 2 = [s.memByte (s.pc + 1), s.memByte (s.pc + 2)] := by
      rw [bytesAt_succ, bytesAt_succ, e2]
      rfl
    have h1 := h1 Nat.zero_lt_two
    by_cases hop : op = jsrOpcode
    · simp only [Form.operandBytes, fetchOperands, hop, if_true, hpc, h1, hlook, hbytes]
    · simp only [Form.operandBytes, fetchOperands, hop, if_false, hpc, h1, h2, hbytes]

/-- The bytes of memory at PC are fetched and decoded, one cycle for each where there are no gaps (R62, R71). -/
theorem fetch_of_decode {s : State} {n : Nat} {i : Instr} {rest : List Byte} (ha : s.alone)
    (hm : ∀ k, k < n → s.isMemory (s.pc + BitVec.ofNat 16 k)) (hd : decode (s.bytesAt s.pc n) = .ok (i, rest)) :
    ∃ s2, fetch s = .ok (i, s2) ∧ (s.gaps = [] → s2.clock = s.clock + fetchCycles i) := by
  cases n with
  | zero => cases hd
  | succ n =>
    rw [bytesAt_succ] at hd
    have hop : (busRead .opcode s.pc s).1 = s.memByte s.pc :=
      busRead_memory (.refl s) ha .opcode s.pc (by simpa using hm 0 n.succ_pos)
    cases hf : formOf (s.memByte s.pc) with
    | none =>
      rw [decode_undefined _ _ hf] at hd
      cases hd
    | some form =>
      obtain ⟨hlen, htake⟩ := decode_take hf hd
      have hn : form.operandBytes ≤ n := by simpa [State.bytesAt] using hlen
      rw [take_bytesAt s _ hn] at htake
      have hbytes := fetchOperands_memory (s.memByte s.pc) form (busRead_elapsed .opcode s.pc s) ha fun k hk => by
        have hk' := hm (k + 1) (by omega)
        rwa [add_ofNat_succ] at hk'
      refine ⟨(fetchOperands (s.memByte s.pc) form.operandBytes (busRead .opcode s.pc s).2).2, ?_, fun hg => ?_⟩
      · unfold fetch
        simp only [hop, hf, hbytes, htake]
      · rw [fetchOperands_clock _ form _ (busRead_gaps_nil _ _ s hg), busRead_clock_noGaps _ _ s hg,
          fetchCycles_of_decode hf hd, Nat.add_assoc]

/-! ## The step -/

/-- Settles O5: at a boundary that calls for an instruction the step is the fetch, then the meaning. -/
theorem stepRunsTheDecodedInstruction : Obligations.StepRunsTheDecodedInstruction := by
  intro s n i rest s1 he ha hm hd
  obtain ⟨s2, hf, hclock⟩ := fetch_of_decode (s := { s1 with heldI := none }) ha hm hd
  obtain ⟨m, c, b, g, rfl, hg, hmem, -⟩ := fetch_elapsed _ i s2 hf
  obtain rfl := hmem ha
  refine ⟨c, b, g, ?_, hg, fun hnil => (hclock hnil).trans (by rw [← sample_clock s])⟩
  rw [step_instruction s he, runInstruction_of_fetch _ i _ hf]

/-! ## A step without gaps and edges -/

theorem push_gaps_suffix (v : Byte) (s : State) : (push v s).gaps <:+ s.gaps := by
  obtain ⟨_, _, _, he, hg, -⟩ := push_state v s
  rw [he]
  exact hg

theorem impliedEffect_gaps_suffix {mn : Mnemonic} {e : State → State} (he : impliedEffect mn = some e) (s : State) :
    (e s).gaps <:+ s.gaps := by
  cases mn with
  | tax | tay | tsx | txa | txs | tya | dex | dey | inx | iny | clc | cld | cli | clv | sec | sed | sei | nop =>
    cases he
    exact List.suffix_refl _
  | pha | php =>
    cases he
    exact push_gaps_suffix _ s
  | pla | plp =>
    cases he
    exact (List.tail_suffix _).trans (List.tail_suffix _)
  | _ => cases he

theorem Elapsed.gaps_suffix {s t : State} (h : Elapsed s t) : t.gaps <:+ s.gaps := by
  obtain ⟨_, _, _, _, rfl, hg, -⟩ := h
  exact hg

/-- The cycles of an instruction use the gaps of the step in order. -/
theorem exec_gaps_suffix {i : Instr} {s t : State} (h : exec i s = .next t) : t.gaps <:+ s.gaps := by
  cases exec_cases i with
  | reads src e hs he hx =>
    rw [hx] at h
    obtain ⟨u, hu, rfl⟩ := readInstr_reaches s t src e h
    rw [advance_gaps, readEffect_gaps he]
    exact hu.gaps_suffix
  | stores m v ho hv hx =>
    rw [hx] at h
    obtain ⟨_, _, _, _, rfl, hg, -⟩ := storeInstr_reaches s t m (v s) h
    exact hg
  | modifies m f ho hf hx =>
    rw [hx] at h
    obtain ⟨_, _, _, _, rfl, hg, -⟩ := rmwInstr_reaches s t m f h
    exact hg
  | accumulator f ho hf hx =>
    rw [hx] at h
    obtain ⟨u, hu, rfl⟩ := impliedInstr_reaches s t _ h
    exact hu.gaps_suffix
  | implied e ho he hx =>
    rw [hx] at h
    obtain ⟨u, hu, rfl⟩ := impliedInstr_reaches s t e h
    exact (impliedEffect_gaps_suffix he u).trans hu.gaps_suffix
  | branches off taken ho ht hx =>
    rw [hx] at h
    obtain ⟨u, hu, rfl⟩ := branchInstr_reaches s t (taken s.p) off h
    exact hu.gaps_suffix
  | jumps addr hi =>
    subst hi
    rw [finish_next _ t h]
  | jumpsIndirect ptr hi =>
    subst hi
    obtain ⟨u, pc, hu, rfl⟩ := execJmpInd_reaches s t ptr h
    exact hu.gaps_suffix
  | calls addr hi =>
    subst hi
    obtain ⟨_, _, _, _, _, rfl, hg, -⟩ := execJsr_reaches s t addr h
    exact hg
  | returns hi =>
    subst hi
    obtain ⟨u, pc, hu, rfl⟩ := execRts_reaches s t h
    exact hu.gaps_suffix
  | breaks hi =>
    subst hi
    obtain ⟨_, _, _, _, _, _, _, _, rfl, hg, -⟩ := execBrk_reaches s t h
    exact hg
  | returnsFromInterrupt hi =>
    subst hi
    obtain ⟨u, p, pc, hu, rfl⟩ := execRti_reaches s t h
    exact hu.gaps_suffix

/-- Where a step has neither edges nor gaps, its end changes nothing. -/
theorem settleResult_exec_quiet (w : Bool) (i : Instr) (s : State) (he : s.edges = .quiet) (hg : s.gaps = []) :
    settleResult w (exec i s) = exec i s := by
  cases hx : exec i s with
  | next t =>
    have hedges : t.edges = .quiet := (exec_keeps_latch hx (.inr (by rw [he]; exact Bool.and_false _))).2.trans he
    have hgaps : t.gaps = [] := List.suffix_nil.mp (by rw [← hg]; exact exec_gaps_suffix hx)
    rw [settleResult, settle_quiet w t hedges, ← hgaps]
  | fault f => rfl
  | refused why => rfl

/-- With nothing scripted and no line active the environment only clears the record and the edges and gaps left over. -/
theorem sample_undisturbed {s : State} (h : s.undisturbed) :
    sample s = { s with edges := .quiet, gaps := [], bus := [] } := by
  obtain ⟨hpins, hscript, -, hdue⟩ := h
  have hlow : (s.resetDue || s.pins.resLow) = s.resetDue := by
    rw [hpins]
    exact Bool.or_false _
  rw [sample_nil s hscript, hlow]

/-- Nothing comes before the instruction (R237). -/
theorem eventOf_inactive {s : State} (hpins : s.pins = .inactive) (hnmi : s.nmiPending = false)
    (hdue : s.resetDue = false) : eventOf s = .instruction := by
  simp [eventOf, State.rdyHolds, State.irqAsserted, hpins, hnmi, hdue, Pins.inactive]

/-- Settles O6: the step of O5, with nothing for the environment to do before it or after it. -/
theorem undisturbedStepIsTheInstruction : Obligations.UndisturbedStepIsTheInstruction := by
  intro s n i rest h hm hd
  have hs := sample_undisturbed h
  obtain ⟨hpins, -, hnmi, hdue⟩ := h
  obtain ⟨c, b, g, hstep, hg, hc⟩ := stepRunsTheDecodedInstruction s n i rest
    (by rw [hs]; exact eventOf_inactive hpins hnmi hdue) (by rw [hs]; exact alone_of_noGaps _ rfl)
    (by rw [hs]; exact hm) (by rw [hs]; exact hd)
  rw [hs] at hstep hg hc
  obtain rfl := List.suffix_nil.mp hg
  obtain rfl := hc rfl
  exact ⟨b, hstep.trans (settleResult_exec_quiet _ i _ rfl rfl)⟩

end Sys2Proof.Machine
end

section
/-!
The decoder and the encoder are inverse to each other (R70 to R72, R87 to R89). Every instruction's opcode byte has the form
that builds it; every row of the opcode matrix builds instructions that encode to its opcode byte and their operand bytes;
and the bytes without a row are the undefined ones, which the fetch refuses.
-/

namespace Sys2Proof.Laws

/-! ## From the instruction to the form of its opcode byte -/

/-- The opcode byte of every instruction has the form that builds it (R88). -/
theorem OpcodeForm.statement : ∀ i : Instr, OpcodeForm.Statement i
  | .brk => brk | .oraInx b => oraInx b | .oraZp b => oraZp b | .aslZp b => aslZp b | .php => php
  | .oraImm b => oraImm b | .aslAcc => aslAcc | .oraAbs w => oraAbs w | .aslAbs w => aslAbs w | .bpl b => bpl b
  | .oraIny b => oraIny b | .oraZpx b => oraZpx b | .aslZpx b => aslZpx b | .clc => clc | .oraAby w => oraAby w
  | .oraAbx w => oraAbx w | .aslAbx w => aslAbx w | .jsr w => jsr w | .andInx b => andInx b | .bitZp b => bitZp b
  | .andZp b => andZp b | .rolZp b => rolZp b | .plp => plp | .andImm b => andImm b | .rolAcc => rolAcc
  | .bitAbs w => bitAbs w | .andAbs w => andAbs w | .rolAbs w => rolAbs w | .bmi b => bmi b | .andIny b => andIny b
  | .andZpx b => andZpx b | .rolZpx b => rolZpx b | .sec => sec | .andAby w => andAby w | .andAbx w => andAbx w
  | .rolAbx w => rolAbx w | .rti => rti | .eorInx b => eorInx b | .eorZp b => eorZp b | .lsrZp b => lsrZp b
  | .pha => pha | .eorImm b => eorImm b | .lsrAcc => lsrAcc | .jmpAbs w => jmpAbs w | .eorAbs w => eorAbs w
  | .lsrAbs w => lsrAbs w | .bvc b => bvc b | .eorIny b => eorIny b | .eorZpx b => eorZpx b | .lsrZpx b => lsrZpx b
  | .cli => cli | .eorAby w => eorAby w | .eorAbx w => eorAbx w | .lsrAbx w => lsrAbx w | .rts => rts
  | .adcInx b => adcInx b | .adcZp b => adcZp b | .rorZp b => rorZp b | .pla => pla | .adcImm b => adcImm b
  | .rorAcc => rorAcc | .jmpInd w => jmpInd w | .adcAbs w => adcAbs w | .rorAbs w => rorAbs w | .bvs b => bvs b
  | .adcIny b => adcIny b | .adcZpx b => adcZpx b | .rorZpx b => rorZpx b | .sei => sei | .adcAby w => adcAby w
  | .adcAbx w => adcAbx w | .rorAbx w => rorAbx w | .staInx b => staInx b | .styZp b => styZp b
  | .staZp b => staZp b | .stxZp b => stxZp b | .dey => dey | .txa => txa | .styAbs w => styAbs w
  | .staAbs w => staAbs w | .stxAbs w => stxAbs w | .bcc b => bcc b | .staIny b => staIny b | .styZpx b => styZpx b
  | .staZpx b => staZpx b | .stxZpy b => stxZpy b | .tya => tya | .staAby w => staAby w | .txs => txs
  | .staAbx w => staAbx w | .ldyImm b => ldyImm b | .ldaInx b => ldaInx b | .ldxImm b => ldxImm b
  | .ldyZp b => ldyZp b | .ldaZp b => ldaZp b | .ldxZp b => ldxZp b | .tay => tay | .ldaImm b => ldaImm b
  | .tax => tax | .ldyAbs w => ldyAbs w | .ldaAbs w => ldaAbs w | .ldxAbs w => ldxAbs w | .bcs b => bcs b
  | .ldaIny b => ldaIny b | .ldyZpx b => ldyZpx b | .ldaZpx b => ldaZpx b | .ldxZpy b => ldxZpy b | .clv => clv
  | .ldaAby w => ldaAby w | .tsx => tsx | .ldyAbx w => ldyAbx w | .ldaAbx w => ldaAbx w | .ldxAby w => ldxAby w
  | .cpyImm b => cpyImm b | .cmpInx b => cmpInx b | .cpyZp b => cpyZp b | .cmpZp b => cmpZp b | .decZp b => decZp b
  | .iny => iny | .cmpImm b => cmpImm b | .dex => dex | .cpyAbs w => cpyAbs w | .cmpAbs w => cmpAbs w
  | .decAbs w => decAbs w | .bne b => bne b | .cmpIny b => cmpIny b | .cmpZpx b => cmpZpx b | .decZpx b => decZpx b
  | .cld => cld | .cmpAby w => cmpAby w | .cmpAbx w => cmpAbx w | .decAbx w => decAbx w | .cpxImm b => cpxImm b
  | .sbcInx b => sbcInx b | .cpxZp b => cpxZp b | .sbcZp b => sbcZp b | .incZp b => incZp b | .inx => inx
  | .sbcImm b => sbcImm b | .nop => nop | .cpxAbs w => cpxAbs w | .sbcAbs w => sbcAbs w | .incAbs w => incAbs w
  | .beq b => beq b | .sbcIny b => sbcIny b | .sbcZpx b => sbcZpx b | .incZpx b => incZpx b | .sed => sed
  | .sbcAby w => sbcAby w | .sbcAbx w => sbcAbx w | .incAbx w => incAbx w

end Sys2Proof.Laws

namespace Sys2Proof

/-! ## Decoding an encoded instruction -/

/-- The length of an addressing mode counts the opcode byte and its operand bytes (R70, R71). -/
theorem Operand.length_eq (o : Operand) : o.length = o.bytes.length + 1 := by
  cases o with
  | memory m => cases m <;> rfl
  | implied | accumulator | immediate _ | relative _ | absoluteIndirect _ => rfl

/-- At most two operand bytes follow an opcode byte: formats F1, F2, F3 (R71). -/
theorem Operand.length_bytes_le (o : Operand) : o.bytes.length ≤ 2 := by
  cases o with
  | memory m => cases m <;> simp [Operand.bytes, Addr.bytes]
  | implied | accumulator | immediate _ | relative _ | absoluteIndirect _ => simp [Operand.bytes]

theorem length_encode (i : Instr) : (encode i).length = i.length := (Operand.length_eq i.operand).symm

/-- The decoder reads an encoded instruction back, by the number of its operand bytes (R71). -/
theorem decode_encode (i : Instr) (rest : List Byte) : decode (encode i ++ rest) = .ok (i, rest) := by
  have hform := Laws.OpcodeForm.statement i
  unfold Laws.OpcodeForm.Statement at hform
  unfold encode
  match hb : i.operand.bytes, hform with
  | [], hf => exact decode_bare i.opcode i rest hf
  | [b1], ⟨f, hf, hi⟩ => exact (decode_byte i.opcode b1 f rest hf).trans (by rw [hi])
  | [b1, b2], ⟨f, hf, hi⟩ => exact (decode_addr i.opcode b1 b2 f rest hf).trans (by rw [hi])

/-- Settles O1: the form of the opcode byte rebuilds the instruction, and the length counts the bytes. -/
theorem decodeOfEncodeIsTheInstruction : Obligations.DecodeOfEncodeIsTheInstruction := by
  intro i rest
  have hlength : i.length = i.operand.bytes.length + 1 := i.operand.length_eq
  have hle := i.operand.length_bytes_le
  exact ⟨decode_encode i rest, length_encode i, by omega, by omega⟩

/-- Settles O4, by running the decoder on each byte string. -/
theorem handWrittenBytesDecode : Obligations.HandWrittenBytesDecode :=
  ⟨rfl, rfl, rfl, rfl, rfl, rfl, rfl, rfl, rfl, rfl, rfl, rfl, rfl, rfl⟩

/-! ## Encoding a decoded instruction -/

/-- Every instruction that a form builds encodes to the opcode byte `op` and the operand bytes it was built from. -/
def Form.EncodesTo (op : Byte) : Form → Prop
  | .bare i => encode i = [op]
  | .byte f => ∀ b, encode (f b) = [op, b]
  | .addr f => ∀ w, encode (f w) = [op, loByte w, hiByte w]

/-- The opcode matrix, row by row: R87 and R88 give the same opcode bytes. -/
theorem opcodeMatrix_encodesTo : ∀ row ∈ opcodeMatrix, row.2.EncodesTo (BitVec.ofNat 8 row.1) := by
  simp only [opcodeMatrix, opcodeRow0, opcodeRow1, opcodeRow2, opcodeRow3, opcodeRow4, opcodeRow5, opcodeRow6, opcodeRow7,
    opcodeRow8, opcodeRow9, opcodeRowA, opcodeRowB, opcodeRowC, opcodeRowD, opcodeRowE, opcodeRowF, List.cons_append,
    List.nil_append, List.forall_mem_cons, List.not_mem_nil, false_implies, implies_true, and_true, Form.EncodesTo]
  and_intros <;> intros <;> rfl

/-- A defined opcode byte has a row in the opcode matrix (R87). -/
theorem mem_opcodeMatrix_of_formOf {op : Byte} {form : Form} (h : formOf op = some form) :
    (op.toNat, form) ∈ opcodeMatrix := by
  obtain ⟨before, after, hrows, -⟩ := List.lookup_eq_some_iff.mp h
  rw [hrows]
  exact List.mem_append_right _ List.mem_cons_self

theorem formOf_encodesTo {op : Byte} {form : Form} (h : formOf op = some form) : form.EncodesTo op := by
  have hrow := opcodeMatrix_encodesTo _ (mem_opcodeMatrix_of_formOf h)
  rwa [BitVec.ofNat_toNat, BitVec.setWidth_eq] at hrow

/-- Settles O2, by the form of the opcode byte that was decoded. -/
theorem encodeOfDecodeIsTheBytes : Obligations.EncodeOfDecodeIsTheBytes := by
  intro bytes i rest h
  match bytes with
  | [] => cases h
  | op :: operands =>
    rcases decode_ok_cases op operands i rest h with ⟨hf, rfl⟩ | ⟨f, b1, hf, rfl, rfl⟩ | ⟨f, b1, b2, hf, rfl, rfl⟩
    · have he : encode i = [op] := formOf_encodesTo hf
      rw [he, List.singleton_append]
    · have he : encode (f b1) = [op, b1] := formOf_encodesTo hf b1
      rw [he, List.cons_append, List.singleton_append]
    · have he : encode (f (word b2 b1)) = [op, b1, b2] := by
        simpa using formOf_encodesTo hf (word b2 b1)
      rw [he, List.cons_append, List.cons_append, List.singleton_append]

/-! ## The undefined opcode bytes -/

/-- The bytes of the opcode matrix (R87) and the undefined ones (R89) are all 256 bytes, each once. -/
theorem opcodes_perm :
    (List.range 256).Perm (opcodeMatrix.map Prod.fst ++ Machine.undefinedOpcodes.map BitVec.toNat) := by
  decide +kernel

/-- An opcode byte has no form exactly where it has no row in the matrix (R87). -/
theorem formOf_eq_none_iff_notMem (op : Byte) : formOf op = none ↔ op.toNat ∉ opcodeMatrix.map Prod.fst := by
  simp only [formOf, List.lookup_eq_none_iff, List.mem_map, not_exists, not_and, bne_iff_ne, ne_eq,
    @eq_comm Nat op.toNat]

/-- That is, exactly where R89 lists it. -/
theorem formOf_eq_none_iff (op : Byte) : formOf op = none ↔ op ∈ Machine.undefinedOpcodes := by
  have hmem : op.toNat ∈ opcodeMatrix.map Prod.fst ++ Machine.undefinedOpcodes.map BitVec.toNat :=
    opcodes_perm.mem_iff.mp (List.mem_range.mpr op.isLt)
  have hdisjoint : (opcodeMatrix.map Prod.fst).Disjoint (Machine.undefinedOpcodes.map BitVec.toNat) :=
    List.disjoint_of_nodup_append (opcodes_perm.nodup List.nodup_range)
  rw [formOf_eq_none_iff_notMem, ← List.mem_map_of_injective BitVec.toNat_injective]
  exact ⟨(List.mem_append.mp hmem).resolve_left, fun hu hm => hdisjoint hm hu⟩

/-- Whatever operand bytes follow, a defined opcode byte begins an instruction (R70). -/
theorem exists_decode_of_formOf {op : Byte} {form : Form} (hf : formOf op = some form) (b1 b2 : Byte) :
    ∃ i rest, decode [op, b1, b2] = .ok (i, rest) := by
  cases form with
  | bare i => exact ⟨i, _, decode_bare op i _ hf⟩
  | byte f => exact ⟨f b1, _, decode_byte op b1 f _ hf⟩
  | addr f => exact ⟨f (word b2 b1), _, decode_addr op b1 b2 f _ hf⟩

end Sys2Proof

namespace Sys2Proof.Machine

/-- A fetch that meets an undefined opcode byte is refused by its name (R89). -/
theorem fetch_undefined (s : State) (h : (busRead .opcode s.pc s).1 ∈ undefinedOpcodes) :
    fetch s = .error (.undefinedOpcode (busRead .opcode s.pc s).1) := by
  unfold fetch
  simp only [(formOf_eq_none_iff _).mpr h]

/-- An instruction is refused for what its fetch is refused for. -/
theorem runInstruction_of_fetch_error {s : State} {why : Refusal} (h : fetch { s with heldI := none } = .error why) :
    runInstruction s = .refused why := by
  simp only [runInstruction, h]

/-- Settles O3: the bytes of R89 are those without a form, for the decoder and for the fetch. -/
theorem undefinedOpcodesAreRefused : Obligations.UndefinedOpcodesAreRefused := by
  and_intros
  · intro op rest h
    exact decode_undefined op rest ((formOf_eq_none_iff op).mpr h)
  · intro op b1 b2 h
    obtain ⟨form, hf⟩ := Option.ne_none_iff_exists'.mp (mt (formOf_eq_none_iff op).mp h)
    exact exists_decode_of_formOf hf b1 b2
  · intro s he opcode h
    exact (step_instruction s he).trans (runInstruction_of_fetch_error (fetch_undefined _ h))

end Sys2Proof.Machine
end

section
/-!
The addressing modes (R75 to R82): the address each mode resolves to, as a sum of numbers, and what reading an operand
there leaves alone.
-/

namespace Sys2Proof.Machine

/-! ## Address arithmetic -/

@[simp] theorem toNat_zeroPage (z : Byte) : (zeroPage z).toNat = z.toNat := by
  simp [zeroPage]

/-- The sum of a base and an index is a whole 16-bit sum (R79, R80, R82). -/
@[simp] theorem toNat_indexed (base : Word) (idx : Byte) :
    (indexed base idx).toNat = (base.toNat + idx.toNat) % 65536 := by
  simp [indexed]

/-- Two high bytes are equal when the pages are (R79). -/
theorem hiByte_inj (v w : Word) : hiByte v = hiByte w ↔ v.toNat / 256 = w.toNat / 256 := by
  rw [← BitVec.toNat_inj, toNat_hiByte, toNat_hiByte]

theorem pageCross_iff (base ea : Word) : pageCross base ea = true ↔ ea.toNat / 256 ≠ base.toNat / 256 := by
  rw [pageCross, decide_eq_true_iff, ne_eq, hiByte_inj, eq_comm]

/-! ## Pointers in page zero -/

/-- A byte as an address of page zero (R77). -/
theorem zeroPage_eq_ofNat (z : Byte) : zeroPage z = BitVec.ofNat 16 z.toNat := by
  rw [← toNat_zeroPage, BitVec.ofNat_toNat, BitVec.setWidth_eq]

/-- A pointer in page zero is the word at that byte, its high byte at the next address of page zero (R81, R82). -/
theorem zeroPagePointer_fst (z : Byte) (s : State) :
    (zeroPagePointer z s).1 =
      readWord .pointer (BitVec.ofNat 16 z.toNat) (BitVec.ofNat 16 ((z.toNat + 1) % 256)) s := by
  have hnext : (z + 1).toNat = (z.toNat + 1) % 256 := BitVec.toNat_add z 1
  rw [← hnext, ← zeroPage_eq_ofNat, ← zeroPage_eq_ofNat]
  rfl

/-! ## The address of each mode -/

theorem resolve_indirectX_fst (use : Use) (z : Byte) (s : State) :
    (resolve use (.indirectX z) s).1 =
      readWord .pointer (BitVec.ofNat 16 ((z.toNat + s.x.toNat) % 256))
        (BitVec.ofNat 16 ((z.toNat + s.x.toNat + 1) % 256)) (discard (BitVec.ofNat 16 z.toNat) s) := by
  have hpointer : (z + s.x).toNat = (z.toNat + s.x.toNat) % 256 := BitVec.toNat_add z s.x
  rw [← zeroPage_eq_ofNat, ← Nat.mod_add_mod (z.toNat + s.x.toNat), ← hpointer]
  exact zeroPagePointer_fst (z + s.x) _

theorem resolve_indirectY_fst (use : Use) (z : Byte) (s : State) :
    (resolve use (.indirectY z) s).1 =
      indexed (readWord .pointer (BitVec.ofNat 16 z.toNat) (BitVec.ofNat 16 ((z.toNat + 1) % 256)) s) s.y := by
  rw [← zeroPagePointer_fst]
  exact resolveIndexed_fst use _ s.y _

/-- Settles O10: the sums are sums of bytes. -/
theorem zeroPageModesStayInPageZero : Obligations.ZeroPageModesStayInPageZero := by
  intro use z s i
  refine ⟨toNat_zeroPage z, ?_, ?_, fun h => ?_, fun h => ?_⟩
  · exact (toNat_zeroPage (z + s.x)).trans (BitVec.toNat_add z s.x)
  · exact (toNat_zeroPage (z + s.y)).trans (BitVec.toNat_add z s.y)
  · cases i with
    | ldxZpy zp => exact .inl rfl
    | stxZpy zp => exact .inr rfl
    | _ => cases h
  · rcases h with h | h | h <;> rw [Instr.length, h] <;> rfl

/-- Settles O11: the sums are sums of words, and a page is the high byte. -/
theorem absoluteIndexedIsTheWholeSum : Obligations.AbsoluteIndexedIsTheWholeSum := by
  intro use base s i
  refine ⟨rfl, ?_, ?_, pageCross_iff base, fun h => ?_⟩
  · exact (congrArg BitVec.toNat (resolveIndexed_fst use base s.x s)).trans (toNat_indexed base s.x)
  · exact (congrArg BitVec.toNat (resolveIndexed_fst use base s.y s)).trans (toNat_indexed base s.y)
  · rcases h with h | h | h <;> rw [Instr.length, h] <;> rfl

/-- Settles O12: the pointer is read after a discarded read, which leaves memory's word there. -/
theorem indexedIndirectPointerStaysInPageZero : Obligations.IndexedIndirectPointerStaysInPageZero := by
  intro use z s lo hi
  have hea := resolve_indirectX_fst use z s
  refine ⟨hea, fun ha hlo hhi => ?_, rfl⟩
  rw [hea]
  exact readWord_memory (discard_elapsed _ s) ha .pointer lo hi hlo hhi

/-- Settles O13: Y is added to the whole word of the pointer, which is memory's. -/
theorem indirectIndexedAddsYToTheWholePointer : Obligations.IndirectIndexedAddsYToTheWholePointer := by
  intro use z s lo hi
  have hea : (resolve use (.indirectY z) s).1.toNat = ((readWord .pointer lo hi s).toNat + s.y.toNat) % 65536 := by
    rw [resolve_indirectY_fst, toNat_indexed]
  refine ⟨hea, fun ha hlo hhi => ⟨?_, fun ea => ?_⟩, rfl⟩
  · rw [hea, readWord_memory (.refl s) ha .pointer lo hi hlo hhi, State.memWord, toNat_word]
  · rw [pageCross_iff, ← toNat_hiByte (s.memWord hi lo), State.memWord, hiByte_word]

/-! ## Reading an operand -/

/-- Cycles that pass move nothing but memory, and only another master moves that (R54). -/
theorem Elapsed.eq_with {s t : State} (h : Elapsed s t) :
    t = { s with mem := t.mem, clock := t.clock, bus := t.bus, gaps := t.gaps } := by
  obtain ⟨m, c, b, g, rfl, -⟩ := h
  rfl

theorem Elapsed.agrees {s t : State} (h : Elapsed s t) (ha : s.alone) : s.agrees t := by
  obtain ⟨c, b, g, rfl, -⟩ := h.state ha
  rfl

/-- Settles O14: forming the address and reading there only let cycles pass. -/
theorem readingAnOperandChangesNothing : Obligations.ReadingAnOperandChangesNothing := by
  intro src s t
  have hread : Elapsed s t := readSource_elapsed src s
  refine ⟨hread.eq_with, hread.agrees, ?_, ?_⟩
  · rintro v rfl
    rfl
  · rintro m rfl ha hm
    exact busRead_memory (resolve_elapsed .load m s) ha (.read (isPlainMode m)) _ hm

end Sys2Proof.Machine
end

section
/-!
The accumulator shifts (R155 to R158), as arithmetic on the byte, and the instructions that only move PC: branches (R84,
R170) and jumps (R180, R181).
-/

namespace Sys2Proof.Machine

/-! ## Shifts and rotates -/

/-- Bit 7 is the upper half of the byte's range. -/
theorem getLsbD_seven (v : Byte) : v.getLsbD 7 = decide (128 ≤ v.toNat) := by
  rw [show (128 : Nat) = 2 ^ (8 - 1) from rfl, ← BitVec.msb_eq_decide]
  rfl

/-- Bit 0 says whether the byte is odd. -/
theorem getLsbD_zero (v : Byte) : v.getLsbD 0 = decide (v.toNat % 2 = 1) := by
  rw [BitVec.getLsbD, Nat.testBit_zero]

/-- The flags of a shift are N and Z of its result (R20), and C the bit that leaves. -/
theorem Flags.setNZ_c (p : Flags) (v : Byte) (n c : Bool) (hn : decide (128 ≤ v.toNat) = n) :
    { p.setNZ v with c := c } = { p.ofResult v with n := n, c := c } := by
  rw [Flags.setNZ_eq_ofResult, ← hn]
  rfl

theorem bitVal_le_one (c : Bool) : bitVal c ≤ 1 := by
  cases c <;> decide

theorem shiftLeft_eq (v : Byte) (p : Flags) :
    shiftLeft v p = (BitVec.ofNat 8 (v.toNat * 2),
      { p.ofResult (BitVec.ofNat 8 (v.toNat * 2)) with
        n := decide (64 ≤ v.toNat % 128), c := decide (128 ≤ v.toNat) }) := by
  have hn : decide (128 ≤ (BitVec.ofNat 8 (v.toNat * 2)).toNat) = decide (64 ≤ v.toNat % 128) := by
    rw [BitVec.toNat_ofNat, decide_eq_decide]
    omega
  rw [shiftLeft, getLsbD_seven, Flags.setNZ_c _ _ _ _ hn]

theorem shiftRight_eq (v : Byte) (p : Flags) :
    shiftRight v p = (BitVec.ofNat 8 (v.toNat / 2),
      { p.ofResult (BitVec.ofNat 8 (v.toNat / 2)) with n := false, c := decide (v.toNat % 2 = 1) }) := by
  have hv := v.isLt
  have hn : decide (128 ≤ (BitVec.ofNat 8 (v.toNat / 2)).toNat) = false := by
    rw [BitVec.toNat_ofNat, decide_eq_false_iff_not]
    omega
  rw [shiftRight, getLsbD_zero, Flags.setNZ_c _ _ _ _ hn]

theorem rotateLeft_eq (v : Byte) (p : Flags) :
    rotateLeft v p = (BitVec.ofNat 8 (v.toNat * 2 + bitVal p.c),
      { p.ofResult (BitVec.ofNat 8 (v.toNat * 2 + bitVal p.c)) with
        n := decide (64 ≤ v.toNat % 128), c := decide (128 ≤ v.toNat) }) := by
  have hres : (BitVec.ofNat 8 (v.toNat * 2 % 256 + bitVal p.c) : Byte) = BitVec.ofNat 8 (v.toNat * 2 + bitVal p.c) := by
    apply BitVec.eq_of_toNat_eq
    simp
  have hn : decide (128 ≤ (BitVec.ofNat 8 (v.toNat * 2 + bitVal p.c)).toNat) = decide (64 ≤ v.toNat % 128) := by
    have hc := bitVal_le_one p.c
    rw [BitVec.toNat_ofNat, decide_eq_decide]
    omega
  rw [rotateLeft, hres, getLsbD_seven, Flags.setNZ_c _ _ _ _ hn]

theorem rotateRight_eq (v : Byte) (p : Flags) :
    rotateRight v p = (BitVec.ofNat 8 (v.toNat / 2 + bitVal p.c * 128),
      { p.ofResult (BitVec.ofNat 8 (v.toNat / 2 + bitVal p.c * 128)) with
        n := p.c, c := decide (v.toNat % 2 = 1) }) := by
  have hv := v.isLt
  have hn : decide (128 ≤ (BitVec.ofNat 8 (v.toNat / 2 + bitVal p.c * 128)).toNat) = p.c := by
    cases p.c with
    | false => exact decide_eq_false (by rw [BitVec.toNat_ofNat, show bitVal false = 0 from rfl]; omega)
    | true => exact decide_eq_true (by rw [BitVec.toNat_ofNat, show bitVal true = 1 from rfl]; omega)
  rw [rotateRight, getLsbD_zero, Flags.setNZ_c _ _ _ _ hn]

/-- An operation on the accumulator is an effect on the registers (R74). -/
theorem onRegisters_accumulator (f : Byte → Flags → ByteAndFlags) :
    OnRegisters (fun s => { s with a := (f s.a s.p).1, p := (f s.a s.p).2 }) :=
  ⟨fun _ => rfl, fun _ => rfl, fun _ => rfl, fun _ _ _ _ _ => rfl⟩

/-- An accumulator instruction answers its operation on A and P, and PC moves on (R74). -/
theorem accumulatorInstr_answers {s : State} (h : s.cfg.runnable) {f : Byte → Flags → ByteAndFlags} {res : Byte}
    {p : Flags} (hf : f s.a s.p = (res, p)) :
    Answers (accumulatorInstr f s) { s with a := res, p := p, pc := s.pc + 1 } := by
  have hanswers := impliedInstr_answers s h _ (onRegisters_accumulator f)
  rwa [hf] at hanswers

/-- Settles O28: each operation is one sum on the byte. -/
theorem accumulatorShiftsAndRotates : Obligations.AccumulatorShiftsAndRotates := by
  intro s h v carry becomes
  exact ⟨accumulatorInstr_answers h (shiftLeft_eq s.a s.p), accumulatorInstr_answers h (shiftRight_eq s.a s.p),
    accumulatorInstr_answers h (rotateLeft_eq s.a s.p), accumulatorInstr_answers h (rotateRight_eq s.a s.p)⟩

/-! ## Branches -/

/-- The addend of a branch is its offset, read as a signed byte (R72). -/
theorem signExtend8_eq_ofInt (off : Byte) : signExtend8 off = BitVec.ofInt 16 off.toInt := by
  have hoff := off.isLt
  apply BitVec.eq_of_toNat_eq
  rw [signExtend8, BitVec.toNat_ofNat, BitVec.toNat_ofInt, BitVec.toInt_eq_toNat_cond]
  split <;> omega

/-- The target of a branch is the next instruction's address and the signed offset (R84, R170). -/
theorem branchTarget_eq_ofInt (pc : Word) (off : Byte) :
    branchTarget pc off = BitVec.ofInt 16 (pc.toNat + 2 + off.toInt) := by
  have hnext : branchNext pc = BitVec.ofInt 16 (pc.toNat + 2) := by
    rw [BitVec.ofInt_add, BitVec.ofInt_natCast, BitVec.ofNat_toNat, BitVec.setWidth_eq]
    rfl
  rw [branchTarget, hnext, signExtend8_eq_ofInt, BitVec.ofInt_add (pc.toNat + 2)]

/-- Settles O29: every branch is one shape with its own condition. -/
theorem branchesGoToTheSignedOffset : Obligations.BranchesGoToTheSignedOffset := by
  intro off s h
  have hbranch (taken : Bool) : Answers (branchInstr taken off s)
      { s with pc := if taken then BitVec.ofInt 16 (s.pc.toNat + 2 + off.toInt) else s.pc + 2 } := by
    rw [← branchTarget_eq_ofInt]
    exact branchInstr_answers s h taken off
  simp only [List.forall_mem_cons]
  exact ⟨hbranch (!s.p.c), hbranch s.p.c, hbranch s.p.z, hbranch s.p.n, hbranch (!s.p.z), hbranch (!s.p.n),
    hbranch (!s.p.v), hbranch s.p.v, List.forall_mem_nil _⟩

/-! ## Jumps -/

/-- A pointer lies on the last byte of a page when its low byte is $FF (R181). -/
theorem loByte_eq_ff_iff (ptr : Word) : loByte ptr = 0xFF ↔ ptr.toNat % 256 = 255 := by
  rw [← BitVec.toNat_inj, toNat_loByte]
  rfl

/-- Inside a page the high byte is at the next location (R85). -/
theorem nextOfPointer_inside (wrap : JmpIndWrap) {ptr : Word} (h : ptr.toNat % 256 ≠ 255) :
    nextOfPointer wrap ptr = some (ptr + 1) := by
  simp only [nextOfPointer, mt (loByte_eq_ff_iff ptr).mp h, if_false]

/-- From the last byte of a page, the first byte of the same page is 255 locations back. -/
theorem word_hiByte_zero {ptr : Word} (h : ptr.toNat % 256 = 255) : word (hiByte ptr) 0x00 = ptr - 255 := by
  have hptr := ptr.isLt
  have hzero : (0x00 : Byte).toNat = 0 := rfl
  have hback : (255 : Word).toNat = 255 := rfl
  apply BitVec.eq_of_toNat_eq
  rw [toNat_word, toNat_hiByte, hzero, BitVec.toNat_sub, hback]
  omega

/-- At the end of a page, NextOf under page_wrap (R181, D7). -/
theorem nextOfPointer_pageWrap {ptr : Word} (h : ptr.toNat % 256 = 255) :
    nextOfPointer .pageWrap ptr = some (ptr - 255) := by
  simp only [nextOfPointer, (loByte_eq_ff_iff ptr).mpr h, if_true, word_hiByte_zero h]

/-- Under carry the high byte is at the next location, at the end of a page too (R181). -/
theorem nextOfPointer_carry (ptr : Word) : nextOfPointer .carry ptr = some (ptr + 1) := ite_self _

/-- JMP (indirect) goes to the word whose high byte is where NextOf finds it, and changes nothing else (R85, R180). -/
theorem jmpInd_answers {s : State} (h : s.cfg.runnable) {ptr next : Word}
    (hn : nextOfPointer s.cfg.jmpIndWrap ptr = some next) :
    Answers (exec (.jmpInd ptr) s) { s with pc := readWord .pointer ptr next s } := by
  obtain ⟨u, hx, hu⟩ := execJmpInd_eq s ptr next hn
  refine (hu.withPc _).answers (hx.trans (finish_runnable _ ?_))
  obtain ⟨_, _, _, _, rfl, -⟩ := hu
  exact h

/-- Where NextOf finds nothing the jump is refused (R181). -/
theorem jmpInd_refused {s : State} {ptr : Word} (hn : nextOfPointer s.cfg.jmpIndWrap ptr = none) :
    exec (.jmpInd ptr) s = .refused (.jumpPointerAtPageEnd ptr) := by
  show execJmpInd ptr s = _
  simp only [execJmpInd, hn]

/-- Settles O30: NextOf decides where the high byte is, by the pointer's place in its page and the parameter. -/
theorem jumpsAndTheIndirectPointer : Obligations.JumpsAndTheIndirectPointer := by
  intro addr ptr s h goesTo
  refine ⟨?_, fun hin => ?_, fun hend hw => ?_, fun hend hw => ?_, fun hend hw => ?_⟩
  · exact (Elapsed.refl _).answers (finish_runnable { s with pc := addr } h)
  · exact jmpInd_answers h (nextOfPointer_inside _ hin)
  · exact jmpInd_answers h (by rw [hw, nextOfPointer_pageWrap hend])
  · exact jmpInd_answers h (by rw [hw, nextOfPointer_carry])
  · exact jmpInd_refused ((nextOfPointer_eq_none_iff _ ptr).mpr ⟨hw, (loByte_eq_ff_iff ptr).mpr hend⟩)

end Sys2Proof.Machine
end

section
/-!
Loads, stores and transfers (R101 to R112): each is one shape of instruction with its own effect on the registers.
-/

namespace Sys2Proof.Machine

/-! ## Effects on the registers -/

/-- A reading instruction other than ADC and SBC looks at its operand and the registers alone. In decimal mode those two may
draw flags by the clock (R122, R125). -/
theorem readEffect_onRegisters {mn : Mnemonic} {e : Byte → State → State} (he : readEffect mn = some e)
    (hmn : mn ∉ [.adc, .sbc]) (v : Byte) : OnRegisters (e v) := by
  cases mn with
  | lda | ldx | ldy | cmp | cpx | cpy | and | eor | ora | bit =>
    cases he
    exact ⟨fun _ => rfl, fun _ => rfl, fun _ => rfl, fun _ _ _ _ _ => rfl⟩
  | adc | sbc => exact absurd (by decide) hmn
  | _ => cases he

/-- A one-byte instruction that uses no stack looks at the registers alone. -/
theorem impliedEffect_onRegisters {mn : Mnemonic} {e : State → State} (he : impliedEffect mn = some e)
    (hmn : mn ∉ [.pha, .php, .pla, .plp]) : OnRegisters e := by
  cases mn with
  | tax | tay | tsx | txa | txs | tya | dex | dey | inx | iny | clc | cld | cli | clv | sec | sed | sei | nop =>
    cases he
    exact ⟨fun _ => rfl, fun _ => rfl, fun _ => rfl, fun _ _ _ _ _ => rfl⟩
  | pha | php | pla | plp => exact absurd (by decide) hmn
  | _ => cases he

/-! ## Loads -/

/-- A reading instruction with its effect, and PC past the instruction, in every mode it has. -/
theorem readInstr_answers_length {i : Instr} {src : Source} {s : State} (hs : i.operand.source = some src)
    (h : s.cfg.runnable) {mn : Mnemonic} {e : Byte → State → State} (he : readEffect mn = some e)
    (hmn : mn ∉ [.adc, .sbc]) :
    let t := e (readSource src s).1 s
    Answers (readInstr src e s) { t with pc := t.pc + BitVec.ofNat 16 i.length } := by
  intro t
  rw [← length_of_source i src hs]
  exact readInstr_answers s h src e (readEffect_onRegisters he hmn _)

/-- Settles O15: the three loads differ in the register that takes the operand. -/
theorem loadsTakeTheOperand : Obligations.LoadsTakeTheOperand := by
  intro i src s hs h m next
  rw [← Flags.setNZ_eq_ofResult]
  refine ⟨fun hm => ?_, fun hm => ?_, fun hm => ?_⟩
  · rw [exec_lda i src s hs hm]
    exact readInstr_answers_length hs h (mn := .lda) rfl (by decide)
  · rw [exec_ldx i src s hs hm]
    exact readInstr_answers_length hs h (mn := .ldx) rfl (by decide)
  · rw [exec_ldy i src s hs hm]
    exact readInstr_answers_length hs h (mn := .ldy) rfl (by decide)

/-! ## Stores -/

/-- Settles O16: the three stores differ in the register whose byte is written. -/
theorem storesWriteOneByte : Obligations.StoresWriteOneByte := by
  intro i m s ho h
  rw [Instr.length, ho]
  have hstore := storeInstr_answers s h m
  refine ⟨fun hm => ?_, fun hm => ?_, fun hm => ?_⟩
  · rw [exec_sta i m s ho hm]
    exact hstore s.a
  · rw [exec_stx i m s ho hm]
    exact hstore s.x
  · rw [exec_sty i m s ho hm]
    exact hstore s.y

/-! ## Transfers -/

/-- A one-byte instruction that uses no stack answers its effect, with PC at the next byte. -/
theorem impliedInstr_answers_effect {s : State} (h : s.cfg.runnable) {mn : Mnemonic} {e : State → State}
    (he : impliedEffect mn = some e) (hmn : mn ∉ [.pha, .php, .pla, .plp]) :
    Answers (impliedInstr e s) { e s with pc := (e s).pc + 1 } :=
  impliedInstr_answers s h e (impliedEffect_onRegisters he hmn)

/-- Settles O17: a transfer is an effect on the registers, and only that of TXS leaves the flags out. -/
theorem transfersMoveOneRegister : Obligations.TransfersMoveOneRegister := by
  intro s h
  simp only [← Flags.setNZ_eq_ofResult]
  exact ⟨impliedInstr_answers_effect h (mn := .tax) rfl (by decide),
    impliedInstr_answers_effect h (mn := .tay) rfl (by decide),
    impliedInstr_answers_effect h (mn := .tsx) rfl (by decide),
    impliedInstr_answers_effect h (mn := .txa) rfl (by decide),
    impliedInstr_answers_effect h (mn := .txs) rfl (by decide),
    impliedInstr_answers_effect h (mn := .tya) rfl (by decide)⟩

end Sys2Proof.Machine
end

section
/-!
Arithmetic (R120 to R135) and the read-modify-write instructions (R130, R133, R155 to R159): what each operation is as a sum
or a difference, and then each instruction by its shape.
-/

namespace Sys2Proof.Machine

/-! ## One's complement and bit 7 -/

theorem xor_ff_eq_not (m : Byte) : m ^^^ 0xFF = ~~~m := BitVec.xor_allOnes

/-- The one's complement of a byte is its distance from 255. -/
theorem toNat_xor_ff (m : Byte) : (m ^^^ 0xFF).toNat = 255 - m.toNat := by
  rw [xor_ff_eq_not, BitVec.toNat_not]

theorem toInt_xor_ff (m : Byte) : (m ^^^ 0xFF).toInt = -m.toInt - 1 := by
  have hm := m.isLt
  rw [BitVec.toInt_eq_toNat_cond, BitVec.toInt_eq_toNat_cond, toNat_xor_ff]
  omega

/-- Bit 7 of a sum modulo 256. -/
theorem testBit_seven (n : Nat) : n.testBit 7 = decide (128 ≤ n % 256) := by
  rw [← BitVec.toNat_ofNat n 8, ← getLsbD_seven, BitVec.getLsbD_ofNat]
  rfl

/-! ## ADC and SBC as one shape -/

/-- A and P after an operation on A and the operand that may draw by the clock (R122, R125). -/
def accumulate (op : Config → Nat → Byte → Byte → Flags → ByteAndFlags) (clock : Nat) (m : Byte) (s : State) : State :=
  { s with a := (op s.cfg clock s.a m s.p).1, p := (op s.cfg clock s.a m s.p).2 }

theorem addWithCarry_eq (m : Byte) (s : State) : addWithCarry m s = accumulate adc s.clock m s := rfl

theorem subtractWithBorrow_eq (m : Byte) (s : State) : subtractWithBorrow m s = accumulate sbc s.clock m s := rfl

/-- At a fixed clock such an operation looks at the registers alone. -/
theorem onRegisters_accumulate (op : Config → Nat → Byte → Byte → Flags → ByteAndFlags) (clock : Nat) (m : Byte) :
    OnRegisters (accumulate op clock m) :=
  ⟨fun _ => rfl, fun _ => rfl, fun _ => rfl, fun _ _ _ _ _ => rfl⟩

section
variable {i : Instr} {src : Source} {s : State} (hs : i.operand.source = some src) (h : s.cfg.runnable)

include hs h

/-- A reading instruction with such an operation answers it, at the clock at which its operand has been read. -/
theorem readInstr_accumulate_answers (op : Config → Nat → Byte → Byte → Flags → ByteAndFlags)
    {e : Byte → State → State} (he : ∀ m t, e m t = accumulate op t.clock m t) :
    ∃ clock, ∀ r p, op s.cfg clock s.a (readSource src s).1 s.p = (r, p) →
      Answers (readInstr src e s) { s with a := r, p := p, pc := s.pc + BitVec.ofNat 16 i.length } := by
  refine ⟨(readSource src s).2.clock, fun r p hop => ?_⟩
  have hread : readInstr src e s = readInstr src (accumulate op (readSource src s).2.clock) s := by
    rw [readInstr_eq, readInstr_eq, he]
  have hanswers := readInstr_answers s h src _ (onRegisters_accumulate op (readSource src s).2.clock _)
  rw [accumulate, hop, length_of_source i src hs] at hanswers
  rw [hread]
  exact hanswers

theorem adc_answers (hm : i.mnemonic = .adc) :
    ∃ clock, ∀ r p, adc s.cfg clock s.a (readSource src s).1 s.p = (r, p) →
      Answers (exec i s) { s with a := r, p := p, pc := s.pc + BitVec.ofNat 16 i.length } := by
  rw [exec_adc i src s hs hm]
  exact readInstr_accumulate_answers hs h adc addWithCarry_eq

theorem sbc_answers (hm : i.mnemonic = .sbc) :
    ∃ clock, ∀ r p, sbc s.cfg clock s.a (readSource src s).1 s.p = (r, p) →
      Answers (exec i s) { s with a := r, p := p, pc := s.pc + BitVec.ofNat 16 i.length } := by
  rw [exec_sbc i src s hs hm]
  exact readInstr_accumulate_answers hs h sbc subtractWithBorrow_eq

end

/-! ## Binary addition and subtraction -/

theorem adcBinary_eq (a m : Byte) (p : Flags) :
    let res : Byte := BitVec.ofNat 8 (a.toNat + m.toNat + bitVal p.c)
    adcBinary a m p = (res, { p.ofResult res with
      c := decide (255 < a.toNat + m.toNat + bitVal p.c), v := ((a ^^^ res) &&& (m ^^^ res)).getLsbD 7 }) := by
  intro res
  rw [adcBinary, Flags.setNZ_eq_ofResult]

theorem adc_of_binary (cfg : Config) (clock : Nat) (a m : Byte) {p : Flags} (hd : p.d = false) :
    adc cfg clock a m p = adcBinary a m p := by
  rw [adc, hd]
  rfl

theorem sbc_of_binary (cfg : Config) (clock : Nat) (a m : Byte) {p : Flags} (hd : p.d = false) :
    sbc cfg clock a m p = adcBinary a (m ^^^ 0xFF) p := by
  rw [sbc, hd]
  rfl

/-- Settles O18: SBC is ADC of the one's complement. -/
theorem binaryAddAndSubtract : Obligations.BinaryAddAndSubtract := by
  intro i src s hs h hd m add
  refine ⟨fun hm => ?_, fun hm => ?_⟩
  · obtain ⟨clock, hanswers⟩ := adc_answers hs h hm
    exact hanswers _ _ ((adc_of_binary _ clock s.a m hd).trans (adcBinary_eq s.a m s.p))
  · obtain ⟨clock, hanswers⟩ := sbc_answers hs h hm
    exact hanswers _ _ ((sbc_of_binary _ clock s.a m hd).trans (adcBinary_eq s.a (m ^^^ 0xFF) s.p))

/-- The sum modulo 256 is that of the signed values too (R120). -/
theorem ofNat_sum_eq_ofInt (a m : Byte) (c : Nat) :
    (BitVec.ofNat 8 (a.toNat + m.toNat + c) : Byte) = BitVec.ofInt 8 (a.toInt + m.toInt + c) := by
  simp only [BitVec.ofInt_add, BitVec.ofInt_toInt, BitVec.ofInt_natCast, BitVec.ofNat_add, BitVec.ofNat_toNat,
    BitVec.setWidth_eq]

/-- Both addends have the other sign than the sum exactly when the signed sum does not fit a byte (R120). -/
theorem overflow_iff (a m : Byte) {c : Nat} (hc : c ≤ 1) :
    let res : Byte := BitVec.ofNat 8 (a.toNat + m.toNat + c)
    ((a ^^^ res) &&& (m ^^^ res)).getLsbD 7 =
      decide (a.toInt + m.toInt + c < -128 ∨ 127 < a.toInt + m.toInt + c) := by
  intro res
  have ha := a.isLt
  have hm := m.isLt
  have hres : res.toNat = (a.toNat + m.toNat + c) % 256 := BitVec.toNat_ofNat _ 8
  rw [BitVec.getLsbD_and, BitVec.getLsbD_xor, BitVec.getLsbD_xor, getLsbD_seven, getLsbD_seven, getLsbD_seven, hres,
    BitVec.toInt_eq_toNat_cond, BitVec.toInt_eq_toNat_cond, Bool.eq_iff_iff]
  simp only [Bool.and_eq_true, bne_iff_ne, ne_eq, decide_eq_decide, decide_eq_true_eq]
  omega

/-- After a binary addition to A: the true result modulo 256, the carry out, and the signed overflow (R120). -/
theorem adcBinary_signed (a m : Byte) (p : Flags) :
    let sum : Int := a.toInt + m.toInt + bitVal p.c
    (adcBinary a m p).1 = BitVec.ofInt 8 sum ∧
    (adcBinary a m p).2.c = decide (255 < a.toNat + m.toNat + bitVal p.c) ∧
    (adcBinary a m p).2.v = decide (sum < -128 ∨ 127 < sum) :=
  ⟨ofNat_sum_eq_ofInt a m _, rfl, overflow_iff a m (bitVal_le_one p.c)⟩

/-- Settles O19: the one's complement of M stands for -M - 1, and the carry for the absence of a borrow. -/
theorem carryIsUnsignedAndOverflowIsSigned : Obligations.CarryIsUnsignedAndOverflowIsSigned := by
  intro i src s hs h hd m c sum diff
  have hc : c ≤ 1 := bitVal_le_one s.p.c
  refine ⟨fun hm => ?_, fun hm => ?_⟩
  · obtain ⟨clock, hanswers⟩ := adc_answers hs h hm
    obtain ⟨_, _, _, _, ht, -⟩ := hanswers _ _ (adc_of_binary _ clock s.a m hd)
    exact ⟨_, ht, adcBinary_signed s.a m s.p⟩
  · obtain ⟨clock, hanswers⟩ := sbc_answers hs h hm
    obtain ⟨_, _, _, _, ht, -⟩ := hanswers _ _ (sbc_of_binary _ clock s.a m hd)
    obtain ⟨hres, hcarry, hover⟩ := adcBinary_signed s.a (m ^^^ 0xFF) s.p
    have hdiff : s.a.toInt + (m ^^^ 0xFF).toInt + (bitVal s.p.c : Nat) = diff := by
      rw [toInt_xor_ff]
      show s.a.toInt + _ + (c : Int) = s.a.toInt - m.toInt - (1 - c : Nat)
      omega
    have hborrow : 255 < s.a.toNat + (m ^^^ 0xFF).toNat + bitVal s.p.c ↔ m.toNat + (1 - c) ≤ s.a.toNat := by
      rw [toNat_xor_ff]
      show 255 < s.a.toNat + _ + c ↔ _
      have := m.isLt
      omega
    rw [hdiff] at hres hover
    rw [decide_eq_decide.mpr hborrow] at hcarry
    exact ⟨_, ht, hres, hcarry, hover⟩

/-! ## Decimal addition and subtraction -/

theorem adc_of_draw {cfg : Config} (hf : cfg.decimalFlags = .draw) (clock : Nat) (a m : Byte) {p : Flags}
    (hd : p.d = true) : adc cfg clock a m p = adcDecimalDraw clock a m p := by
  rw [adc, hd, hf]
  rfl

theorem adc_of_nmosExact {cfg : Config} (hf : cfg.decimalFlags = .nmosExact) (clock : Nat) (a m : Byte) {p : Flags}
    (hd : p.d = true) : adc cfg clock a m p = adcDecimalExact a m p := by
  rw [adc, hd, hf]
  rfl

theorem sbc_of_draw {cfg : Config} (hf : cfg.decimalFlags = .draw) (clock : Nat) (a m : Byte) {p : Flags}
    (hd : p.d = true) : sbc cfg clock a m p = sbcDecimalDraw clock a m p := by
  rw [sbc, hd, hf]
  rfl

theorem sbc_of_nmosExact {cfg : Config} (hf : cfg.decimalFlags = .nmosExact) (clock : Nat) (a m : Byte) {p : Flags}
    (hd : p.d = true) : sbc cfg clock a m p = sbcDecimalExact a m p := by
  rw [sbc, hd, hf]
  rfl

theorem validBcd_iff (b : Byte) : validBcd b = true ↔ b.toNat / 16 ≤ 9 ∧ b.toNat % 16 ≤ 9 := by
  rw [validBcd, Bool.and_eq_true, decide_eq_true_iff, decide_eq_true_iff]

/-- The BCD byte of two decimal digits. -/
theorem toBcd_digits {h d : Nat} (hh : h ≤ 9) (hd : d ≤ 9) : (toBcd (10 * h + d)).toNat = 16 * h + d := by
  rw [toBcd, BitVec.toNat_ofNat]
  omega

/-- R122's correction of the low digits carries into the high ones, as a decimal digit does. -/
theorem lowDigitSum_eq {t : Nat} (ht : t ≤ 19) :
    (if 0x0A ≤ t then (t + 0x06) % 16 + 0x10 else t) = 16 * (t / 10) + t % 10 := by
  split <;> omega

/-- R122's correction of the high digits leaves the sum modulo 100 and carries from 100 on. -/
theorem highDigitSum_eq {h d : Nat} (hh : h ≤ 19) (hd : d ≤ 9) :
    let s' := if 0xA0 ≤ 16 * h + d then 16 * h + d + 0x60 else 16 * h + d
    BitVec.ofNat 8 s' = toBcd ((10 * h + d) % 100) ∧ (0x100 ≤ s' ↔ 99 < 10 * h + d) := by
  intro s'
  rcases Nat.lt_or_ge h 10 with hlt | hge
  · have hs : s' = 16 * h + d := if_neg (by omega)
    have hmod : (10 * h + d) % 100 = 10 * h + d := by omega
    rw [hs, hmod, ← BitVec.toNat_inj, toBcd_digits (by omega) hd, BitVec.toNat_ofNat]
    omega
  · have hs : s' = 16 * h + d + 0x60 := if_pos (by omega)
    have hmod : (10 * h + d) % 100 = 10 * (h - 10) + d := by omega
    rw [hs, hmod, ← BitVec.toNat_inj, toBcd_digits (by omega) hd, BitVec.toNat_ofNat]
    omega

/-- The algorithm of R122 adds decimal digits with their carries. -/
theorem digitSum_eq {ah al mh ml c : Nat} (hah : ah ≤ 9) (hal : al ≤ 9) (hmh : mh ≤ 9) (hml : ml ≤ 9) (hc : c ≤ 1) :
    let low := if 0x0A ≤ al + ml + c then (al + ml + c + 0x06) % 16 + 0x10 else al + ml + c
    let sum := ah * 16 + mh * 16 + low
    let s' := if 0xA0 ≤ sum then sum + 0x60 else sum
    let total := 10 * ah + al + (10 * mh + ml) + c
    BitVec.ofNat 8 s' = toBcd (total % 100) ∧ (0x100 ≤ s' ↔ 99 < total) := by
  intro low sum s' total
  have hlow : low = 16 * ((al + ml + c) / 10) + (al + ml + c) % 10 := lowDigitSum_eq (by omega)
  have hsum : sum = 16 * (ah + mh + (al + ml + c) / 10) + (al + ml + c) % 10 := by omega
  have htotal : total = 10 * (ah + mh + (al + ml + c) / 10) + (al + ml + c) % 10 := by omega
  unfold s'
  rw [hsum, htotal]
  exact highDigitSum_eq (by omega) (by omega)

/-- R125's correction of the low digits borrows from the high ones, as a decimal digit does. -/
theorem lowDigitDiff_eq {t : Int} (hlow : -10 ≤ t) (hhigh : t ≤ 9) :
    (if t < 0 then (t - 0x06) % 16 - 0x10 else t) = 16 * (t / 10) + t % 10 := by
  split <;> omega

/-- R125's correction of the high digits leaves the difference modulo 100. -/
theorem highDigitDiff_eq {h d : Int} (hlow : -10 ≤ h) (hhigh : h ≤ 9) (hd0 : 0 ≤ d) (hd : d ≤ 9) :
    BitVec.ofInt 8 (if 16 * h + d < 0 then 16 * h + d - 0x60 else 16 * h + d) =
      toBcd ((10 * h + d) % 100).toNat := by
  have hmod : ((10 * h + d) % 100).toNat = 10 * (h % 10).toNat + d.toNat := by omega
  apply BitVec.eq_of_toNat_eq
  rw [hmod, toBcd_digits (by omega) (by omega), BitVec.toNat_ofInt]
  split <;> omega

/-- The algorithm of R125 subtracts decimal digits with their borrows. -/
theorem digitDiff_eq {ah al mh ml c : Nat} (hah : ah ≤ 9) (hal : al ≤ 9) (hmh : mh ≤ 9) (hml : ml ≤ 9) (hc : c ≤ 1) :
    let low0 : Int := (al : Int) - ml + c - 1
    let low := if low0 < 0 then (low0 - 0x06) % 16 - 0x10 else low0
    let diff := ((ah * 16 : Nat) : Int) - (mh * 16 : Nat) + low
    let total : Int := ((10 * ah + al : Nat) : Int) - (10 * mh + ml : Nat) - (1 - c : Nat)
    BitVec.ofInt 8 (if diff < 0 then diff - 0x60 else diff) = toBcd (total % 100).toNat := by
  intro low0 low diff total
  have hlow : low = 16 * (low0 / 10) + low0 % 10 := lowDigitDiff_eq (by omega) (by omega)
  have hdiff : diff = 16 * (ah - mh + low0 / 10) + low0 % 10 := by omega
  have htotal : total = 10 * (ah - mh + low0 / 10) + low0 % 10 := by omega
  rw [hdiff, htotal]
  exact highDigitDiff_eq (by omega) (by omega) (by omega) (by omega)

/-- The algorithm of R122 adds valid BCD bytes as decimal numbers. -/
theorem adcDecimalExact_of_validBcd {a m : Byte} (ha : validBcd a = true) (hm : validBcd m = true) (p : Flags) :
    (adcDecimalExact a m p).1 = toBcd ((ofBcd a + ofBcd m + bitVal p.c) % 100) ∧
    (adcDecimalExact a m p).2.c = decide (99 < ofBcd a + ofBcd m + bitVal p.c) := by
  obtain ⟨hah, hal⟩ := (validBcd_iff a).mp ha
  obtain ⟨hmh, hml⟩ := (validBcd_iff m).mp hm
  obtain ⟨hres, hcarry⟩ := digitSum_eq hah hal hmh hml (bitVal_le_one p.c)
  exact ⟨hres, decide_eq_decide.mpr hcarry⟩

/-- The algorithm of R125 subtracts valid BCD bytes as decimal numbers, and the binary borrow is the decimal one. -/
theorem sbcDecimalExact_of_validBcd {a m : Byte} (ha : validBcd a = true) (hm : validBcd m = true) (p : Flags) :
    let diff : Int := (ofBcd a : Int) - ofBcd m - (1 - bitVal p.c : Nat)
    (sbcDecimalExact a m p).1 = toBcd (diff % 100).toNat ∧ (sbcDecimalExact a m p).2.c = decide (0 ≤ diff) := by
  intro diff
  obtain ⟨hah, hal⟩ := (validBcd_iff a).mp ha
  obtain ⟨hmh, hml⟩ := (validBcd_iff m).mp hm
  have hc := bitVal_le_one p.c
  refine ⟨digitDiff_eq hah hal hmh hml hc, decide_eq_decide.mpr ?_⟩
  rw [toNat_xor_ff]
  unfold diff ofBcd
  omega

/-- Decimal ADC of valid BCD bytes, under either choice of DECIMAL_FLAGS (R122). -/
theorem adc_of_validBcd (cfg : Config) (clock : Nat) {a m : Byte} {p : Flags} (hd : p.d = true)
    (ha : validBcd a = true) (hm : validBcd m = true) :
    (adc cfg clock a m p).1 = toBcd ((ofBcd a + ofBcd m + bitVal p.c) % 100) ∧
    (adc cfg clock a m p).2.c = decide (99 < ofBcd a + ofBcd m + bitVal p.c) := by
  cases hf : cfg.decimalFlags with
  | draw =>
    rw [adc_of_draw hf clock a m hd, adcDecimalDraw, ha, hm]
    exact ⟨rfl, rfl⟩
  | nmosExact =>
    rw [adc_of_nmosExact hf clock a m hd]
    exact adcDecimalExact_of_validBcd ha hm p

/-- Decimal SBC of valid BCD bytes, under either choice of DECIMAL_FLAGS (R125). -/
theorem sbc_of_validBcd (cfg : Config) (clock : Nat) {a m : Byte} {p : Flags} (hd : p.d = true)
    (ha : validBcd a = true) (hm : validBcd m = true) :
    let diff : Int := (ofBcd a : Int) - ofBcd m - (1 - bitVal p.c : Nat)
    (sbc cfg clock a m p).1 = toBcd (diff % 100).toNat ∧ (sbc cfg clock a m p).2.c = decide (0 ≤ diff) := by
  cases hf : cfg.decimalFlags with
  | draw =>
    rw [sbc_of_draw hf clock a m hd, sbcDecimalDraw, ha, hm]
    exact ⟨rfl, rfl⟩
  | nmosExact =>
    rw [sbc_of_nmosExact hf clock a m hd]
    exact sbcDecimalExact_of_validBcd ha hm p

/-- A result whose D and I are those before it (R24). -/
theorem eq_of_keeps_d_i {r : ByteAndFlags} {p : Flags} (h : r.2.d = p.d ∧ r.2.i = p.i) :
    r = (r.1, { p with n := r.2.n, v := r.2.v, z := r.2.z, c := r.2.c }) := by
  obtain ⟨hd, hi⟩ := h
  rw [← hd, ← hi]

/-- Settles O20: the digits carry and borrow as those of a decimal number do, under either choice of DECIMAL_FLAGS. -/
theorem decimalAddAndSubtractOfValidBcd : Obligations.DecimalAddAndSubtractOfValidBcd := by
  intro i src s hs h hd m c dec sum diff bcd hah hal hmh hml
  have ha : validBcd s.a = true := (validBcd_iff s.a).mpr ⟨hah, hal⟩
  have hmem : validBcd m = true := (validBcd_iff m).mpr ⟨hmh, hml⟩
  refine ⟨fun hm => ?_, fun hm => ?_⟩
  · obtain ⟨clock, hanswers⟩ := adc_answers hs h hm
    obtain ⟨hres, hcarry⟩ := adc_of_validBcd s.cfg clock hd ha hmem
    have hadc := eq_of_keeps_d_i (adc_keeps_d_i s.cfg clock s.a m s.p)
    rw [hres, hcarry] at hadc
    exact ⟨_, _, _, hanswers _ _ hadc⟩
  · obtain ⟨clock, hanswers⟩ := sbc_answers hs h hm
    obtain ⟨hres, hcarry⟩ := sbc_of_validBcd s.cfg clock hd ha hmem
    have hsbc := eq_of_keeps_d_i (sbc_keeps_d_i s.cfg clock s.a m s.p)
    rw [hres, hcarry] at hsbc
    exact ⟨_, _, _, hanswers _ _ hsbc⟩

/-- The flags of a binary subtraction, as numbers (R125). -/
theorem sbcBinary_flags (a m : Byte) (p : Flags) :
    let bin := a.toNat + (255 - m.toNat) + bitVal p.c
    (sbcBinary a m p).2.c = decide (255 < bin) ∧ (sbcBinary a m p).2.z = decide (bin % 256 = 0) ∧
    (sbcBinary a m p).2.n = decide (128 ≤ bin % 256) ∧
    (sbcBinary a m p).2.v = ((a ^^^ m) &&& (a ^^^ BitVec.ofNat 8 bin)).getLsbD 7 := by
  intro bin
  have hsbc := adcBinary_eq a (m ^^^ 0xFF) p
  rw [toNat_xor_ff] at hsbc
  have hres : (BitVec.ofNat 8 bin : Byte).toNat = bin % 256 := BitVec.toNat_ofNat bin 8
  have hv : ((a ^^^ BitVec.ofNat 8 bin) &&& ((m ^^^ 0xFF) ^^^ BitVec.ofNat 8 bin)).getLsbD 7 =
      ((a ^^^ m) &&& (a ^^^ BitVec.ofNat 8 bin)).getLsbD 7 := by
    rw [xor_ff_eq_not]
    simp only [BitVec.getLsbD_and, BitVec.getLsbD_xor, BitVec.getLsbD_not]
    -- where A and the result differ in bit 7, M agrees with the result exactly when A differs from M
    cases a.getLsbD 7 <;> cases m.getLsbD 7 <;> cases (BitVec.ofNat 8 bin : Byte).getLsbD 7 <;> rfl
  rw [sbcBinary, hsbc, ← hv, ← hres]
  exact ⟨rfl, rfl, rfl, rfl⟩

/-- Settles O21: whatever is drawn, D and I stay; under nmos_exact nothing is drawn. -/
theorem decimalAddAndSubtractAlwaysComplete : Obligations.DecimalAddAndSubtractAlwaysComplete := by
  intro i src s hs h hd hmn m c high low signed
  rcases hmn with hm | hm
  · obtain ⟨clock, hanswers⟩ := adc_answers hs h hm
    refine ⟨_, _, _, _, _, hanswers _ _ (eq_of_keeps_d_i (adc_keeps_d_i s.cfg clock s.a m s.p)), fun hf _ => ?_,
      fun _ hsbc => by rw [hm] at hsbc; cases hsbc⟩
    rw [adc_of_nmosExact hf clock s.a m hd]
    exact ⟨rfl, testBit_seven _, (Bool.decide_or _ _).symm, rfl, rfl⟩
  · obtain ⟨clock, hanswers⟩ := sbc_answers hs h hm
    refine ⟨_, _, _, _, _, hanswers _ _ (eq_of_keeps_d_i (sbc_keeps_d_i s.cfg clock s.a m s.p)),
      ⟨fun _ hadc => (by rw [hm] at hadc; cases hadc), fun hf _ => ?_⟩⟩
    rw [sbc_of_nmosExact hf clock s.a m hd]
    exact ⟨rfl, sbcBinary_flags s.a m s.p⟩

/-! ## Compares and counts -/

/-- C, Z and N of a comparison as those of numbers (R129). -/
theorem compareFlags_eq (r m : Byte) (p : Flags) :
    compareFlags r m p = { p with c := decide (m.toNat ≤ r.toNat), z := decide (r.toNat = m.toNat),
                                  n := decide (128 ≤ (r.toNat + 256 - m.toNat) % 256) } := by
  have hm := m.isLt
  have hsub : (r - m).toNat = (r.toNat + 256 - m.toNat) % 256 := by
    rw [BitVec.toNat_sub]
    omega
  rw [compareFlags, getLsbD_seven, hsub]
  simp only [BitVec.toNat_inj]

/-- Settles O22: the three compares differ in the register. -/
theorem comparesWriteCarryZeroNegative : Obligations.ComparesWriteCarryZeroNegative := by
  intro i src s hs h
  simp only [← compareFlags_eq]
  refine ⟨fun hm => ?_, fun hm => ?_, fun hm => ?_⟩
  · rw [exec_cmp i src s hs hm]
    exact readInstr_answers_length hs h (mn := .cmp) rfl (by decide)
  · rw [exec_cpx i src s hs hm]
    exact readInstr_answers_length hs h (mn := .cpx) rfl (by decide)
  · rw [exec_cpy i src s hs hm]
    exact readInstr_answers_length hs h (mn := .cpy) rfl (by decide)

/-- Settles O23: the four counts are effects on the registers. -/
theorem indexIncrementAndDecrement : Obligations.IndexIncrementAndDecrement := by
  intro s h
  simp only [← Flags.setNZ_eq_ofResult]
  exact ⟨impliedInstr_answers_effect h (mn := .dex) rfl (by decide),
    impliedInstr_answers_effect h (mn := .dey) rfl (by decide),
    impliedInstr_answers_effect h (mn := .inx) rfl (by decide),
    impliedInstr_answers_effect h (mn := .iny) rfl (by decide)⟩

/-! ## The operations of the read-modify-write instructions -/

/-- The result of an operation with N and Z of it (R20) and a given C. -/
def Flags.resultWithCarry (p : Flags) (res : Byte) (c : Bool) : ByteAndFlags := (res, { p.ofResult res with c := c })

theorem increment_eq_resultWithCarry (v : Byte) (p : Flags) : increment v p = p.resultWithCarry (v + 1) p.c := by
  rw [increment, Flags.setNZ_eq_ofResult]
  rfl

theorem decrement_eq_resultWithCarry (v : Byte) (p : Flags) : decrement v p = p.resultWithCarry (v - 1) p.c := by
  rw [decrement, Flags.setNZ_eq_ofResult]
  rfl

theorem shiftLeft_eq_resultWithCarry (v : Byte) (p : Flags) :
    shiftLeft v p = p.resultWithCarry (BitVec.ofNat 8 (v.toNat * 2)) (decide (128 ≤ v.toNat)) := by
  rw [shiftLeft, Flags.setNZ_eq_ofResult, getLsbD_seven]
  rfl

theorem shiftRight_eq_resultWithCarry (v : Byte) (p : Flags) :
    shiftRight v p = p.resultWithCarry (BitVec.ofNat 8 (v.toNat / 2)) (decide (v.toNat % 2 = 1)) := by
  rw [shiftRight, Flags.setNZ_eq_ofResult, getLsbD_zero]
  rfl

theorem rotateLeft_eq_resultWithCarry (v : Byte) (p : Flags) :
    rotateLeft v p = p.resultWithCarry (BitVec.ofNat 8 (v.toNat * 2 + bitVal p.c)) (decide (128 ≤ v.toNat)) := by
  have hres : (BitVec.ofNat 8 (v.toNat * 2 % 256 + bitVal p.c) : Byte) = BitVec.ofNat 8 (v.toNat * 2 + bitVal p.c) :=
    congrArg Prod.fst (rotateLeft_eq v p)
  rw [rotateLeft, hres, Flags.setNZ_eq_ofResult, getLsbD_seven]
  rfl

theorem rotateRight_eq_resultWithCarry (v : Byte) (p : Flags) :
    rotateRight v p =
      p.resultWithCarry (BitVec.ofNat 8 (v.toNat / 2 + bitVal p.c * 128)) (decide (v.toNat % 2 = 1)) := by
  rw [rotateRight, Flags.setNZ_eq_ofResult, getLsbD_zero]
  rfl

/-! ## Read-modify-write instructions -/

/-- The newest entry of the record is the cycle by which the operand has been read (R159). -/
theorem afterOperand_bus (m : Addr) (s : State) :
    (afterOperand m s).bus.take 1 = [⟨.read false, s.cfg.busAddr (storeAddress m s), rmwOperand m s⟩] := by
  rw [← (resolve_elapsed .store m s).sameSurroundings.cfg]
  rfl

/-- Two write cycles inside which RES does not fall are the newest entries of the record. -/
theorem busWrite_busWrite_bus (k : CycleKind) (a : Word) (v w : Byte) (s : State) (h : s.edges.res = false) :
    (busWrite k a w (busWrite k a v s)).bus = ⟨k, s.cfg.busAddr a, w⟩ :: ⟨k, s.cfg.busAddr a, v⟩ :: s.bus := by
  rw [busWrite_bus_steady k a w (busWrite k a v s) h, busWrite_bus_steady k a v s h, busWrite_cfg]

/-- The record of a read-modify-write instruction ends in the read, the write of the old byte and the write of the result
(R159, R293). -/
theorem rmwInstr_bus {s : State} (h : s.cfg.runnable) (hr : s.edges.res = false) (m : Addr)
    (f : Byte → Flags → ByteAndFlags) :
    ∃ t, rmwInstr m f s = .next t ∧
      t.bus.take 3 = [⟨.write false, s.cfg.busAddr (storeAddress m s), (f (rmwOperand m s) s.p).1⟩,
        ⟨.write false, s.cfg.busAddr (storeAddress m s), rmwOperand m s⟩,
        ⟨.read false, s.cfg.busAddr (storeAddress m s), rmwOperand m s⟩] := by
  have hafter := (afterOperand_elapsed m s).sameSurroundings
  refine ⟨_, rmwInstr_next s h m f, ?_⟩
  rw [advance_bus, busWrite_busWrite_bus _ _ _ _ _ (by rw [hafter.edges, hr]), hafter.cfg, List.take_succ_cons,
    List.take_succ_cons, afterOperand_bus]

section
variable {i : Instr} {m : Addr} {s : State} {f : Byte → Flags → ByteAndFlags} {res : Byte} {c : Bool}

/-- A read-modify-write instruction stores the result of its operation and keeps its flags (R159). -/
theorem rmw_stores (ho : i.operand = .memory m) (h : s.cfg.runnable) (hx : exec i s = rmwInstr m f s)
    (hf : f (rmwOperand m s) s.p = s.p.resultWithCarry res c) :
    AnswersStoring (exec i s)
      { s with p := { s.p.ofResult res with c := c }, pc := s.pc + BitVec.ofNat 16 i.length } (storeAddress m s) res := by
  have hanswers := rmwInstr_answers s h m f
  rw [hf] at hanswers
  rw [hx, Instr.length, ho]
  exact hanswers

/-- Its last three bus cycles (R159). -/
theorem rmw_ends (h : s.cfg.runnable) (hr : s.edges.res = false) (hx : exec i s = rmwInstr m f s)
    (hf : f (rmwOperand m s) s.p = s.p.resultWithCarry res c) :
    ∃ t, exec i s = .next t ∧
      t.bus.take 3 = [⟨.write false, s.cfg.busAddr (storeAddress m s), res⟩,
        ⟨.write false, s.cfg.busAddr (storeAddress m s), rmwOperand m s⟩,
        ⟨.read false, s.cfg.busAddr (storeAddress m s), rmwOperand m s⟩] := by
  have hbus := rmwInstr_bus h hr m f
  rwa [hf, ← hx] at hbus

end

/-- Settles O24: the six instructions differ in the operation. -/
theorem readModifyWriteReplacesOneByte : Obligations.ReadModifyWriteReplacesOneByte := by
  intro i m s ho h v carry stores
  exact ⟨fun hm => rmw_stores ho h (exec_inc i m s ho hm) (increment_eq_resultWithCarry v s.p),
    fun hm => rmw_stores ho h (exec_dec i m s ho hm) (decrement_eq_resultWithCarry v s.p),
    fun hm => rmw_stores ho h (exec_asl i m s ho hm) (shiftLeft_eq_resultWithCarry v s.p),
    fun hm => rmw_stores ho h (exec_lsr i m s ho hm) (shiftRight_eq_resultWithCarry v s.p),
    fun hm => rmw_stores ho h (exec_rol i m s ho hm) (rotateLeft_eq_resultWithCarry v s.p),
    fun hm => rmw_stores ho h (exec_ror i m s ho hm) (rotateRight_eq_resultWithCarry v s.p)⟩

/-- Settles O25: the cycles are those of one shape, and the last byte is the operation's. -/
theorem readModifyWriteWritesTwice : Obligations.ReadModifyWriteWritesTwice := by
  intro i m s ho h hr ea v carry ends
  exact ⟨fun hm => rmw_ends h hr (exec_inc i m s ho hm) (increment_eq_resultWithCarry v s.p),
    fun hm => rmw_ends h hr (exec_dec i m s ho hm) (decrement_eq_resultWithCarry v s.p),
    fun hm => rmw_ends h hr (exec_asl i m s ho hm) (shiftLeft_eq_resultWithCarry v s.p),
    fun hm => rmw_ends h hr (exec_lsr i m s ho hm) (shiftRight_eq_resultWithCarry v s.p),
    fun hm => rmw_ends h hr (exec_rol i m s ho hm) (rotateLeft_eq_resultWithCarry v s.p),
    fun hm => rmw_ends h hr (exec_ror i m s ho hm) (rotateRight_eq_resultWithCarry v s.p)⟩

end Sys2Proof.Machine
end

section
/-!
Logic and the bit test (R151 to R154): AND, EOR and ORA are one shape, which takes the bitwise operation of two bytes and the
Boolean operation it is on each bit.
-/

namespace Sys2Proof.Machine

/-! ## AND, EOR, ORA -/

/-- A becomes the result of an operation on A and the operand, and N and Z are the result's (R151, R153, R154). -/
def combine (op : Byte → Byte → Byte) (m : Byte) (s : State) : State :=
  { s with a := op s.a m, p := s.p.setNZ (op s.a m) }

theorem andA_eq_combine : andA = combine (· &&& ·) := rfl

theorem eorA_eq_combine : eorA = combine (· ^^^ ·) := rfl

theorem oraA_eq_combine : oraA = combine (· ||| ·) := rfl

theorem onRegisters_combine (op : Byte → Byte → Byte) (m : Byte) : OnRegisters (combine op m) :=
  ⟨fun _ => rfl, fun _ => rfl, fun _ => rfl, fun _ _ _ _ _ => rfl⟩

/-- An instruction of this shape, by what its operation does to each bit. -/
theorem combine_answers {i : Instr} {src : Source} {s : State} (hs : i.operand.source = some src) (h : s.cfg.runnable)
    {op : Byte → Byte → Byte} (hx : exec i s = readInstr src (combine op) s) {f : Bool → Bool → Bool}
    (hop : ∀ (v w : Byte) (k : Nat), (op v w).getLsbD k = f (v.getLsbD k) (w.getLsbD k)) :
    ∃ res : Byte, (∀ k, k < 8 → res.getLsbD k = f (s.a.getLsbD k) ((readSource src s).1.getLsbD k)) ∧
      Answers (exec i s) { s with a := res, p := s.p.ofResult res, pc := s.pc + BitVec.ofNat 16 i.length } := by
  refine ⟨op s.a (readSource src s).1, fun k _ => hop _ _ k, ?_⟩
  have hanswers := readInstr_answers s h src _ (onRegisters_combine op _)
  rw [combine, Flags.setNZ_eq_ofResult, length_of_source i src hs] at hanswers
  rw [hx]
  exact hanswers

/-- Settles O26: the three instructions differ in the operation. -/
theorem logicWorksBitByBit : Obligations.LogicWorksBitByBit := by
  intro i src s hs h m makes
  refine ⟨fun hm => ?_, fun hm => ?_, fun hm => ?_⟩
  · have hx := exec_and i src s hs hm
    rw [andA_eq_combine] at hx
    exact combine_answers hs h hx fun _ _ _ => BitVec.getLsbD_and
  · have hx := exec_eor i src s hs hm
    rw [eorA_eq_combine] at hx
    exact combine_answers hs h hx fun _ _ _ => BitVec.getLsbD_xor
  · have hx := exec_ora i src s hs hm
    rw [oraA_eq_combine] at hx
    exact combine_answers hs h hx fun _ _ _ => BitVec.getLsbD_or

/-! ## BIT -/

/-- Settles O27: BIT is an effect on the flags alone. -/
theorem bitTestsTheOperand : Obligations.BitTestsTheOperand := by
  intro i src s hs h hm m
  have hflags : bitTest s.a m s.p =
      { s.p with n := m.getLsbD 7, v := m.getLsbD 6, z := decide (s.a &&& m = 0) } := rfl
  rw [exec_bit i src s hs hm, ← hflags]
  exact readInstr_answers_length hs h (mn := .bit) rfl (by decide)

end Sys2Proof.Machine
end

section
/-!
The subroutine call and its return (R183 to R185).
-/

namespace Sys2Proof.Machine

/-! ## Two bytes pushed -/

section
variable {s t : State} {v w : Byte} (h : PushedOnto s t [v, w])

include h

/-- Two pushes leave every bus address but their own two alone (R15). -/
theorem PushedOnto.read_other {b : Nat} (h0 : b ≠ s.cfg.busAddr (stackAddr s.sp))
    (h1 : b ≠ s.cfg.busAddr (stackAddr (s.sp - 1))) : t.mem.read b = s.mem.read b := by
  refine h.1 b fun k hk => ?_
  match k, hk with
  | 0, _ => simpa only [BitVec.sub_zero] using h0
  | 1, _ => exact h1

/-- The first of two bytes lies where S pointed (R15). -/
theorem PushedOnto.memByte_first (hl : s.lands (stackAddr s.sp)) : t.memByte (stackAddr s.sp) = v := by
  have hbyte := (h.2 0 v rfl).1
  simp only [BitVec.sub_zero] at hbyte
  exact hbyte hl

/-- The second lies one lower (R15). -/
theorem PushedOnto.memByte_second (hl : s.lands (stackAddr (s.sp - 1))) : t.memByte (stackAddr (s.sp - 1)) = w :=
  (h.2 1 w rfl).1 hl

end

/-! ## The call -/

/-- JSR in a step of the core's own, wherever its third byte lies: it completes with the return address pushed, and from ram
or rom it reads the third byte as the pushes left it (R183). -/
theorem jsr_next (addr : Word) {s : State} (h : s.cfg.runnable) (hs : s.steady) :
    ∃ t, exec (.jsr addr) s = .next t ∧
      t = { s with sp := s.sp - 2, pc := t.pc, mem := t.mem, clock := t.clock, bus := t.bus, gaps := t.gaps } ∧
      PushedOnto s t [hiByte (s.pc + 2), loByte (s.pc + 2)] ∧
      (s.isMemory (s.pc + 2) → t.pc = word (t.memByte (s.pc + 2)) (loByte addr)) := by
  have hpushed := pushAll_elapsed [hiByte (s.pc + 2), loByte (s.pc + 2)] (discard_elapsed (stackAddr s.sp) s) hs
  have hthird := busRead_memory hpushed hs.1 .operand (s.pc + 2)
  obtain ⟨c, b, g, hend, -⟩ := (hpushed.trans (busRead_elapsed .operand (s.pc + 2) _)).state hs.1
  have hx : exec (.jsr addr) s = _ := execJsr_eq s addr
  generalize (busRead _ _ _).1 = third at hthird hx
  rw [hend] at hx
  exact ⟨_, hx.trans (finish_runnable _ h), rfl, pushedOnto_memAfterPushes _ (by simp) s _ hs.2 rfl rfl,
    fun hm => congrArg (word · (loByte addr)) (hthird hm)⟩

/-- Settles O31: unless a push fell on it, the third byte is the one the instruction was written with. -/
theorem jsrPushesItsLastByteAddress : Obligations.JsrPushesItsLastByteAddress := by
  intro addr s h hs hm
  obtain ⟨t, hx, ht, hpushed, hpc⟩ := jsr_next addr h hs
  refine ⟨t, hx, hpc hm ▸ ht, hpushed, fun hthird h0 h1 => ?_⟩
  have hkept : t.memByte (s.pc + 2) = s.memByte (s.pc + 2) := by
    rw [State.memByte, ht]
    exact hpushed.read_other h0 h1
  rw [hpc hm, hkept, hthird, word_hiByte_loByte]

/-! ## The return -/

/-- Settles O32: the two pulls deliver memory's word, and the other cycles of RTS only pass. -/
theorem rtsReturnsPastThePulledAddress : Obligations.RtsReturnsPastThePulledAddress := by
  intro s h ha h1 h2
  obtain ⟨u, v, he, hu, hv⟩ := execRts_eq s
  rw [pullWord_memory hu ha h1 h2] at he
  refine (hv.withPc _).answers (he.trans (finish_runnable _ ?_))
  obtain ⟨_, _, _, _, rfl, -⟩ := hv
  exact h

/-! ## The call and the return -/

/-- RTS with S two below `sp`, where the return address of an instruction at `pc` was pushed (R184, R185). -/
theorem rts_next_of_returnAddress {u : State} {sp : Byte} {pc : Word} (h : u.cfg.runnable) (ha : u.alone)
    (hsp : u.sp = sp - 2) (hm0 : u.isMemory (stackAddr sp)) (hm1 : u.isMemory (stackAddr (sp - 1)))
    (hhi : u.memByte (stackAddr sp) = hiByte (pc + 2)) (hlo : u.memByte (stackAddr (sp - 1)) = loByte (pc + 2)) :
    ∃ w, exec .rts u = .next w ∧ w.pc = pc + 3 ∧ w.sp = sp := by
  have hsp2 : u.sp + 2 = sp := by rw [hsp, BitVec.sub_add_cancel]
  have hsp1 : u.sp + 1 = sp - 1 := by rw [← hsp2, ← add_one_add_one, BitVec.add_sub_cancel]
  rw [← hsp1] at hm1 hlo
  rw [← hsp2] at hm0 hhi
  obtain ⟨_, _, _, _, he, -⟩ := rtsReturnsPastThePulledAddress u h ha hm1 hm0
  refine ⟨_, he, ?_, hsp2⟩
  show word (u.memByte (stackAddr (u.sp + 2))) (u.memByte (stackAddr (u.sp + 1))) + 1 = pc + 3
  rw [hhi, hlo, word_hiByte_loByte, BitVec.add_assoc]
  rfl

/-- Settles O33: RTS finds on the stack the two bytes that JSR pushed. -/
theorem jsrThenRtsComesBack : Obligations.JsrThenRtsComesBack := by
  intro addr s h hs hl0 hl1
  obtain ⟨t, hx, ht, hpushed, -⟩ := jsr_next addr h hs
  refine ⟨t, hx, fun u hcfg ha hsp hhi hlo => ?_⟩
  have hcfg' : u.cfg = s.cfg := by rw [hcfg, ht]
  have hmem (a : Word) (hl : s.lands a) : u.isMemory a := by
    rw [State.isMemory, hcfg']
    exact .inl hl.1
  exact rts_next_of_returnAddress (hcfg' ▸ h) ha (by rw [hsp, ht]) (hmem _ hl0) (hmem _ hl1)
    (hhi.trans (hpushed.memByte_first hl0)) (hlo.trans (hpushed.memByte_second hl1))

end Sys2Proof.Machine
end

section
/-!
The flag instructions, the break and the return from an interrupt (R204 to R213): BRK and the interrupt entries leave one
picture behind, and RTI takes it back (R244).
-/

namespace Sys2Proof.Machine

/-! ## Flag instructions -/

/-- Settles O36: each is an effect on the registers, and that of CLI and SEI keeps the old I. -/
theorem flagInstructionsWriteOneFlag : Obligations.FlagInstructionsWriteOneFlag := by
  intro s h
  exact ⟨impliedInstr_answers_effect h (mn := .clc) rfl (by decide),
    impliedInstr_answers_effect h (mn := .cld) rfl (by decide),
    impliedInstr_answers_effect h (mn := .cli) rfl (by decide),
    impliedInstr_answers_effect h (mn := .clv) rfl (by decide),
    impliedInstr_answers_effect h (mn := .sec) rfl (by decide),
    impliedInstr_answers_effect h (mn := .sed) rfl (by decide),
    impliedInstr_answers_effect h (mn := .sei) rfl (by decide),
    impliedInstr_answers_effect h (mn := .nop) rfl (by decide)⟩

/-! ## The entries -/

/-- What every entry leaves, be it diverted or not (R241, R246): the registers kept, I set, and the return address and the
status byte pushed. -/
structure Entered (ret : Word) (brk : Bool) (s t : State) : Prop where
  cfg : t.cfg = s.cfg
  a : t.a = s.a
  x : t.x = s.x
  y : t.y = s.y
  p : t.p = { s.p with i := true }
  sp : t.sp = s.sp - 3
  pushed : PushedOnto s t [hiByte ret, loByte ret, s.p.toByte brk]

/-- On a runnable platform an entry is not refused (R61). -/
theorem Entered.finish_eq {ret : Word} {brk : Bool} {s t : State} (h : Entered ret brk s t) (hr : s.cfg.runnable) :
    finish t = .next t := by
  rw [← h.cfg] at hr
  exact finish_runnable t hr

/-- The entry after cycles that pass, in a step of the core's own (R241). -/
theorem takeException_entered {s u : State} (h : Elapsed s u) (hs : s.steady) (ret : Word) (brk : Bool) (vector : Word) :
    Entered ret brk s (takeException ret brk vector u) := by
  obtain ⟨hmem, -⟩ := takeException_steady ret brk vector h hs
  obtain ⟨pc, pending, e, pins, m, c, b, g, he, -⟩ := takeException_state ret brk vector u
  obtain ⟨_, _, _, _, rfl, -⟩ := h
  rw [he] at hmem ⊢
  exact ⟨rfl, rfl, rfl, rfl, rfl, rfl, pushedOnto_memAfterPushes _ (by simp) s _ hs.2 rfl hmem⟩

/-- The NMI entry clears the latch first, which the stack does not see (R240). -/
theorem takeNmi_entered {s : State} (hs : s.steady) : Entered s.pc false s (takeNmi s) := by
  have h := takeException_entered (entryReads_elapsed { s with nmiPending := false }) ⟨hs.1, hs.2⟩ s.pc false nmiVector
  exact { h with }

theorem takeIrq_entered {s : State} (hs : s.steady) : Entered s.pc false s (takeIrq s) :=
  takeException_entered (entryReads_elapsed s) hs s.pc false irqVector

/-- BRK enters after the read of the byte behind its opcode, with an address of its own (R212). -/
theorem takeBreak_entered {s : State} (hs : s.steady) :
    Entered (s.pc + 2) true s (takeException (s.pc + 2) true irqVector (discard (s.pc + 1) s)) :=
  takeException_entered (discard_elapsed (s.pc + 1) s) hs (s.pc + 2) true irqVector

/-! ## The break -/

/-- Settles O37: the entry that BRK shares with the interrupts, after one read that passes. -/
theorem breakTakesTheIrqVector : Obligations.BreakTakesTheIrqVector := by
  intro s h hs hn hlo hhi
  dsimp only
  rw [← Flags.toByte_true]
  have hentered := takeBreak_entered hs
  refine ⟨_, hentered.finish_eq h, ?_, hentered.pushed⟩
  obtain ⟨-, hvector⟩ := takeException_steady (s.pc + 2) true irqVector (discard_elapsed (s.pc + 1) s) hs
  obtain ⟨c, b, g, he⟩ := hvector hn hlo hhi
  rw [he]
  rfl

/-! ## The return -/

/-- Settles O38: two reads pass, and the three pulls deliver memory's bytes. -/
theorem rtiPullsStatusThenAddress : Obligations.RtiPullsStatusThenAddress := by
  intro s h ha h1 h2 h3
  obtain ⟨p, pc, v, he, hv, hpulled⟩ := returnFromInterrupt_state (beforePull_elapsed s)
  obtain ⟨rfl, rfl⟩ := hpulled ha h1 h2 h3
  obtain ⟨m, c, b, g, rfl, -, hm, -⟩ := hv
  exact ⟨m, c, b, g, (congrArg finish he).trans (finish_runnable _ h), hm⟩

/-! ## What an entry leaves for the return -/

/-- The status byte and the six flags (R18): what is pulled is what was pushed, whatever bit 4 says. -/
theorem Flags.ofByte_toByte (p : Flags) (brk : Bool) : Flags.ofByte (p.toByte brk) = p := by
  obtain ⟨n, v, d, i, z, c⟩ := p
  revert n v d i z c brk
  decide

/-- The bytes stand in ram or rom from the stack location of `sp` down, as pushes in this order leave them (R15). -/
def State.stackHolds (u : State) (sp : Byte) (bytes : List Byte) : Prop :=
  ∀ k v, bytes[k]? = some v →
    u.isMemory (stackAddr (sp - BitVec.ofNat 8 k)) ∧ u.memByte (stackAddr (sp - BitVec.ofNat 8 k)) = v

/-- Bytes pushed to ram are on the stack for as long as their locations keep them. -/
theorem PushedOnto.stackHolds {s t u : State} {bytes : List Byte} (h : PushedOnto s t bytes)
    (hl : ∀ k, k < bytes.length → s.lands (stackAddr (s.sp - BitVec.ofNat 8 k))) (hc : u.cfg = s.cfg)
    (hkept : ∀ k, k < bytes.length → u.memByte (stackAddr (s.sp - BitVec.ofNat 8 k)) =
      t.memByte (stackAddr (s.sp - BitVec.ofNat 8 k))) : u.stackHolds s.sp bytes := by
  intro k v hk
  obtain ⟨hlt, -⟩ := List.getElem?_eq_some_iff.mp hk
  obtain ⟨hpushed, -⟩ := h.2 k v hk
  refine ⟨?_, (hkept k hlt).trans (hpushed (hl k hlt))⟩
  rw [State.isMemory, hc]
  exact .inl (hl k hlt).1

/-- RTI with the picture of an entry below `sp`: the flags and the address that were pushed, and S back at `sp` (R213). -/
theorem rti_next_of_stackHolds {u : State} {sp : Byte} {ret : Word} {p : Flags} {brk : Bool} (h : u.cfg.runnable)
    (ha : u.alone) (hsp : u.sp = sp - 3) (hb : u.stackHolds sp [hiByte ret, loByte ret, p.toByte brk]) :
    ∃ w, exec .rti u = .next w ∧ w.pc = ret ∧ w.p = p ∧ w.sp = sp := by
  have hsp1 : sp - BitVec.ofNat 8 2 = u.sp + 1 := by bv_omega
  have hsp2 : sp - BitVec.ofNat 8 1 = u.sp + 2 := by bv_omega
  have hsp3 : sp - BitVec.ofNat 8 0 = u.sp + 3 := by bv_omega
  obtain ⟨hm1, hstatus⟩ := hb 2 _ rfl
  obtain ⟨hm2, hlo⟩ := hb 1 _ rfl
  obtain ⟨hm3, hhi⟩ := hb 0 _ rfl
  rw [hsp1] at hm1 hstatus
  rw [hsp2] at hm2 hlo
  rw [hsp3] at hm3 hhi
  obtain ⟨_, _, _, _, he, -⟩ := rtiPullsStatusThenAddress u h ha hm1 hm2 hm3
  refine ⟨_, he, ?_, ?_, ?_⟩
  · show word (u.memByte (stackAddr (u.sp + 3))) (u.memByte (stackAddr (u.sp + 2))) = ret
    rw [hhi, hlo, word_hiByte_loByte]
  · show Flags.ofByte (u.memByte (stackAddr (u.sp + 1))) = p
    rw [hstatus, Flags.ofByte_toByte]
  · show u.sp + 3 = sp
    rw [hsp, BitVec.sub_add_cancel]

/-! ## The entry and the return -/

/-- RTI undoes the entry `r` of `s` (R244): the entry is a next state in which A, X and Y are kept and I is set, and a
handler that leaves S and the three bytes alone is followed by a return to `ret` with S and the flags of `s`. -/
def UndoneByRti (s : State) (r : Result) (ret : Word) : Prop :=
  ∃ t, r = .next t ∧ t.a = s.a ∧ t.x = s.x ∧ t.y = s.y ∧ t.p = { s.p with i := true } ∧
    ∀ u, u.cfg = t.cfg → u.alone → u.sp = t.sp →
      (∀ k, k < 3 → u.memByte (stackAddr (s.sp - BitVec.ofNat 8 k)) =
        t.memByte (stackAddr (s.sp - BitVec.ofNat 8 k))) →
      ∃ w, exec .rti u = .next w ∧ w.pc = ret ∧ w.p = s.p ∧ w.sp = s.sp

/-- What an entry leaves, RTI takes back, if the pushes reach memory. -/
theorem Entered.undoneByRti {ret : Word} {brk : Bool} {s t : State} (h : Entered ret brk s t) (hr : s.cfg.runnable)
    (hl : ∀ k, k < 3 → s.lands (stackAddr (s.sp - BitVec.ofNat 8 k))) : UndoneByRti s (finish t) ret := by
  refine ⟨t, h.finish_eq hr, h.a, h.x, h.y, h.p, fun u hc ha hsp hkept => ?_⟩
  have hcfg : u.cfg = s.cfg := hc.trans h.cfg
  rw [← hcfg] at hr
  exact rti_next_of_stackHolds hr ha (hsp.trans h.sp) (h.pushed.stackHolds hl hcfg hkept)

/-- Settles O39: the three entries leave one picture, each with its own return address. -/
theorem rtiResumesWhereInterrupted : Obligations.RtiResumesWhereInterrupted := by
  intro s hr hs hl0 hl1 hl2 entry hentry
  have hl : ∀ k, k < 3 → s.lands (stackAddr (s.sp - BitVec.ofNat 8 k)) := by
    intro k hk
    match k, hk with
    | 0, _ => simpa only [BitVec.sub_zero] using hl0
    | 1, _ => exact hl1
    | 2, _ => exact hl2
  change UndoneByRti s entry.1 entry.2
  simp only [List.mem_cons, List.not_mem_nil, or_false] at hentry
  obtain rfl | rfl | rfl := hentry
  · exact (takeNmi_entered hs).undoneByRti hr hl
  · exact (takeIrq_entered hs).undoneByRti hr hl
  · exact (takeBreak_entered hs).undoneByRti hr hl

end Sys2Proof.Machine
end

section
/-!
The events at a boundary (R237, R239), the two interrupt entries (R240 to R242), the value of I that the IRQ test uses
(R238), and an NMI edge inside a sequence through $FFFE (R246).
-/

namespace Sys2Proof.Machine

/-! ## The boundary -/

/-- IRQ is let in: its pin exists and is low, and the mask the test uses is clear (R237, R238). -/
theorem irqAsserted_and_not_iEffective (s : State) :
    (s.irqAsserted && !s.iEffective) = true ↔
      s.cfg.member.hasIrq = true ∧ s.pins.irqLow = true ∧ s.iEffective = false := by
  simp [State.irqAsserted, and_assoc]

section
variable {s : State} (hres : s.pins.resLow = false) (hrdy : s.rdyHolds = false)

include hres hrdy

theorem eventOf_reset (hdue : s.resetDue = true) : eventOf s = .reset := by
  simp [eventOf, hres, hrdy, hdue]

/-- NMI goes before IRQ (R239). -/
theorem eventOf_nmi (hdue : s.resetDue = false) (hnmi : s.nmiPending = true) : eventOf s = .nmi := by
  simp [eventOf, hres, hrdy, hdue, hnmi]

theorem eventOf_irq (hdue : s.resetDue = false) (hnmi : s.nmiPending = false)
    (hirq : (s.irqAsserted && !s.iEffective) = true) : eventOf s = .irq := by
  simp [eventOf, hres, hrdy, hdue, hnmi, hirq]

theorem eventOf_instruction (hdue : s.resetDue = false) (hnmi : s.nmiPending = false)
    (hirq : ¬ (s.irqAsserted && !s.iEffective) = true) : eventOf s = .instruction := by
  simp [eventOf, hres, hrdy, hdue, hnmi, hirq]

end

/-- Settles O40: each event under the levels and latches that call for it. -/
theorem boundaryRule : Obligations.BoundaryRule := by
  intro s
  rw [← Bool.and_eq_true s.cfg.member.hasRdy, ← irqAsserted_and_not_iEffective, Bool.not_eq_true]
  exact ⟨sample_resetDue s, eventOf_resLow s, fun hres => ⟨eventOf_rdyHolds s hres, fun hrdy =>
    ⟨eventOf_reset hres hrdy, fun hdue => ⟨eventOf_nmi hres hrdy hdue, fun hnmi =>
      ⟨eventOf_irq hres hrdy hdue hnmi, eventOf_instruction hres hrdy hdue hnmi⟩⟩⟩⟩⟩

/-! ## The interrupt entries -/

/-- Without an edge inside it, a step of the core's own is steady. -/
theorem State.alone.steady {s : State} (ha : s.alone) (hquiet : s.edges = .quiet) : s.steady :=
  ⟨ha, by rw [hquiet]; rfl⟩

/-- The step from `s` is the entry of an interrupt, after the environment's move (R241): three pushes, I set, PC from the
vector at `lo`, the NMI latch as given, every other register and flag as it was. -/
def EntersThrough (s : State) (hi lo : Word) (pending : Bool) : Prop :=
  let s1 := sample s
  ∃ u, step s = .next u ∧
    u = { s1 with sp := s1.sp - 3, pc := u.memWord hi lo, p := { s1.p with i := true }, nmiPending := pending,
                  heldI := none, mem := u.mem, clock := u.clock, bus := u.bus, gaps := [] } ∧
    PushedOnto s1 u [hiByte s1.pc, loByte s1.pc, s1.p.toByte false] ∧ (s1.gaps = [] → u.clock = s.clock + 7)

/-- An entry with no edge inside it is all there is to its step: nothing refuses it, and nothing is left to settle. -/
theorem entersThrough_of_step {s s1 t : State} {hi lo : Word} {pending : Bool} (hs1 : sample s = s1)
    (hstep : step s = settleResult false (finish t)) (hrun : s1.cfg.runnable) (hquiet : s1.edges = .quiet)
    (hentered : Entered s1.pc false s1 t)
    (hframe : ∃ m c b g, t = { s1 with
      sp := s1.sp - 3, pc := word (m.read (s1.cfg.busAddr hi)) (m.read (s1.cfg.busAddr lo)), p := { s1.p with i := true }
      nmiPending := pending, heldI := none, mem := m, clock := c, bus := b, gaps := g })
    (hclock : s1.gaps = [] → t.clock = s1.clock + 7) : EntersThrough s hi lo pending := by
  subst hs1
  obtain ⟨m, c, b, g, he⟩ := hframe
  refine ⟨{ t with gaps := [] }, ?_, ?_, hentered.pushed, fun hgaps => (hclock hgaps).trans (by rw [sample_clock])⟩
  · rw [hstep, hentered.finish_eq hrun]
    exact congrArg Host.Outcome.next (settle_quiet false t (by rw [he]; exact hquiet))
  · rw [he]
    rfl

/-- Settles O41: the boundary calls for the entry, which clears the latch first. -/
theorem nmiEntry : Obligations.NmiEntry := by
  intro s s1 hrun hres hrdy hdue hnmi hquiet ha hlo hhi
  have hs := ha.steady hquiet
  have hstep := step_nmi s (eventOf_nmi hres hrdy hdue hnmi)
  have hframe := takeNmi_steady s1 hs (by rw [hquiet]; rfl) hlo hhi
  show EntersThrough s 0xFFFB 0xFFFA false
  exact entersThrough_of_step rfl hstep hrun hquiet (takeNmi_entered hs) ⟨_, hframe⟩ (takeNmi_clock s1)

/-- Settles O42: the boundary calls for the entry, which leaves the latch as it is. -/
theorem irqEntry : Obligations.IrqEntry := by
  intro s s1 hrun hres hrdy hdue hnmi hirq hmask hquiet ha hlo hhi
  have hs := ha.steady hquiet
  have hstep := step_irq s (eventOf_irq hres hrdy hdue hnmi (by rw [hirq, hmask]; rfl))
  have hframe := takeIrq_steady s1 hs (by rw [hquiet]; rfl) hlo hhi
  show EntersThrough s 0xFFFF 0xFFFE s1.nmiPending
  exact entersThrough_of_step rfl hstep hrun hquiet (takeIrq_entered hs) ⟨_, hframe⟩ (takeIrq_clock s1)

/-! ## The I flag held for the IRQ test -/

/-- What an instruction leaves held for the IRQ test: CLI, SEI and PLP the I flag they found, the others nothing (R238). -/
def heldAfter (mn : Mnemonic) (old : Bool) : Option Bool := if mn ∈ [.cli, .sei, .plp] then some old else none

theorem Elapsed.heldI_eq {s u : State} (h : Elapsed s u) : u.heldI = s.heldI := by
  obtain ⟨_, _, _, _, rfl, -⟩ := h
  rfl

theorem Elapsed.p_eq {s u : State} (h : Elapsed s u) : u.p = s.p := by
  obtain ⟨_, _, _, _, rfl, -⟩ := h
  rfl

theorem readEffect_heldI {mn : Mnemonic} {e : Byte → State → State} (he : readEffect mn = some e) (v : Byte)
    {s : State} (hs : s.heldI = none) (old : Bool) : (e v s).heldI = heldAfter mn old := by
  cases mn with
  | lda | ldx | ldy | adc | sbc | cmp | cpx | cpy | and | eor | ora | bit =>
    cases he
    exact hs
  | _ => cases he

theorem storedByte_heldAfter {mn : Mnemonic} {v : State → Byte} (hv : storedByte mn = some v) (old : Bool) :
    heldAfter mn old = none := by
  cases mn with
  | sta | stx | sty => rfl
  | _ => cases hv

theorem rmwEffect_heldAfter {mn : Mnemonic} {f : Byte → Flags → ByteAndFlags} (hf : rmwEffect mn = some f) (old : Bool) :
    heldAfter mn old = none := by
  cases mn with
  | inc | dec | asl | lsr | rol | ror => rfl
  | _ => cases hf

theorem branchCondition_heldAfter {mn : Mnemonic} {p : Flags} {taken : Bool} (h : branchCondition p mn = some taken)
    (old : Bool) : heldAfter mn old = none := by
  cases mn with
  | bcc | bcs | beq | bmi | bne | bpl | bvc | bvs => rfl
  | _ => cases h

/-- Only CLI, SEI and PLP hold the I flag they found (R206, R210, R203). -/
theorem impliedEffect_heldI {mn : Mnemonic} {e : State → State} (he : impliedEffect mn = some e) {s : State}
    (hs : s.heldI = none) : (e s).heldI = heldAfter mn s.p.i := by
  cases mn with
  | cli | sei | plp =>
    cases he
    rfl
  | tax | tay | tsx | txa | txs | tya | dex | dey | inx | iny | clc | cld | clv | sec | sed | nop | pha | php | pla =>
    cases he
    exact hs
  | _ => cases he

/-- What every instruction leaves held, by its form, if nothing was held before (R238). -/
theorem exec_heldI {i : Instr} {s t : State} (h : exec i s = .next t) (hs : s.heldI = none) :
    t.heldI = heldAfter i.mnemonic s.p.i := by
  cases exec_cases i with
  | reads src e _ he hx =>
    rw [hx] at h
    obtain ⟨u, hu, rfl⟩ := readInstr_reaches s t src e h
    exact readEffect_heldI he _ (hu.heldI_eq.trans hs) _
  | stores m v _ hv hx =>
    rw [hx] at h
    obtain ⟨_, _, _, _, rfl, -⟩ := storeInstr_reaches s t m (v s) h
    exact hs.trans (storedByte_heldAfter hv _).symm
  | modifies m f _ hf hx =>
    rw [hx] at h
    obtain ⟨_, _, _, _, rfl, -⟩ := rmwInstr_reaches s t m f h
    exact hs.trans (rmwEffect_heldAfter hf _).symm
  | accumulator f _ hf hx =>
    rw [hx] at h
    obtain ⟨u, hu, rfl⟩ := impliedInstr_reaches s t _ h
    exact (hu.heldI_eq.trans hs).trans (rmwEffect_heldAfter hf _).symm
  | implied e _ he hx =>
    rw [hx] at h
    obtain ⟨u, hu, rfl⟩ := impliedInstr_reaches s t e h
    rw [← hu.p_eq]
    exact impliedEffect_heldI he (hu.heldI_eq.trans hs)
  | branches off taken _ ht hx =>
    rw [hx] at h
    obtain ⟨u, hu, rfl⟩ := branchInstr_reaches s t (taken s.p) off h
    exact (hu.heldI_eq.trans hs).trans (branchCondition_heldAfter (ht s.p) _).symm
  | jumps addr hi =>
    subst hi
    rw [finish_next _ t h]
    exact hs
  | jumpsIndirect ptr hi =>
    subst hi
    obtain ⟨u, _, hu, rfl⟩ := execJmpInd_reaches s t ptr h
    exact hu.heldI_eq.trans hs
  | calls addr hi =>
    subst hi
    obtain ⟨_, _, _, _, _, rfl, -⟩ := execJsr_reaches s t addr h
    exact hs
  | returns hi =>
    subst hi
    obtain ⟨u, _, hu, rfl⟩ := execRts_reaches s t h
    exact hu.heldI_eq.trans hs
  | breaks hi =>
    subst hi
    obtain ⟨_, _, _, _, _, _, _, _, rfl, -⟩ := execBrk_reaches s t h
    rfl
  | returnsFromInterrupt hi =>
    subst hi
    obtain ⟨u, _, _, hu, rfl⟩ := execRti_reaches s t h
    exact hu.heldI_eq.trans hs

/-! ## The IRQ test -/

/-- With nothing held the test uses I as it is (R238). -/
theorem iEffective_of_none {t : State} (h : t.heldI = none) : t.iEffective = t.p.i := by
  simp only [State.iEffective, h]

/-- With an old I held the parameter IRQ_POLL_I decides (R238, D11). -/
theorem iEffective_of_some {t : State} {old : Bool} (h : t.heldI = some old) :
    (t.cfg.irqPollI = .old → t.iEffective = old) ∧ (t.cfg.irqPollI = .new → t.iEffective = t.p.i) ∧
      (t.cfg.irqPollI = .either → t.iEffective = if Config.pollsOldI t.clock then old else t.p.i) := by
  refine ⟨fun hpoll => ?_, fun hpoll => ?_, fun hpoll => ?_⟩ <;> simp only [State.iEffective, h, hpoll]

/-- Settles O43: what is held decides, and an instruction keeps the parameter. -/
theorem irqTestAfterCliSeiPlp : Obligations.IrqTestAfterCliSeiPlp := by
  intro i s t h
  have hheld := exec_heldI h rfl
  obtain ⟨hcfg, -⟩ := exec_keeps_platform h
  refine ⟨fun hi => ?_, fun hi => ?_⟩
  · rw [heldAfter, if_pos hi] at hheld
    have hpoll := iEffective_of_some hheld
    rwa [hcfg] at hpoll
  · rw [heldAfter, if_neg hi] at hheld
    exact iEffective_of_none hheld

/-! ## An NMI edge inside a sequence through $FFFE -/

/-- The two ways to deal with an edge that the sequence has met (R246): the sequence goes its own way and the NMI is pending,
or it goes through the NMI vector and the latch is clear. -/
def DealsWithNmiEdge (u : State) : Prop :=
  (u.pc = u.memWord 0xFFFF 0xFFFE ∧ u.nmiPending = true) ∨ (u.pc = u.memWord 0xFFFB 0xFFFA ∧ u.nmiPending = false)

/-- PC after a vector in ram or rom is read is the word that memory then holds there (R241). -/
theorem loadVector_pc {s : State} (v : Word) (ha : s.alone) (hlo : s.isMemory v) (hhi : s.isMemory (v + 1)) :
    (loadVector v s).pc = (loadVector v s).memWord (v + 1) v := by
  obtain ⟨pc, u, he, hu, hpc⟩ := loadVector_elapsed v s
  obtain ⟨_, _, _, rfl, -⟩ := hu.state ha
  rw [he]
  exact hpc ha hlo hhi

/-- The end of a step leaves the words of memory alone. -/
theorem settle_memWord (w : Bool) (s : State) (hi lo : Word) : (settle w s).memWord hi lo = s.memWord hi lo := rfl

/-- Both vectors that a sequence through $FFFE may use lie in ram or rom (R50, R246). -/
structure State.vectorsInMemory (s : State) : Prop where
  nmiLo : s.isMemory 0xFFFA
  nmiHi : s.isMemory 0xFFFB
  irqLo : s.isMemory 0xFFFE
  irqHi : s.isMemory 0xFFFF

theorem fetchVector_of_not_diverted {s : State} (v : Word) (h : s.diverted = false) :
    fetchVector v s = loadVector v s := by
  simp [fetchVector, h]

/-- A diverted sequence serves the edge: the latch is clear and the line low (R246). -/
theorem fetchVector_of_diverted {s : State} (h : s.diverted = true) :
    fetchVector irqVector s = loadVector nmiVector
      { s with nmiPending := false, edges := { s.edges with nmi := false }, pins := { s.pins with nmiLow := true } } := by
  simp [fetchVector, h]

/-- The free value decides which vector is read; a sequence that is not diverted leaves the edge to the end of the step,
which sets the latch (R25, R246). -/
theorem fetchVector_dealsWithNmiEdge {s : State} (ha : s.alone) (hpin : s.cfg.member.hasNmi = true)
    (hedge : s.edges.nmi = true) (hm : s.vectorsInMemory) : DealsWithNmiEdge (settle false (fetchVector irqVector s)) := by
  rw [DealsWithNmiEdge, settle_pc, settle_memWord, settle_memWord]
  cases hd : s.diverted with
  | false =>
    rw [fetchVector_of_not_diverted irqVector hd]
    exact .inl ⟨loadVector_pc irqVector ha hm.irqLo hm.irqHi, by simp [hpin, hedge]⟩
  | true =>
    rw [fetchVector_of_diverted hd]
    refine .inr ⟨loadVector_pc nmiVector ?_ ?_ ?_, by simp⟩
    · exact ha
    · exact hm.nmiLo
    · exact hm.nmiHi

/-- The pushes and the reads before the vector change nothing that the outcome depends on. -/
theorem takeException_dealsWithNmiEdge {s u : State} (h : Elapsed s u) (ha : s.alone) (hpin : s.cfg.member.hasNmi = true)
    (hedge : s.edges.nmi = true) (hm : s.vectorsInMemory) (ret : Word) (brk : Bool) :
    DealsWithNmiEdge (settle false (takeException ret brk irqVector u)) := by
  obtain ⟨c, b, g, rfl, ha'⟩ := h.state ha
  obtain ⟨_, _, _, he, hg, -⟩ := pushAll_state [hiByte ret, loByte ret, s.p.toByte brk]
    { s with clock := c, bus := b, gaps := g }
  rw [takeException_eq, he]
  exact fetchVector_dealsWithNmiEdge (alone_of_suffix _ _ ha' hg) hpin hedge ⟨hm.nmiLo, hm.nmiHi, hm.irqLo, hm.irqHi⟩

/-- The entry `r` of `s` ends the step in a next state with the return address and the status byte pushed, I set, and the
edge inside it dealt with (R241, R246). -/
def EntersWithNmiEdge (s : State) (r : Result) (ret : Word) (brk : Bool) : Prop :=
  ∃ u, settleResult false r = .next u ∧ u.sp = s.sp - 3 ∧ u.p.i = true ∧
    PushedOnto s u [hiByte ret, loByte ret, s.p.toByte brk] ∧ DealsWithNmiEdge u

/-- The end of the step touches neither S, I nor memory. -/
theorem Entered.entersWithNmiEdge {ret : Word} {brk : Bool} {s t : State} (h : Entered ret brk s t) (hr : s.cfg.runnable)
    (hd : DealsWithNmiEdge (settle false t)) : EntersWithNmiEdge s (finish t) ret brk := by
  refine ⟨settle false t, by rw [h.finish_eq hr]; rfl, h.sp, ?_, h.pushed, hd⟩
  show t.p.i = true
  rw [h.p]

/-- Settles O44: the two sequences through $FFFE, each after read cycles of its own. -/
theorem nmiEdgeInsideASequence : Obligations.NmiEdgeInsideASequence := by
  intro s hr hs hpin hedge _ hnmiLo hnmiHi hirqLo hirqHi
  dsimp only
  have hdeals {u : State} (hu : Elapsed s u) (ret : Word) (brk : Bool) :=
    takeException_dealsWithNmiEdge hu hs.1 hpin hedge ⟨hnmiLo, hnmiHi, hirqLo, hirqHi⟩ ret brk
  have hbreak : EntersWithNmiEdge s (exec .brk s) (s.pc + 2) true :=
    (takeBreak_entered hs).entersWithNmiEdge hr (hdeals (discard_elapsed (s.pc + 1) s) (s.pc + 2) true)
  have hirq : EntersWithNmiEdge s (finish (takeIrq s)) s.pc false :=
    (takeIrq_entered hs).entersWithNmiEdge hr (hdeals (entryReads_elapsed s) s.pc false)
  simp only [List.forall_mem_cons, List.not_mem_nil, false_implies, implies_true, and_true]
  exact ⟨hbreak, hirq⟩

end Sys2Proof.Machine
end

section
/-!
The reset sequence (R270, R274): what it leaves of the state, and that its record holds read cycles only.
-/

namespace Sys2Proof.Machine

/-! ## A record of reads -/

/-- No cycle of the step so far is a write (R46). -/
def State.readsOnly (s : State) : Prop := ∀ cycle ∈ s.bus, cycle.kind.isWrite = false

theorem kind_of_mem_repeated {s : State} {k : CycleKind} {a : Word} {n : Nat} {cycle : BusCycle}
    (h : cycle ∈ s.repeated k a n) : cycle.kind = k := by
  have hm := List.mem_map_of_mem (f := fun cycle : BusCycle => (cycle.kind, cycle.addr)) h
  rw [map_repeated] at hm
  exact congrArg Prod.fst (List.eq_of_mem_replicate hm)

/-- A read cycle, and the cycles a halt repeats before it (R57). -/
theorem State.readsOnly.busRead {s : State} (h : s.readsOnly) {k : CycleKind} (hk : k.isWrite = false) (a : Word) :
    (Machine.busRead k a s).2.readsOnly := by
  intro cycle hc
  obtain ⟨v, hb⟩ := busRead_bus_eq k a s
  rw [hb, List.mem_append, List.mem_cons] at hc
  rcases hc with (rfl | hrepeated) | hbefore
  · exact hk
  · rw [kind_of_mem_repeated hrepeated]
    exact hk
  · exact h cycle hbefore

theorem State.readsOnly.discard {s : State} (h : s.readsOnly) (a : Word) : (Machine.discard a s).readsOnly :=
  h.busRead rfl a

/-- The pushes of an interrupt entry are reads in the reset sequence (R270). -/
theorem State.readsOnly.resetReads {s : State} (h : s.readsOnly) : (Machine.resetReads s).readsOnly := by
  have hentry : (entryReads s).readsOnly := (h.busRead rfl s.pc).discard s.pc
  exact ((hentry.discard (stackAddr s.sp)).discard (stackAddr (s.sp - 1))).discard (stackAddr (s.sp - 2))

theorem State.readsOnly.loadVector {s : State} (h : s.readsOnly) (v : Word) : (Machine.loadVector v s).readsOnly :=
  (h.busRead (k := .vector) rfl v).busRead (k := .vector) rfl (v + 1)

theorem State.readsOnly.resetSequence {s : State} (h : s.readsOnly) : (Machine.resetSequence s).readsOnly := by
  have hregisters : (resetRegisters s (Machine.resetReads s)).readsOnly := h.resetReads
  rw [resetSequence_eq]
  exact hregisters.loadVector resetVector

/-! ## The state after the sequence -/

/-- The reset sequence in a step of the core's own with no edge inside it (R270): the registers and flags drawn but for I,
the latch clear, PC from the vector, and cycles that pass. -/
theorem resetSequence_quiet {s : State} (hquiet : s.edges = .quiet) (ha : s.alone) (hlo : s.isMemory resetVector)
    (hhi : s.isMemory (resetVector + 1)) :
    ∃ c b g, resetSequence s =
      { resetRegisters s s with pc := s.memWord (resetVector + 1) resetVector, nmiPending := false, edges := .quiet
                                pins := s.pins, clock := c, bus := b, gaps := g } := by
  have hregisters : resetRegisters s s =
      { resetRegisters s s with nmiPending := false, edges := .quiet, pins := s.pins } := by
    simp [resetRegisters, hquiet, Edges.quiet]
  obtain ⟨pc, u, he, hu, hpc⟩ := resetSequence_state s
  obtain ⟨c, b, g, rfl, -⟩ := hu.state ha
  obtain rfl := hpc ha hlo hhi
  refine ⟨c, b, g, ?_⟩
  rw [he, hregisters]

/-- Settles O50: the boundary calls for the sequence, whose cycles are reads, and no edge is left to settle. -/
theorem resetSequenceStartsAtTheVector : Obligations.ResetSequenceStartsAtTheVector := by
  intro s s1 hrun hlow hres hrdy hquiet ha hlo hhi
  have hdue : s1.resetDue = true := by
    rw [sample_resetDue, Bool.or_eq_true, Or.comm]
    exact hlow
  have hreads : s1.readsOnly := by simp [State.readsOnly, s1]
  have hclock : s1.gaps = [] → (resetSequence s1).clock = s.clock + 7 := fun hgaps =>
    (resetSequence_clock s1 hgaps).trans (by rw [sample_clock])
  have hbus := hreads.resetSequence
  obtain ⟨c, b, g, he⟩ := resetSequence_quiet hquiet ha hlo hhi
  have hstep : step s = .next { resetSequence s1 with gaps := [] } := by
    rw [step_reset s (eventOf_reset hres hrdy hdue), finish_runnable _ (by rw [he]; exact hrun)]
    exact congrArg Host.Outcome.next (settle_quiet false (resetSequence s1) (by rw [he]))
  refine ⟨_, hstep, ?_, ?_, ?_, ?_, ?_, ?_, ?_, hbus, hclock⟩ <;> rw [he] <;> rfl

end Sys2Proof.Machine
end

section
/-!
The cycles of the instructions (R290, R291, R293). `Takes` counts the cycles of a part of a step without gaps, and composes;
`meaningCycles` says how many an instruction's meaning takes beside those of R291, by its operand and mnemonic
(`exec_takes`); and with the cycles of the fetch these are the table's (`baseCycles_eq`).
-/

namespace Sys2Proof.Machine

/-! ## Counting cycles -/

/-- Where no gap is left, `n` clock cycles pass between `s` and `t`, two moments of one step. -/
def Takes (n : Nat) (s t : State) : Prop := s.gaps = [] → t.clock = s.clock + n ∧ t.gaps = []

theorem Takes.refl (s : State) : Takes 0 s s := fun hg => ⟨rfl, hg⟩

theorem Takes.trans {m n : Nat} {s t u : State} (h : Takes m s t) (k : Takes n t u) : Takes (m + n) s u := by
  intro hg
  obtain ⟨hclock, hgaps⟩ := h hg
  obtain ⟨kclock, kgaps⟩ := k hgaps
  exact ⟨by rw [kclock, hclock, Nat.add_assoc], kgaps⟩

theorem busRead_takes (k : CycleKind) (a : Word) (s : State) : Takes 1 s (busRead k a s).2 :=
  fun hg => ⟨busRead_clock_noGaps k a s hg, busRead_gaps_nil k a s hg⟩

theorem discard_takes (a : Word) (s : State) : Takes 1 s (discard a s) := busRead_takes .discard a s

theorem busWrite_takes (k : CycleKind) (a : Word) (v : Byte) (s : State) : Takes 1 s (busWrite k a v s) :=
  fun hg => ⟨busWrite_clock k a v s, by simp [hg]⟩

theorem push_takes (v : Byte) (s : State) : Takes 1 s (push v s) := busWrite_takes .push (stackAddr s.sp) v s

theorem pull_takes (s : State) : Takes 1 s (pull s).2 :=
  busRead_takes .pull (stackAddr (s.sp + 1)) { s with sp := s.sp + 1 }

theorem pullWord_takes (s : State) : Takes 2 s (pullWord s).2 := (pull_takes s).trans (pull_takes _)

/-- A break is taken in five cycles, its discarded read not counted (R212, R241). -/
theorem takeException_takes (ret : Word) (brk : Bool) (vector : Word) (s : State) :
    Takes 5 s (takeException ret brk vector s) := by
  intro hg
  refine ⟨takeException_clock ret brk vector s hg, ?_⟩
  obtain ⟨_, _, _, _, _, _, _, g, he, hsuffix, -⟩ := takeException_state ret brk vector s
  rw [hg, List.suffix_nil] at hsuffix
  rw [he, hsuffix]

theorem returnFromInterrupt_takes (s : State) : Takes 3 s (returnFromInterrupt s) :=
  (pull_takes s).trans (pullWord_takes { (pull s).2 with p := Flags.ofByte (pull s).1 })

/-! ## Addresses and operands -/

/-- The cycles that form an address, beside that of a page crossed by a reading instruction: those of index and pointer, and
the page correction that a store always spends (R293). -/
def addressCycles (use : Use) : Addr → Nat
  | .zeroPage _ | .absolute _ => 0
  | .zeroPageX _ | .zeroPageY _ => 1
  | .absoluteX _ | .absoluteY _ => if use = .store then 1 else 0
  | .indirectX _ => 3
  | .indirectY _ => 2 + if use = .store then 1 else 0

theorem zeroPagePointer_takes (z : Byte) (s : State) : Takes 2 s (zeroPagePointer z s).2 :=
  (busRead_takes .pointer (zeroPage z) s).trans (busRead_takes .pointer (zeroPage (z + 1)) _)

theorem resolveIndexed_load_takes (base : Word) (idx : Byte) (s : State) :
    Takes (crossing base (indexed base idx)) s (resolveIndexed .load base idx s).2 := by
  cases hp : pageCross base (indexed base idx) with
  | false => simpa [resolveIndexed, crossing, hp] using Takes.refl s
  | true => simpa [resolveIndexed, crossing, hp] using discard_takes (uncarried base idx) s

theorem resolveIndexed_store_takes (base : Word) (idx : Byte) (s : State) :
    Takes 1 s (resolveIndexed .store base idx s).2 := discard_takes (uncarried base idx) s

/-- A reading instruction corrects the page only where it is crossed (R291). -/
theorem resolve_load_takes (m : Addr) (s : State) :
    Takes (addressCycles .load m + operandCrossing m s) s (resolve .load m s).2 := by
  cases m with
  | zeroPage z => exact .refl s
  | zeroPageX z => exact discard_takes _ s
  | zeroPageY z => exact discard_takes _ s
  | absolute w => exact .refl s
  | absoluteX base =>
    have h := resolveIndexed_load_takes base s.x s
    rwa [← Nat.zero_add (crossing _ _)] at h
  | absoluteY base =>
    have h := resolveIndexed_load_takes base s.y s
    rwa [← Nat.zero_add (crossing _ _)] at h
  | indirectX z => exact (discard_takes _ s).trans (zeroPagePointer_takes _ _)
  | indirectY z => exact (zeroPagePointer_takes z s).trans (resolveIndexed_load_takes _ s.y _)

/-- A store or a read-modify-write always does (R291). -/
theorem resolve_store_takes (m : Addr) (s : State) : Takes (addressCycles .store m) s (resolve .store m s).2 := by
  cases m with
  | zeroPage z => exact .refl s
  | zeroPageX z => exact discard_takes _ s
  | zeroPageY z => exact discard_takes _ s
  | absolute w => exact .refl s
  | absoluteX base => exact resolveIndexed_store_takes base s.x s
  | absoluteY base => exact resolveIndexed_store_takes base s.y s
  | indirectX z => exact (discard_takes _ s).trans (zeroPagePointer_takes _ _)
  | indirectY z => exact (zeroPagePointer_takes z s).trans (resolveIndexed_store_takes _ s.y _)

/-- The cycles of an operand: an immediate byte has been fetched already (R75), and a byte of memory takes one. -/
def sourceCycles (src : Source) (s : State) : Nat :=
  match src with
  | .imm _ => 0
  | .mem m => addressCycles .load m + operandCrossing m s + 1

theorem readSource_takes (src : Source) (s : State) : Takes (sourceCycles src s) s (readSource src s).2 := by
  cases src with
  | imm v => exact .refl s
  | mem m => exact (resolve_load_takes m s).trans (busRead_takes _ _ _)

/-! ## The shapes of instruction -/

section
variable {s t : State}

theorem readInstr_takes {src : Source} {e : Byte → State → State} (h : readInstr src e s = .next t)
    (he : ∀ v u, Takes 0 u (e v u)) : Takes (sourceCycles src s) s t := by
  rw [readInstr_eq] at h
  rw [finish_next _ t h]
  exact (readSource_takes src s).trans (he _ _)

theorem storeInstr_takes {m : Addr} {v : Byte} (h : storeInstr m v s = .next t) :
    Takes (addressCycles .store m + 1) s t := by
  rw [storeInstr_eq] at h
  rw [finish_next _ t h]
  exact (resolve_store_takes m s).trans (busWrite_takes (.write (isPlainMode m)) (storeAddress m s) v _)

/-- One read and two writes (R159). -/
theorem rmwInstr_takes {m : Addr} {f : Byte → Flags → ByteAndFlags} (h : rmwInstr m f s = .next t) :
    Takes (addressCycles .store m + 3) s t := by
  rw [rmwInstr_eq] at h
  rw [finish_next _ t h]
  have hread : Takes (addressCycles .store m + 1) s (afterOperand m s) :=
    (resolve_store_takes m s).trans (busRead_takes _ _ _)
  exact (hread.trans (busWrite_takes (.write false) (storeAddress m s) (rmwOperand m s) _)).trans
    (busWrite_takes (.write false) (storeAddress m s) (f (rmwOperand m s) s.p).1 _)

theorem impliedInstr_takes {e : State → State} {n : Nat} (h : impliedInstr e s = .next t) (he : ∀ u, Takes n u (e u)) :
    Takes (1 + n) s t := by
  rw [finish_next _ t h]
  exact (discard_takes (s.pc + 1) s).trans (he _)

/-- A taken branch takes one cycle, or two into another page (R291). -/
theorem branchInstr_takes {taken : Bool} {off : Byte} (h : branchInstr taken off s = .next t) :
    Takes (if taken then 1 + crossing (branchNext s.pc) (branchTarget s.pc off) else 0) s t := by
  cases taken with
  | false =>
    rw [finish_next _ t h]
    exact .refl s
  | true =>
    have htaken := discard_takes (branchNext s.pc) s
    cases hp : pageCross (branchNext s.pc) (branchTarget s.pc off) with
    | false =>
      simp only [branchInstr, hp, if_true] at h
      simp only [crossing, hp, if_true]
      rw [finish_next _ t h]
      exact htaken
    | true =>
      simp only [branchInstr, hp, if_true] at h
      simp only [crossing, hp, if_true]
      rw [finish_next _ t h]
      exact htaken.trans (discard_takes _ _)

theorem execJmpInd_takes {ptr : Word} (h : execJmpInd ptr s = .next t) : Takes 2 s t := by
  unfold execJmpInd at h
  cases hn : nextOfPointer s.cfg.jmpIndWrap ptr with
  | none =>
    rw [hn] at h
    cases h
  | some next =>
    rw [hn] at h
    rw [finish_next _ t h]
    exact (busRead_takes .pointer ptr s).trans (busRead_takes .pointer next _)

theorem execJsr_takes {addr : Word} (h : execJsr addr s = .next t) : Takes 4 s t := by
  rw [finish_next _ t h]
  have hpushes := ((discard_takes (stackAddr s.sp) s).trans (push_takes (hiByte (s.pc + 2)) _)).trans
    (push_takes (loByte (s.pc + 2)) _)
  exact hpushes.trans (busRead_takes .operand (s.pc + 2) _)

/-- The two reads before a pull (R293). -/
theorem beforePull_takes (s : State) : Takes 2 s (discard (stackAddr s.sp) (discard (s.pc + 1) s)) :=
  (discard_takes (s.pc + 1) s).trans (discard_takes (stackAddr s.sp) _)

theorem execRts_takes (h : execRts s = .next t) : Takes 5 s t := by
  rw [finish_next _ t h]
  exact ((beforePull_takes s).trans (pullWord_takes _)).trans (discard_takes _ _)

theorem execRti_takes (h : execRti s = .next t) : Takes 5 s t := by
  rw [finish_next _ t h]
  exact (beforePull_takes s).trans (returnFromInterrupt_takes _)

theorem execBrk_takes (h : execBrk s = .next t) : Takes 6 s t := by
  rw [finish_next _ t h]
  exact (discard_takes (s.pc + 1) s).trans (takeException_takes (s.pc + 2) true irqVector _)

end

/-! ## The cycles of each meaning -/

/-- The cycles of an instruction at the address of its operand: one for a load or a store, three for a read-modify-write,
those of the call for JSR, none for JMP (R293). -/
def accessCycles : Mnemonic → Nat
  | .lda | .ldx | .ldy | .adc | .sbc | .cmp | .cpx | .cpy | .and | .eor | .ora | .bit | .sta | .stx | .sty => 1
  | .inc | .dec | .asl | .lsr | .rol | .ror => 3
  | .jsr => 4
  | _ => 0

/-- The cycles of a one-byte instruction after its discarded read, all of them on the stack or at a vector (R293). -/
def stackCycles : Mnemonic → Nat
  | .pha | .php => 1
  | .pla | .plp => 2
  | .rts | .rti => 4
  | .brk => 5
  | _ => 0

/-- The cycles of an instruction's meaning, beside those of R291. -/
def meaningCycles (i : Instr) : Nat :=
  match i.operand with
  | .memory m => addressCycles (if isReadInstr i.mnemonic then .load else .store) m + accessCycles i.mnemonic
  | .immediate _ | .relative _ => 0
  | .absoluteIndirect _ => 2
  | .accumulator => 1
  | .implied => 1 + stackCycles i.mnemonic

/-- The opcode table, row by row: its counts are those of the fetch and of the meaning (R290). -/
theorem baseCycles_eq (i : Instr) : baseCycles i = fetchCycles i + meaningCycles i := by
  cases i <;> rfl

theorem readEffect_takes {mn : Mnemonic} {e : Byte → State → State} (he : readEffect mn = some e) (v : Byte) (s : State) :
    Takes 0 s (e v s) := by
  cases mn with
  | lda | ldx | ldy | adc | sbc | cmp | cpx | cpy | and | eor | ora | bit =>
    cases he
    exact .refl s
  | _ => cases he

theorem impliedEffect_takes {mn : Mnemonic} {e : State → State} (he : impliedEffect mn = some e) (s : State) :
    Takes (stackCycles mn) s (e s) := by
  cases mn with
  | tax | tay | tsx | txa | txs | tya | dex | dey | inx | iny | clc | cld | cli | clv | sec | sed | sei | nop =>
    cases he
    exact .refl s
  | pha | php =>
    cases he
    exact push_takes _ s
  | pla | plp =>
    cases he
    exact (discard_takes (stackAddr s.sp) s).trans (pull_takes _)
  | _ => cases he

theorem readEffect_table {mn : Mnemonic} {e : Byte → State → State} (he : readEffect mn = some e) :
    isReadInstr mn = true ∧ accessCycles mn = 1 := by
  cases mn with
  | lda | ldx | ldy | adc | sbc | cmp | cpx | cpy | and | eor | ora | bit => exact ⟨rfl, rfl⟩
  | _ => cases he

theorem storedByte_table {mn : Mnemonic} {v : State → Byte} (hv : storedByte mn = some v) :
    isReadInstr mn = false ∧ accessCycles mn = 1 := by
  cases mn with
  | sta | stx | sty => exact ⟨rfl, rfl⟩
  | _ => cases hv

theorem rmwEffect_table {mn : Mnemonic} {f : Byte → Flags → ByteAndFlags} (hf : rmwEffect mn = some f) :
    isReadInstr mn = false ∧ accessCycles mn = 3 := by
  cases mn with
  | inc | dec | asl | lsr | rol | ror => exact ⟨rfl, rfl⟩
  | _ => cases hf

/-- The cycles of a reading instruction are its operand's. -/
theorem cycles_of_reads {i : Instr} {src : Source} {e : Byte → State → State} (hs : i.operand.source = some src)
    (he : readEffect i.mnemonic = some e) (s : State) : meaningCycles i + extraCycles i s = sourceCycles src s := by
  obtain ⟨hread, haccess⟩ := readEffect_table he
  unfold meaningCycles extraCycles
  cases ho : i.operand with
  | immediate v =>
    rw [ho] at hs
    cases hs
    rfl
  | memory m =>
    rw [ho] at hs
    cases hs
    simp only [hread, haccess, if_true, sourceCycles]
    omega
  | _ =>
    rw [ho] at hs
    cases hs

/-- An instruction that writes its operand has no cycle of R291. -/
theorem cycles_of_writes {i : Instr} {m : Addr} (ho : i.operand = .memory m) (hread : isReadInstr i.mnemonic = false)
    (s : State) : meaningCycles i + extraCycles i s = addressCycles .store m + accessCycles i.mnemonic := by
  simp [meaningCycles, extraCycles, ho, hread]

/-- The cycles of every instruction's meaning, by its form. -/
theorem exec_takes {i : Instr} {s t : State} (h : exec i s = .next t) :
    Takes (meaningCycles i + extraCycles i s) s t := by
  cases exec_cases i with
  | reads src e hs he hx =>
    rw [hx] at h
    rw [cycles_of_reads hs he s]
    exact readInstr_takes h (readEffect_takes he)
  | stores m v ho hv hx =>
    rw [hx] at h
    obtain ⟨hread, haccess⟩ := storedByte_table hv
    rw [cycles_of_writes ho hread s, haccess]
    exact storeInstr_takes h
  | modifies m f ho hf hx =>
    rw [hx] at h
    obtain ⟨hread, haccess⟩ := rmwEffect_table hf
    rw [cycles_of_writes ho hread s, haccess]
    exact rmwInstr_takes h
  | accumulator f ho hf hx =>
    rw [hx] at h
    simp only [meaningCycles, extraCycles, ho]
    exact impliedInstr_takes h fun u => .refl u
  | implied e ho he hx =>
    rw [hx] at h
    simp only [meaningCycles, extraCycles, ho]
    exact impliedInstr_takes h (impliedEffect_takes he)
  | branches off taken ho ht hx =>
    rw [hx] at h
    simp only [meaningCycles, extraCycles, ho, ht, Option.some.injEq, Nat.zero_add]
    exact branchInstr_takes h
  | jumps addr hi =>
    subst hi
    rw [finish_next _ t h]
    exact .refl s
  | jumpsIndirect ptr hi =>
    subst hi
    exact execJmpInd_takes h
  | calls addr hi =>
    subst hi
    exact execJsr_takes h
  | returns hi =>
    subst hi
    exact execRts_takes h
  | breaks hi =>
    subst hi
    exact execBrk_takes h
  | returnsFromInterrupt hi =>
    subst hi
    exact execRti_takes h

/-- Settles O59: the instruction completes by O58, and the fetch and its meaning spend the table's cycles. -/
theorem cyclesAreThoseOfTheTable : Obligations.CyclesAreThoseOfTheTable := by
  intro i s hrun hgaps hjump
  obtain ⟨hcompletes, -⟩ := everyInstructionCompletes i s
  obtain ⟨t, ht⟩ := hcompletes hrun hjump
  obtain ⟨hclock, -⟩ := exec_takes ht hgaps
  refine ⟨t, ht, ?_⟩
  rw [hclock, cycles, baseCycles_eq]
  omega

end Sys2Proof.Machine
end
